-- ==== Sys2Proof/Word.lean ====
section
/-! DEFINITION. The byte and the word of the block (spec 00 R11). -/

namespace Sys2Proof

/-- A byte, 0 to 255 (00 R11). -/
abbrev Byte := BitVec 8

/-- A `u32`, and the 32-bit pattern that stands for an `f32` (00 R11, R13; 92 D11). -/
abbrev Word32 := BitVec 32

end Sys2Proof
end

