-- ==== Sys2Proof/Config.lean ====
section
/-! DEFINITION. The implementation parameters (spec 00 R9), the fixed constants, and the free values.

The parameters are not state (10 R30). The model carries them in the state, where no step changes them, so that a
statement about every state is a statement about every choice of parameters (log 1). -/

namespace Sys2Proof

/-- The seven instruction names (00 R3; 30 R95). -/
inductive InsName where
  | ping | readStatus | writeStatus | readConfig | writeConfig | saveConfig | bulkComm
deriving DecidableEq, Repr

/-- The parameter `OPC`: an instruction byte for each name (00 R9; 92 D3). -/
structure Opc where
  ping : Byte
  readStatus : Byte
  writeStatus : Byte
  readConfig : Byte
  writeConfig : Byte
  saveConfig : Byte
  bulkComm : Byte
deriving DecidableEq, Repr

/-- The named bits of ErrorFlags (10 R43). -/
inductive FlagName where
  | communication | overheat | absolutePosition | watchdogEstop | jointLimit | hardware | initialization
deriving DecidableEq, Repr

/-- The parameter `FLAG_BIT`: the bit position of each named flag (00 R9; 92 D4). -/
structure FlagBits where
  communication : Fin 8
  overheat : Fin 8
  absolutePosition : Fin 8
  watchdogEstop : Fin 8
  jointLimit : Fin 8
  hardware : Fin 8
  initialization : Fin 8
deriving DecidableEq, Repr

/-- The two register classes (20 R70; 43 R200). -/
inductive RegClass where
  | config | status
deriving DecidableEq, Repr

/-- Register access; "write-only is not modeled" (43 R200). -/
inductive Access where
  | ro | rw
deriving DecidableEq, Repr

/-- The inner numeric type of a register (43 R200). -/
inductive ValueKind where
  | u32 | f32
deriving DecidableEq, Repr

/-- A register's name, as its ASCII codes. -/
abbrev RegName := List Byte

/-- A register descriptor (43 R200). `width` is any natural here: that it is 1, 2 or 4 is a check (43 R201). -/
structure RegDesc where
  name : RegName
  cls : RegClass
  addr : Byte
  access : Access
  readOp : InsName
  writeOp : Option InsName
  width : Nat
  kind : ValueKind
deriving DecidableEq, Repr

/-- The parameters of 00 R9 whose value the source does not give. `WARNING_MASK` is derived (Machine/Flags.lean). -/
structure Params where
  capW : Nat
  capR : Nat
  opc : Opc
  flagBit : FlagBits
  errorMask : Byte
  regs : List RegDesc
deriving DecidableEq, Repr

/-- An instant of the transport's clock: opaque to the block, which only passes it back (20 R79; 93 U12). -/
structure Instant where
  ticks : Nat
deriving DecidableEq, Repr, Inhabited

/-- `HDR0` and `HDR1` (00 R9). -/
def Config.hdr : Byte := 0xFF

/-- `BROADCAST_ID` (00 R9): "defined but no special no-reply handling is implemented", so no meaning reads it (44 R251). -/
def Config.broadcastId : Byte := 0xFE

/-- `GUARD_US`, in microseconds (00 R9). -/
def Config.guardUs : Nat := 1000

/-- `BITS_PER_BYTE` (00 R9). -/
def Config.bitsPerByte : Nat := 10

/-- FREE VALUE. The instant `T.make_deadline(d)` answers, for a duration in microseconds and the number of free
values drawn before it (20 R79; 93 U12). DESIGN CHOICE, safe (log 8). -/
opaque Config.makeDeadline : Nat → Nat → Instant

/-- FREE VALUE. The transfer time of a size at a baud rate of 0, which the block never holds (10 R37) and for which
45 R281 states no value. DESIGN CHOICE, safe (log 9). -/
opaque Config.timeAtZeroBaud : Nat → Nat

end Sys2Proof
end

