-- ==== Sys2Proof/Machine/Bytes.lean ====
section
/-! DEFINITION. Byte-order helpers (spec 00 R13, 20 R61) and the additive checksum (40 R130). -/

namespace Sys2Proof

/-- `le_N(v)`: the `n` least significant bytes of `v`, least significant first (00 R13; 20 R61). -/
def leBytes : Nat → Nat → List Byte
  | 0, _ => []
  | n + 1, v => BitVec.ofNat 8 v :: leBytes n (v / 256)

/-- `from_le(s)`: the sum of `s[i] * 256^i` (00 R13). -/
def fromLe : List Byte → Nat
  | [] => 0
  | b :: bs => b.toNat + 256 * fromLe bs

/-- The bytes of a natural of any size, least significant first: `fuel` bounds their number. -/
def natBytesUpTo : Nat → Nat → List Byte
  | 0, _ => []
  | fuel + 1, v => if v = 0 then [] else BitVec.ofNat 8 v :: natBytesUpTo fuel (v / 256)

/-- The bytes of a natural operand (`nexp`, `size`) in a command word (log 14). -/
def natBytes (v : Nat) : List Byte := natBytesUpTo v v

/-- The sum of a byte sequence, unbounded (40 R130). -/
def sumBytes : List Byte → Nat
  | [] => 0
  | b :: bs => b.toNat + sumBytes bs

/-- `checksum(d) = 255 − (sum of d) mod 256` (40 R130). -/
def checksum (d : List Byte) : Byte := BitVec.ofNat 8 (255 - sumBytes d % 256)

end Sys2Proof
end

