-- ==== Sys2Proof/Machine/Registers.lean ====
section
/-! DEFINITION. The register descriptor table: lookup (spec 43 R202), class to instruction (43 R203), and the
checks of a descriptor (43 R201, 70 R341). The default parameters, and those of the state after reset. -/

namespace Sys2Proof

/-- `READ_OP(class)` (43 R203). -/
def RegClass.readOp : RegClass → InsName
  | .config => .readConfig
  | .status => .readStatus

/-- `WRITE_OP(class)` (43 R203). -/
def RegClass.writeOp : RegClass → InsName
  | .config => .writeConfig
  | .status => .writeStatus

/-- How a command names its register: by its name (30 R118), or by class and address, as a table row's fields do
(log 16). -/
inductive RegRef where
  | named (r : RegName)
  | located (cls : RegClass) (addr : Byte)
deriving DecidableEq, Repr

/-- Does the descriptor answer to this reference? -/
def RegRef.matches (ref : RegRef) (d : RegDesc) : Bool :=
  match ref with
  | .named r => d.name == r
  | .located cls addr => d.cls == cls && d.addr == addr

/-- The descriptor of `REGS` a reference names, if any (43 R202). The first in the table's order, where several answer:
names need not be unique (43 R201), and the spec is silent on which of them one name means. DESIGN CHOICE, unsafe
(log 32). -/
def Params.lookup (p : Params) (ref : RegRef) : Option RegDesc := p.regs.find? ref.matches

/-- The named checks of a descriptor (43 R201). -/
inductive DescCheck where
  | readOp | writeOp | width | f32Width | unique
deriving DecidableEq, Repr

/-- `chk_write_op` (43 R201). -/
def RegDesc.writeOpOk (d : RegDesc) : Bool :=
  match d.access with
  | .rw => d.writeOp == some d.cls.writeOp
  | .ro => d.writeOp == none

/-- The first check of 43 R201 the descriptor fails, in the rule's order, given the descriptors before it in the
table (log 27 for `chk_unique`). -/
def RegDesc.failedCheck (earlier : List RegDesc) (d : RegDesc) : Option DescCheck :=
  if d.readOp != d.cls.readOp then some .readOp
  else if !d.writeOpOk then some .writeOp
  else if !(d.width == 1 || d.width == 2 || d.width == 4) then some .width
  else if d.kind == .f32 && d.width != 4 then some .f32Width
  else if earlier.any (fun e => e.cls == d.cls && e.addr == d.addr) then some .unique
  else none

/-- `check_regs` over the rest of a table (70 R341). -/
def checkRegsAfter : List RegDesc → List RegDesc → Option (RegName × DescCheck)
  | _, [] => none
  | earlier, d :: ds =>
    match d.failedCheck earlier with
    | some c => some (d.name, c)
    | none => checkRegsAfter (earlier ++ [d]) ds

/-- `check_regs(REGS)`: the first failing descriptor and check, or none (70 R341). -/
def checkRegs (regs : List RegDesc) : Option (RegName × DescCheck) := checkRegsAfter [] regs

/-- The default `OPC`. PRESUMED, unsafe (log 3; 93 G1). -/
def Opc.default : Opc where
  ping := 0x01
  readStatus := 0x02
  writeStatus := 0x03
  readConfig := 0x04
  writeConfig := 0x05
  saveConfig := 0x06
  bulkComm := 0x12

/-- The default `FLAG_BIT`. PRESUMED, unsafe (log 4; 93 G2). -/
def FlagBits.default : FlagBits where
  communication := 0
  overheat := 1
  absolutePosition := 2
  watchdogEstop := 3
  jointLimit := 4
  hardware := 5
  initialization := 6

/-- `CFG_0D`, the descriptor of the source's example (43 R209); its name is 95's. -/
def RegDesc.cfg0D : RegDesc where
  name := [0x43, 0x46, 0x47, 0x5F, 0x30, 0x44]
  cls := .config
  addr := 0x0D
  access := .rw
  readOp := .readConfig
  writeOp := some .writeConfig
  width := 4
  kind := .f32

/-- `ST_22`, a test register of 95. -/
def RegDesc.st22 : RegDesc where
  name := [0x53, 0x54, 0x5F, 0x32, 0x32]
  cls := .status
  addr := 0x22
  access := .ro
  readOp := .readStatus
  writeOp := none
  width := 2
  kind := .u32

/-- `CFG_21`, a test register of 95. -/
def RegDesc.cfg21 : RegDesc where
  name := [0x43, 0x46, 0x47, 0x5F, 0x32, 0x31]
  cls := .config
  addr := 0x21
  access := .rw
  readOp := .readConfig
  writeOp := some .writeConfig
  width := 1
  kind := .u32

/-- The parameters of the state after reset: the conventions of 95. DESIGN CHOICE, unsafe (log 2). -/
def Params.atReset : Params where
  capW := 64
  capR := 64
  opc := Opc.default
  flagBit := FlagBits.default
  errorMask := 0xFC
  regs := [RegDesc.cfg0D, RegDesc.st22, RegDesc.cfg21]

end Sys2Proof
end

