-- ==== Sys2Proof/Syntax.lean ====
section
/-! DEFINITION. The block's instructions: one constructor per row of spec/opcode_table.json. -/

namespace Sys2Proof

/-- One entry of `MWRITE` (44 R247): an address and its value bytes. That there are 4 of them is checked when the
command runs (`BadEntry`), so an entry may hold any number. -/
structure Entry where
  addr : Byte
  val : List Byte
deriving DecidableEq, Repr

/-- The rows of spec/opcode_table.json, in the table's order. A `READ` or `WRITE` row names its register by the
address byte, the row giving the class (log 16); the pseudo-instructions name it by name (30 R119). -/
inductive Instr where
  | insPing
  | insReadStatus
  | insWriteStatus
  | insReadConfig
  | insWriteConfig
  | insSaveConfig
  | insBulkComm
  | ping (id : Byte)
  | readStatus (id addr : Byte)
  | readConfig (id addr : Byte)
  | writeStatus1 (id addr : Byte) (v : BitVec 8)
  | writeStatus2 (id addr : Byte) (v : BitVec 16)
  | writeStatus4 (id addr : Byte) (v : BitVec 32)
  | writeConfig1 (id addr : Byte) (v : BitVec 8)
  | writeConfig2 (id addr : Byte) (v : BitVec 16)
  | writeConfig4 (id addr : Byte) (v : BitVec 32)
  | mwriteConfig (id : Byte) (entries : List Entry)
  | mwriteStatus (id : Byte) (entries : List Entry)
  | save (id : Byte)
  | encodeRaw (id ins : Byte) (params : List Byte)
  /-- A received packet `FF FF id LEN body`, with `LEN = body.length`: flag byte, data and claimed checksum are in
  `body` (30 R92). -/
  | response (id : Byte) (body : List Byte)
  | collect (nexp : Nat)
  | checksum (d : List Byte)
  | ttime (size : Nat)
  | setBaud (b : Word32)
  | decodeIns (b : Byte)
  | readReg (r : RegName) (id : Byte)
  | writeReg (r : RegName) (id : Byte) (v : Word32)
deriving DecidableEq, Repr

/-- What the instruction decoder answers (43 R210). -/
inductive DecodedIns where
  | known (x : InsName)
  | unknown (b : Byte)
deriving DecidableEq, Repr

end Sys2Proof
end

