-- ==== Sys2Proof/WellFormed.lean ====
section
/-! DEFINITION. Well-formed parameters (spec 00 R9) and well-formed instructions. -/

namespace Sys2Proof

/-- The seven bytes of `OPC` (00 R9). -/
def Opc.bytes (o : Opc) : List Byte :=
  [o.ping, o.readStatus, o.writeStatus, o.readConfig, o.writeConfig, o.saveConfig, o.bulkComm]

/-- "the seven values must be distinct" (00 R9). -/
abbrev Opc.distinct (o : Opc) : Prop := o.bytes.Nodup

/-- The seven positions of `FLAG_BIT` (00 R9). -/
def FlagBits.positions (f : FlagBits) : List (Fin 8) :=
  [f.communication, f.overheat, f.absolutePosition, f.watchdogEstop, f.jointLimit, f.hardware, f.initialization]

/-- The constraints of 00 R9 on the parameters, and the checks of 43 R201 on `REGS`. -/
abbrev Params.ok (p : Params) : Prop :=
  6 ≤ p.capW ∧ 6 ≤ p.capR ∧ p.opc.distinct ∧ p.flagBit.positions.Nodup ∧ checkRegs p.regs = none

/-- `chk_row_width`: a `WRITE` row is for registers of its own width, so the descriptor it names, if there is one,
has that width (opcode_table.json; log 17). -/
def rowWidthOk (p : Params) (cls : RegClass) (addr : Byte) (w : Nat) : Bool :=
  match p.lookup (.located cls addr) with
  | some d => d.width == w
  | none => true

/-- `chk_entry_length`: an entry's value is short enough for the one-byte count of a command word (log 14). -/
def entriesOk (entries : List Entry) : Bool := entries.all (fun e => e.val.length < 256)

/-- `chk_response_length`: the length byte of a packet is one byte (30 R92). -/
def responseOk (body : List Byte) : Bool := body.length < 256

/-- Well-formed instructions, for given parameters. -/
def Instr.wellFormed (p : Params) : Instr → Bool
  | .insPing | .insReadStatus | .insWriteStatus | .insReadConfig | .insWriteConfig | .insSaveConfig
  | .insBulkComm => true
  | .ping _ | .readStatus _ _ | .readConfig _ _ => true
  | .writeStatus1 _ a _ => rowWidthOk p .status a 1
  | .writeStatus2 _ a _ => rowWidthOk p .status a 2
  | .writeStatus4 _ a _ => rowWidthOk p .status a 4
  | .writeConfig1 _ a _ => rowWidthOk p .config a 1
  | .writeConfig2 _ a _ => rowWidthOk p .config a 2
  | .writeConfig4 _ a _ => rowWidthOk p .config a 4
  | .mwriteConfig _ es | .mwriteStatus _ es => entriesOk es
  | .save _ | .encodeRaw _ _ _ => true
  | .response _ body => responseOk body
  | .collect _ | .checksum _ | .ttime _ | .setBaud _ | .decodeIns _ | .readReg _ _ | .writeReg _ _ _ => true

end Sys2Proof
end

