-- ==== Sys2Proof/Decode.lean ====
section
/-! DEFINITION. The instruction decoder and encoder of the block (spec 43 R210, R211), the command words by which
the host issues commands (30 R118; log 14), their decoder, and after it their encoder. -/

namespace Sys2Proof

/-- `encode_ins` (43 R211). -/
def Opc.byteOf (o : Opc) : InsName → Byte
  | .ping => o.ping
  | .readStatus => o.readStatus
  | .writeStatus => o.writeStatus
  | .readConfig => o.readConfig
  | .writeConfig => o.writeConfig
  | .saveConfig => o.saveConfig
  | .bulkComm => o.bulkComm

/-- `decode_ins` (43 R210). -/
def Opc.decodeIns (o : Opc) (b : Byte) : DecodedIns :=
  if b = o.ping then .known .ping
  else if b = o.readStatus then .known .readStatus
  else if b = o.writeStatus then .known .writeStatus
  else if b = o.readConfig then .known .readConfig
  else if b = o.writeConfig then .known .writeConfig
  else if b = o.saveConfig then .known .saveConfig
  else if b = o.bulkComm then .known .bulkComm
  else .unknown b

/-- "opcode reserved, not implemented": the one reserved instruction (30 R99). -/
def DecodedIns.reserved : DecodedIns → Bool
  | .known .bulkComm => true
  | _ => false

/-- The length byte of a request with `n` parameters (30 R93). It is exact for `n <= 253`. -/
def lenByte (n : Nat) : Byte := BitVec.ofNat 8 (n + 2)

/-- A request packet (30 R91, R93; 40 R132). -/
def requestPacket (id ins : Byte) (params : List Byte) : List Byte :=
  [Config.hdr, Config.hdr, id, lenByte params.length, ins] ++ params
    ++ [checksum ([id, lenByte params.length, ins] ++ params)]

/-- A received packet with `LEN = body.length` (30 R92). -/
def responsePacket (id : Byte) (body : List Byte) : List Byte :=
  [Config.hdr, Config.hdr, id, BitVec.ofNat 8 body.length] ++ body

/-- The 5 parameter bytes of one `MWRITE` entry: its address and its value (30 R96). -/
def entryBytes (e : Entry) : List Byte := e.addr :: e.val

/-- The parameters of `MWRITE` (30 R96; 44 R247). -/
def entriesBytes : List Entry → List Byte
  | [] => []
  | e :: es => entryBytes e ++ entriesBytes es

/-- The commands whose command word is a packet: those of the table's request and response rows. -/
inductive PacketForm where
  | ping | read | write | mwrite | save | encode | response
deriving DecidableEq, Repr

/-- The commands whose command word is a list of operand bytes: the host commands with no wire encoding, and the
two variable-length commands where their operands fit no packet. -/
inductive OperandForm where
  | mwriteConfig | mwriteStatus | encode | collect | checksum | ttime | setBaud | decodeIns | readReg | writeReg
deriving DecidableEq, Repr

/-- How a command word is laid out. The host selects it with the mnemonic (30 R118). -/
inductive Form where
  | insByte
  | packet (f : PacketForm)
  | operands (f : OperandForm)
deriving DecidableEq, Repr

/-- A command word: DESIGN CHOICE (log 14). -/
structure CommandWord where
  form : Form
  bytes : List Byte
deriving DecidableEq, Repr

/-- Why a command word encodes no instruction. -/
inductive DecodeError where
  /-- a packet that does not begin `FF FF` (30 R101) -/
  | notPrefix
  /-- fewer bytes than the form has -/
  | truncated
  /-- a length byte, or a number of bytes, that the form does not have -/
  | badLength
  /-- an instruction byte of another command -/
  | otherInstruction
  /-- a `WRITE` row of another width than the register's (log 17) -/
  | rowWidth
  /-- operand bytes that the form does not have -/
  | badOperands
deriving DecidableEq, Repr

/-- The instruction of a table row `INS.x`. -/
def InsName.toInstr : InsName → Instr
  | .ping => .insPing
  | .readStatus => .insReadStatus
  | .writeStatus => .insWriteStatus
  | .readConfig => .insReadConfig
  | .writeConfig => .insWriteConfig
  | .saveConfig => .insSaveConfig
  | .bulkComm => .insBulkComm

/-- Instruction-byte rows: a byte outside `OPC` is no row, but the instruction decoder answers it too, so it
decodes to `DECODEINS` of the byte (43 R210). -/
def decodeInsByte (p : Params) : List Byte → Except DecodeError Instr
  | [b] =>
    match p.opc.decodeIns b with
    | .known x => .ok x.toInstr
    | .unknown u => .ok (.decodeIns u)
  | [] => .error .truncated
  | _ => .error .badLength

/-- The entries of an `MWRITE` packet: 5 bytes each (20 R64). -/
def splitEntries : List Byte → Option (List Entry)
  | [] => some []
  | a :: b0 :: b1 :: b2 :: b3 :: rest => (splitEntries rest).map ({ addr := a, val := [b0, b1, b2, b3] } :: ·)
  | _ => none

/-- The entries of an `MWRITE` in operand form: address, count, that many value bytes. -/
def splitCounted : Nat → List Byte → Option (List Entry)
  | _, [] => some []
  | fuel + 1, a :: n :: rest =>
    if rest.length < n.toNat then none
    else (splitCounted fuel (rest.drop n.toNat)).map ({ addr := a, val := rest.take n.toNat } :: ·)
  | _, _ => none

/-- A command word's length byte, in the two rows whose mask leaves it free (`MWRITE`, `ENCODE`): `n + 2`, or below
2, where no request has it (30 R91): the encoder computes it, the host never supplies it (30 R98; log 15). -/
def lenOk (len : Byte) (n : Nat) : Bool := len.toNat == n + 2 || decide (len.toNat < 2)

/-- A `READ` row (30 R120). -/
def decodeRead (p : Params) (id len ins : Byte) : List Byte → Except DecodeError Instr
  | [a] =>
    if len ≠ 3 then .error .badLength
    else if ins = p.opc.readStatus then .ok (.readStatus id a)
    else if ins = p.opc.readConfig then .ok (.readConfig id a)
    else .error .otherInstruction
  | _ => .error .badLength

/-- The `WRITE` row of a class and a value's bytes (30 R120; 43 R207). -/
def writeRow (p : Params) (cls : RegClass) (id a : Byte) (v : List Byte) : Except DecodeError Instr :=
  let n := fromLe v
  if !rowWidthOk p cls a v.length then .error .rowWidth
  else
    match cls, v.length with
    | .status, 1 => .ok (.writeStatus1 id a (BitVec.ofNat 8 n))
    | .status, 2 => .ok (.writeStatus2 id a (BitVec.ofNat 16 n))
    | .status, 4 => .ok (.writeStatus4 id a (BitVec.ofNat 32 n))
    | .config, 1 => .ok (.writeConfig1 id a (BitVec.ofNat 8 n))
    | .config, 2 => .ok (.writeConfig2 id a (BitVec.ofNat 16 n))
    | .config, 4 => .ok (.writeConfig4 id a (BitVec.ofNat 32 n))
    | _, _ => .error .badLength

/-- A `WRITE` row (30 R120). -/
def decodeWrite (p : Params) (id len ins : Byte) : List Byte → Except DecodeError Instr
  | a :: v =>
    if len.toNat ≠ v.length + 3 then .error .badLength
    else if ins = p.opc.writeStatus then writeRow p .status id a v
    else if ins = p.opc.writeConfig then writeRow p .config id a v
    else .error .otherInstruction
  | [] => .error .badLength

/-- An `MWRITE` row (30 R120). -/
def decodeMwrite (p : Params) (id len ins : Byte) (params : List Byte) : Except DecodeError Instr :=
  if !lenOk len params.length then .error .badLength
  else
    match splitEntries params with
    | none => .error .badOperands
    | some es =>
      if ins = p.opc.writeConfig then .ok (.mwriteConfig id es)
      else if ins = p.opc.writeStatus then .ok (.mwriteStatus id es)
      else .error .otherInstruction

/-- A request row with no parameters (30 R120). -/
def decodeBare (len ins want : Byte) (params : List Byte) (i : Instr) : Except DecodeError Instr :=
  if len ≠ 2 ∨ params ≠ [] then .error .badLength
  else if ins ≠ want then .error .otherInstruction
  else .ok i

/-- A request row: `rest` is the bytes after the instruction byte, the last of them the checksum, which the encoder
computes and no row's mask covers, so it is not looked at (30 R98; log 14). -/
def decodeRequest (p : Params) (f : PacketForm) (id len ins : Byte) (rest : List Byte) : Except DecodeError Instr :=
  let params := rest.dropLast
  if rest = [] then .error .truncated
  else
    match f with
    | .ping => decodeBare len ins p.opc.ping params (.ping id)
    | .save => decodeBare len ins p.opc.saveConfig params (.save id)
    | .read => decodeRead p id len ins params
    | .write => decodeWrite p id len ins params
    | .mwrite => decodeMwrite p id len ins params
    | .encode => if lenOk len params.length then .ok (.encodeRaw id ins params) else .error .badLength
    | .response => .error .badOperands

/-- A packet's command word (20 R68; 30 R91, R92). -/
def decodePacket (p : Params) (f : PacketForm) : List Byte → Except DecodeError Instr
  | h0 :: h1 :: id :: len :: tail =>
    if h0 ≠ Config.hdr ∨ h1 ≠ Config.hdr then .error .notPrefix
    else
      match f, tail with
      | .response, body => if len.toNat = body.length then .ok (.response id body) else .error .badLength
      | _, ins :: rest => decodeRequest p f id len ins rest
      | _, [] => .error .truncated
  | _ => .error .truncated

/-- A command word of operand bytes (30 R118; log 14). -/
def decodeOperands : OperandForm → List Byte → Except DecodeError Instr
  | .mwriteConfig, id :: bs =>
    match splitCounted bs.length bs with
    | some es => .ok (.mwriteConfig id es)
    | none => .error .badOperands
  | .mwriteStatus, id :: bs =>
    match splitCounted bs.length bs with
    | some es => .ok (.mwriteStatus id es)
    | none => .error .badOperands
  | .encode, id :: ins :: params => .ok (.encodeRaw id ins params)
  | .collect, bs => .ok (.collect (fromLe bs))
  | .checksum, bs => .ok (.checksum bs)
  | .ttime, bs => .ok (.ttime (fromLe bs))
  | .setBaud, bs => if bs.length = 4 then .ok (.setBaud (BitVec.ofNat 32 (fromLe bs))) else .error .badLength
  | .decodeIns, [b] => .ok (.decodeIns b)
  | .readReg, id :: name => .ok (.readReg name id)
  | .writeReg, id :: v0 :: v1 :: v2 :: v3 :: name =>
    .ok (.writeReg name id (BitVec.ofNat 32 (fromLe [v0, v1, v2, v3])))
  | _, _ => .error .badOperands

/-- The instruction a command word stands for, or why there is none. Total on any bytes. -/
def decode (p : Params) (w : CommandWord) : Except DecodeError Instr :=
  match w.form with
  | .insByte => decodeInsByte p w.bytes
  | .packet f => decodePacket p f w.bytes
  | .operands f => decodeOperands f w.bytes

/-- The mnemonic of a bare packet: the first row of the table it matches, by its length and instruction bytes. A
packet matches several rows (every request is an `ENCODE`), and the table's order decides (log 15). -/
def bareForm (o : Opc) (len ins : Byte) : PacketForm :=
  if len = 2 ∧ ins = o.ping then .ping
  else if len = 3 ∧ (ins = o.readStatus ∨ ins = o.readConfig) then .read
  else if (len = 4 ∨ len = 5 ∨ len = 7) ∧ (ins = o.writeStatus ∨ ins = o.writeConfig) then .write
  else if ins = o.writeConfig ∨ ins = o.writeStatus then .mwrite
  else if len = 2 ∧ ins = o.saveConfig then .save
  else .encode

/-- The number of bytes of a bare packet: `4 + LEN` (30 R93), or the bytes given where `LEN` is below 2. -/
def bareLength (nbytes : Nat) (len : Byte) : Nat := if 2 ≤ len.toNat then 4 + len.toNat else max 6 nbytes

/-- The command word of an instruction whose bits are `w`, byte `j` at bits `8j+7..8j` (30 R91): one byte is an
instruction byte, more are a packet, zeros above `nbits`. -/
def tableWord (o : Opc) (nbits w : Nat) : CommandWord :=
  if nbits ≤ 8 then { form := .insByte, bytes := leBytes 1 w }
  else
    let len := BitVec.ofNat 8 (w / 256 ^ 3)
    let ins := BitVec.ofNat 8 (w / 256 ^ 4)
    { form := .packet (bareForm o len ins), bytes := leBytes (bareLength (nbits / 8) len) w }

/-- The instruction the decoder reads from a table word, under the parameters of the state after reset. -/
def decodeTableWord (nbits w : Nat) : Option Instr :=
  (decode Params.atReset (tableWord Params.atReset.opc nbits w)).toOption

/-- Do an `MWRITE`'s entries fit its packet row: 4 value bytes each, and a length byte of `5k + 2`? -/
def entriesFitPacket (es : List Entry) : Bool := es.all (fun e => e.val.length == 4) && decide (es.length ≤ 50)

/-- The operand form of one entry. -/
def countedEntry (e : Entry) : List Byte := e.addr :: BitVec.ofNat 8 e.val.length :: e.val

/-- The operand form of entries. -/
def countedEntries : List Entry → List Byte
  | [] => []
  | e :: es => countedEntry e ++ countedEntries es

/-- A request's command word: the packet it sends (30 R120). -/
def packetWord (f : PacketForm) (id ins : Byte) (params : List Byte) : CommandWord :=
  { form := .packet f, bytes := requestPacket id ins params }

/-- The command word of a well-formed instruction. -/
def encode (p : Params) : Instr → CommandWord
  | .insPing => { form := .insByte, bytes := [p.opc.byteOf .ping] }
  | .insReadStatus => { form := .insByte, bytes := [p.opc.byteOf .readStatus] }
  | .insWriteStatus => { form := .insByte, bytes := [p.opc.byteOf .writeStatus] }
  | .insReadConfig => { form := .insByte, bytes := [p.opc.byteOf .readConfig] }
  | .insWriteConfig => { form := .insByte, bytes := [p.opc.byteOf .writeConfig] }
  | .insSaveConfig => { form := .insByte, bytes := [p.opc.byteOf .saveConfig] }
  | .insBulkComm => { form := .insByte, bytes := [p.opc.byteOf .bulkComm] }
  | .ping id => packetWord .ping id (p.opc.byteOf .ping) []
  | .readStatus id a => packetWord .read id (p.opc.byteOf .readStatus) [a]
  | .readConfig id a => packetWord .read id (p.opc.byteOf .readConfig) [a]
  | .writeStatus1 id a v => packetWord .write id (p.opc.byteOf .writeStatus) (a :: leBytes 1 v.toNat)
  | .writeStatus2 id a v => packetWord .write id (p.opc.byteOf .writeStatus) (a :: leBytes 2 v.toNat)
  | .writeStatus4 id a v => packetWord .write id (p.opc.byteOf .writeStatus) (a :: leBytes 4 v.toNat)
  | .writeConfig1 id a v => packetWord .write id (p.opc.byteOf .writeConfig) (a :: leBytes 1 v.toNat)
  | .writeConfig2 id a v => packetWord .write id (p.opc.byteOf .writeConfig) (a :: leBytes 2 v.toNat)
  | .writeConfig4 id a v => packetWord .write id (p.opc.byteOf .writeConfig) (a :: leBytes 4 v.toNat)
  | .mwriteConfig id es =>
    if entriesFitPacket es then packetWord .mwrite id (p.opc.byteOf .writeConfig) (entriesBytes es)
    else { form := .operands .mwriteConfig, bytes := id :: countedEntries es }
  | .mwriteStatus id es =>
    if entriesFitPacket es then packetWord .mwrite id (p.opc.byteOf .writeStatus) (entriesBytes es)
    else { form := .operands .mwriteStatus, bytes := id :: countedEntries es }
  | .save id => packetWord .save id (p.opc.byteOf .saveConfig) []
  | .encodeRaw id ins params =>
    if params.length ≤ 253 then packetWord .encode id ins params
    else { form := .operands .encode, bytes := id :: ins :: params }
  | .response id body => { form := .packet .response, bytes := responsePacket id body }
  | .collect nexp => { form := .operands .collect, bytes := natBytes nexp }
  | .checksum d => { form := .operands .checksum, bytes := d }
  | .ttime size => { form := .operands .ttime, bytes := natBytes size }
  | .setBaud b => { form := .operands .setBaud, bytes := leBytes 4 b.toNat }
  | .decodeIns b => { form := .operands .decodeIns, bytes := [b] }
  | .readReg r id => { form := .operands .readReg, bytes := id :: r }
  | .writeReg r id v => { form := .operands .writeReg, bytes := id :: (leBytes 4 v.toNat ++ r) }

end Sys2Proof
end

