-- ==== Sys2Proof/Machine/State.lean ====
section
/-! DEFINITION. The block's state (spec 10 R30), the results it gives, the transport's answers and calls, the
state after reset (10 R46, 70 R340), and the model's own faults and refusals. -/

namespace Sys2Proof.Machine

/-- A byte array: address and byte pairs, in the canonical form of `Memory.wf` (Machine/Ops.lean). -/
abbrev Memory := List Host.Cell

/-- `PHASE`, the framing state machine's position (42 R160). -/
inductive Phase where
  | idle | resync | check | read | verify
deriving DecidableEq, Repr

/-- `STEP`, the bus command sequencer's position (44 R230). -/
inductive SeqStep where
  | idle | encode | reset | write | collect | decompose
deriving DecidableEq, Repr

/-- A transport error value: opaque, carried in a failure and passed to `T.is_timeout_error` (91 N11; 93 U11). -/
structure TransportError where
  value : Nat
deriving DecidableEq, Repr

/-- Where a `BufferTooSmall` arises (60 R300). -/
inductive Site where
  | encode | receive | registerEncode
deriving DecidableEq, Repr

/-- The cause of an `InvalidMessage` (44 R239, R242). -/
inductive MessageCause where
  | shortPacket (length : Nat)
  | invalidParameterCount (expected actual : Nat)
deriving DecidableEq, Repr

/-- The failures a command may end in, with the info each records (60 R300). -/
inductive Failure where
  | bufferTooSmall (required actual : Nat) (site : Site)
  | lengthOverflow (params : Nat)
  | discardFailed (e : TransportError)
  | writeFailed (e : TransportError)
  | readFailed (e : TransportError)
  | timeout
  | invalidChecksum (claimed computed : Byte)
  | invalidPacketId (expected received : Byte)
  | invalidParameterCount (expected actual : Nat)
  | invalidMessage (cause : MessageCause)
  | motorError (flags : Byte)
deriving DecidableEq, Repr

/-- The spec's refusals (60 R306): the model records one in the flag `State.refusal` and goes on (60 R305). -/
inductive RefusalInfo where
  | concurrentCommand
  | staleView
  | unknownRegister (r : RegRef)
  | notWritable (r : RegName)
  | valueOutOfRange (r : RegName) (v : Nat)
  | badEntry (i : Nat)
  | zeroBaud
  | transportContract (answered offered : Nat)
  | illFormedDescriptor (r : RegName) (c : DescCheck)
deriving DecidableEq, Repr

/-- A decoded register value (43 R205): a `u32`, or the pattern of an `f32`. -/
inductive Value where
  | u32 (v : Word32)
  | f32 (pattern : Word32)
deriving DecidableEq, Repr

/-- The `data` of a `Response` (44 R249). -/
inductive RespData where
  | raw (bytes : List Byte)
  | value (v : Value)
  | unit
deriving DecidableEq, Repr

/-- `Response` (00 R16; 44 R249). -/
structure Response where
  motorId : Byte
  warning : Option Byte
  data : RespData
deriving DecidableEq, Repr

/-- What the host receives from a request: a command's result, or the bytes of a view read. Bus operations and
`COLLECT`, and every failure, carry `SKIPPED` (10 R38; 44 R249; 60 R300). -/
inductive Result where
  | response (r : Response) (skipped : Nat)
  | collected (m skipped : Nat)
  | encoded (k : Nat) (bytes : List Byte)
  | byte (b : Byte)
  | micros (t : Nat)
  | instruction (d : DecodedIns)
  | done
  | viewBytes (bytes : List Byte)
  | failed (f : Failure) (skipped : Nat)
  | refused (r : RefusalInfo)
deriving DecidableEq, Repr

/-- `kind` of a request: how its response is decomposed (44 R232). -/
inductive Kind where
  | ping
  | read (r : RegDesc)
  | ack
deriving DecidableEq, Repr

/-- The pseudocode locals of the command in progress: a request's `id`, `kind`, `nexp` and encoded length `k`
(44 R232), or a `COLLECT`. The model's own field. -/
inductive Exchange where
  | request (id : Byte) (kind : Kind) (nexp k : Nat)
  | collect (nexp : Nat)
deriving DecidableEq, Repr

/-- A call the block makes on the transport, with its arguments (20 R75). -/
inductive Call where
  | baudRate
  | setBaudRate (b : Word32)
  | discardInput
  | writeAll (bytes : List Byte)
  | makeDeadline (micros : Nat)
  | read (at_ n : Nat) (deadline : Instant)
  | isTimeoutError (e : TransportError)
deriving DecidableEq, Repr

/-- An answer to `T.discard_input` (20 R78). What is still pending after a failed discard is part of the draw
(log 12). -/
inductive DiscardAnswer where
  | ok
  | err (e : TransportError) (left : List Byte)
deriving DecidableEq, Repr

/-- An answer to `T.write_all` (20 R76). -/
inductive WriteAnswer where
  | ok
  | err (e : TransportError)
deriving DecidableEq, Repr

/-- An answer to `T.read` (20 R77). `ok arrived limit`: the bytes `arrived` reach the line after the pending ones,
and the call returns the first `limit` of all of them, or all if there are fewer (10 R45; log 11). `err e timedOut`:
the error, with the answer of `T.is_timeout_error(e)`. -/
inductive ReadAnswer where
  | ok (arrived : List Byte) (limit : Nat)
  | err (e : TransportError) (timedOut : Bool)
deriving DecidableEq, Repr

/-- What the host may ask for (70 R361): a command, or `n` bytes of the live view from `at_`. -/
inductive HostRequest where
  | issue (w : CommandWord)
  | readView (at_ n : Nat)
deriving DecidableEq, Repr

/-- The state. The elements of 10 R30, the kept refusal flag of 60 R305, the parameters (log 1), the transport's
pending input (10 R45) and answers (log 11), and the model's own fields. -/
structure State where
  /-- the parameters of 00 R9; no step changes them -/
  par : Params
  /-- `WBUF` (10 R31) -/
  wbuf : Memory
  /-- `RBUF` (10 R32) -/
  rbuf : Memory
  /-- `READ_LEN` (10 R33) -/
  readLen : Nat
  /-- `USED` (10 R34) -/
  used : Nat
  /-- `BAUD` (10 R37) -/
  baud : Word32
  /-- `SKIPPED` (10 R38) -/
  skipped : Nat
  /-- `DL` (10 R39) -/
  dl : Instant
  /-- `PHASE` (10 R40) -/
  phase : Phase
  /-- `STEP` (10 R40) -/
  seq : SeqStep
  /-- `VIEW` (10 R42) -/
  view : Option Nat
  /-- the refusal flag, "kept for the whole state and never cleared" (60 R305) -/
  refusal : Bool
  /-- the command in progress: the model's own -/
  exchange : Option Exchange
  /-- the result last given to the host: the model's own (log 23) -/
  result : Option Result
  /-- what the host has asked for and no step has served: the model's own (log 13) -/
  inbox : List HostRequest
  /-- the transport's pending input (10 R45) -/
  pending : List Byte
  /-- answers the transport has given to `T.discard_input` and no call has used (log 11) -/
  discards : List DiscardAnswer
  /-- answers to `T.write_all` (log 11) -/
  writes : List WriteAnswer
  /-- answers to `T.read` (log 11) -/
  reads : List ReadAnswer
  /-- the calls made on the transport, oldest first: the model's own (log 24) -/
  calls : List Call
  /-- how many free values have been drawn: the model's own (log 8) -/
  drawn : Nat
deriving DecidableEq, Repr

/-- The faults of the model. -/
inductive Fault where
  /-- Raised by a step that serves a host's read of view bytes that do not lie in `RBUF[0..M)`: the spec gives the
  host no other byte (10 R42). Safe (log 25). -/
  | viewOutOfRange (at_ n m : Nat)
deriving DecidableEq, Repr

/-- The refusals of the model. The spec's own refusals are no such stop: they are next states (60 R305). -/
inductive Refusal where
  /-- Answered by `exec` for an instruction that has no meaning yet. Safe. -/
  | notModelled (mnemonic : String)
  /-- Raised by a step that serves a command word which encodes no command. Safe (log 30). -/
  | noSuchCommand (e : DecodeError)
deriving DecidableEq, Repr

/-- The block right after reset: the values of 10 R46, and where the spec gives none, those of log 2 (parameters),
log 5 (`BAUD`), log 6 (buffer bytes), log 7 (`DL`) and log 11 (the transport). -/
def State.reset : State where
  par := Params.atReset
  wbuf := [(0, 0xFF), (1, 0xFF)]
  rbuf := []
  readLen := 0
  used := 0
  baud := 1000000
  skipped := 0
  dl := { ticks := 0 }
  phase := .idle
  seq := .idle
  view := none
  refusal := false
  exchange := none
  result := none
  inbox := []
  pending := []
  discards := []
  writes := []
  reads := []
  calls := [.baudRate]
  drawn := 0

end Sys2Proof.Machine
end

