-- ==== Sys2Proof/Machine/Flags.lean ====
section
/-! DEFINITION. ErrorFlags: the named bits, the two masks (spec 00 R9; 10 R43) and the classification of a flag
byte (44 R240). The block has no flags register of its own (10 R43). -/

namespace Sys2Proof.Machine

/-- The bit position of a named flag (00 R9). -/
def flagPosition (f : FlagBits) : FlagName → Fin 8
  | .communication => f.communication
  | .overheat => f.overheat
  | .absolutePosition => f.absolutePosition
  | .watchdogEstop => f.watchdogEstop
  | .jointLimit => f.jointLimit
  | .hardware => f.hardware
  | .initialization => f.initialization

/-- `bit(i)` (00 R11). -/
def bit (i : Fin 8) : Byte := BitVec.ofNat 8 (2 ^ i.val)

/-- `WARNING_MASK` (00 R9). -/
def warningMask (p : Params) : Byte := bit p.flagBit.communication ||| bit p.flagBit.overheat

/-- The default `ERROR_MASK`: the complement within the byte (00 R9; 92 D5). -/
def defaultErrorMask (p : Params) : Byte := ~~~ warningMask p

/-- Is the named flag set in a flag byte? -/
def flagSet (p : Params) (x : FlagName) (f : Byte) : Bool := f &&& bit (flagPosition p.flagBit x) != 0

/-- `classify(f)`: an error bit wins over a warning bit (44 R240, R241). -/
def classify (p : Params) (f : Byte) : Except Failure (Option Byte) :=
  if f &&& p.errorMask ≠ 0 then .error (.motorError f)
  else if f &&& warningMask p ≠ 0 then .ok (some (f &&& warningMask p))
  else .ok none

end Sys2Proof.Machine
end

