-- ==== Sys2Proof/Machine/Ops.lean ====
section
/-! DEFINITION. The named operations over the byte arrays (spec 00 R12), the entry of a failure and of a refusal
(00 R14; 60 R305, R307), the end and the start of a command (44 R231), and reset as a construction (70 R340).

The block's exceptions are its failures. Taking one is `raise`. There is no return from one: "no failure handler, no
return-from-failure operation and no nesting" (60 R308). -/

namespace Sys2Proof.Machine

/-- What a byte that nothing has written reads as. DESIGN CHOICE, unsafe (log 6); no rule reads such a byte. -/
def Memory.unlisted : Byte := 0

/-- The byte at an address. -/
def Memory.read : Memory → Nat → Byte
  | [], _ => Memory.unlisted
  | (k, v) :: m, a => if k = a then v else Memory.read m a

/-- Writes a byte, keeping the canonical form. -/
def Memory.write : Memory → Nat → Byte → Memory
  | [], a, b => if b = Memory.unlisted then [] else [(a, b)]
  | (k, v) :: m, a, b =>
    if a < k then (if b = Memory.unlisted then (k, v) :: m else (a, b) :: (k, v) :: m)
    else if a = k then (if b = Memory.unlisted then m else (a, b) :: m)
    else (k, v) :: Memory.write m a b

/-- `MemRead(BUF, a, n)` (00 R12). -/
def Memory.readBytes (m : Memory) : Nat → Nat → List Byte
  | _, 0 => []
  | a, n + 1 => m.read a :: Memory.readBytes m (a + 1) n

/-- `MemWrite(BUF, a, n, v)`, with `n` the length of `v` (00 R12). -/
def Memory.writeBytes : Memory → Nat → List Byte → Memory
  | m, _, [] => m
  | m, a, b :: bs => Memory.writeBytes (m.write a b) (a + 1) bs

/-- The canonical form: addresses strictly rising, and no entry equal to what an unlisted address reads as. -/
def Memory.wf : Memory → Bool
  | [] => true
  | [(_, v)] => v != Memory.unlisted
  | (k, v) :: (k', v') :: m => v != Memory.unlisted && decide (k < k') && Memory.wf ((k', v') :: m)

/-- Every listed address lies inside a buffer of this capacity. -/
def Memory.within (m : Memory) (cap : Nat) : Bool := m.all (fun c => decide (c.1 < cap))

/-- Ends the command in progress: `STEP = PHASE = IDLE` whether it succeeds, fails or is refused (10 R40). -/
def State.endCommand (s : State) : State := { s with seq := .idle, phase := .idle, exchange := none }

/-- `return v`: the command's result goes to the host. -/
def State.deliver (r : Result) (s : State) : State := { s.endCommand with result := some r }

/-- `raise F(info)`: failure entry. Nothing is saved and nothing rolled back; the failure and `SKIPPED` go to the
host (60 R300, R307). -/
def State.raise (f : Failure) (s : State) : State := s.deliver (.failed f s.skipped)

/-- `refuse F(info)`: the kept flag is set, and no other state of the block changes but `STEP` and `PHASE`
(60 R305). -/
def State.refuse (r : RefusalInfo) (s : State) : State := { s.deliver (.refused r) with refusal := true }

/-- The start of every command, and then its body: a command while `STEP != IDLE` is refused, and the view ends
(44 R231; log 21, log 22). -/
def State.command (body : State → State) (s : State) : State :=
  if s.seq = .idle then body { s with view := none } else s.refuse .concurrentCommand

/-- Notes a call on the transport (20 R75; log 24). -/
def State.callTransport (c : Call) (s : State) : State := { s with calls := s.calls ++ [c] }

/-- The numeric code of a failure (60 R300; 92 D19). -/
def Failure.code : Failure → Byte
  | .bufferTooSmall _ _ _ => 0x01
  | .lengthOverflow _ => 0x02
  | .discardFailed _ => 0x10
  | .writeFailed _ => 0x11
  | .readFailed _ => 0x12
  | .timeout => 0x13
  | .invalidChecksum _ _ => 0x20
  | .invalidPacketId _ _ => 0x21
  | .invalidParameterCount _ _ => 0x22
  | .invalidMessage _ => 0x23
  | .motorError _ => 0x30

/-- The four kinds of failure (60 R300, R301). -/
inductive FailureKind where
  | capacity | transportIo | malformedMessage | deviceFault
deriving DecidableEq, Repr

/-- The kind of a failure (60 R300). -/
def Failure.kind : Failure → FailureKind
  | .bufferTooSmall _ _ _ | .lengthOverflow _ => .capacity
  | .discardFailed _ | .writeFailed _ | .readFailed _ | .timeout => .transportIo
  | .invalidChecksum _ _ | .invalidPacketId _ _ | .invalidParameterCount _ _ | .invalidMessage _ => .malformedMessage
  | .motorError _ => .deviceFault

/-- Reads of the view by the host: `RBUF[a..a+n)` inside `RBUF[0..M)`, a `StaleView` refusal when there is no view,
and a fault outside it (10 R42; 70 R351, R361; log 25). -/
def State.readView (a n : Nat) (s : State) : Host.Outcome State Fault Refusal :=
  match s.view with
  | none => .next (s.refuse .staleView)
  | some m =>
    if a + n ≤ m then .next { s with result := some (.viewBytes (s.rbuf.readBytes a n)) }
    else .fault (.viewOutOfRange a n m)

/-- Reset: the construction of the block over a transport that answers `b` to `T.baud_rate()` (70 R340, R341). The
elements the spec leaves unspecified take the values of `State.reset`. -/
def construct (p : Params) (b : Word32) : Except RefusalInfo State :=
  match checkRegs p.regs with
  | some (r, c) => .error (.illFormedDescriptor r c)
  | none => if b = 0 then .error .zeroBaud else .ok { State.reset with par := p, baud := b }

end Sys2Proof.Machine
end

