-- ==== Sys2Proof/Machine/Timing.lean ====
section
/-! DEFINITION. The transfer-time and deadline calculator (spec 45). -/

namespace Sys2Proof.Machine

/-- `transfer_time_us(size)` at a baud rate, in microseconds (45 R281). A baud rate of 0 is never held (10 R37): the
value there is free (log 9). -/
def transferTime (baud : Word32) (size : Nat) : Nat :=
  if baud = 0 then Config.timeAtZeroBaud size
  else (size * Config.bitsPerByte * 1000000 + baud.toNat - 1) / baud.toNat

/-- `deadline_duration(nexp)`, in microseconds (45 R282). -/
def deadlineDuration (baud : Word32) (nexp : Nat) : Nat := transferTime baud (nexp + 6) + Config.guardUs

end Sys2Proof.Machine
end

