-- ==== Sys2Proof/Machine/Framer.lean ====
section
/-! DEFINITION. The packet encoder (spec 41) and the UART-framing receive state machine (spec 42). -/

namespace Sys2Proof.Machine

/-- `encode(id, ins, n, p)` into `WBUF`: both checks, and then the writes in the rule's order (41 R142, R143). -/
def encodePacket (id ins : Byte) (params : List Byte) (s : State) : Except Failure State :=
  let n := params.length
  if s.par.capW < n + 6 then .error (.bufferTooSmall (n + 6) s.par.capW .encode)
  else if 255 < n + 2 then .error (.lengthOverflow n)
  else
    let w := ((((s.wbuf.write 0 Config.hdr).write 1 Config.hdr).write 2 id).write 3 (lenByte n)).write 4 ins
    let w := w.writeBytes 5 params
    .ok { s with wbuf := w.write (n + 5) (checksum (w.readBytes 2 (n + 3))) }

/-- How many bytes of an unconsumed tail are garbage: those before the first `FF FF`, or before a trailing lone
`FF`, or all (42 R163). -/
def garbage : List Byte → Nat
  | [] => 0
  | [b] => if b = Config.hdr then 0 else 1
  | b0 :: b1 :: bs => if b0 = Config.hdr ∧ b1 = Config.hdr then 0 else 1 + garbage (b1 :: bs)

/-- The unconsumed tail `RBUF[USED..READ_LEN)`. -/
def State.tail (s : State) : List Byte := s.rbuf.readBytes s.used (s.readLen - s.used)

/-- `M = 4 + RBUF[3]` (42 R164). -/
def State.messageLength (s : State) : Nat := 4 + (s.rbuf.read 3).toNat

/-- One resync pass, `f` the new front (42 R163). -/
def resync (s : State) : State :=
  let f := s.used + garbage s.tail
  { s with
    skipped := s.skipped + garbage s.tail
    rbuf := s.rbuf.writeBytes 0 (s.rbuf.readBytes f (s.readLen - f))
    readLen := s.readLen - f
    used := 0
    phase := .check }

/-- Header availability, capacity and completion (42 R164, R165). -/
def check (s : State) : State :=
  if s.readLen < 4 then { s with phase := .read }
  else if s.par.capR < s.messageLength then s.raise (.bufferTooSmall s.messageLength s.par.capR .receive)
  else if s.messageLength ≤ s.readLen then { s with phase := .verify }
  else { s with phase := .read }

/-- Checksum verification. The message is consumed whether or not it verifies (42 R167). -/
def verify (s : State) : State :=
  let m := s.messageLength
  let claimed := s.rbuf.read (m - 1)
  let computed := checksum (s.rbuf.readBytes 2 (m - 3))
  let t := { s with used := s.used + m, phase := .idle }
  if claimed = computed then { t with view := some m } else t.raise (.invalidChecksum claimed computed)

/-- The free tail that a read is offered, `CAP_R - READ_LEN` (42 R166). -/
def State.room (s : State) : Nat := s.par.capR - s.readLen

/-- Issues `T.read(READ_LEN, n, DL)` (20 R77; 42 R166). -/
def issueRead (s : State) : State := s.callTransport (.read s.readLen s.room s.dl)

/-- Takes the transport's answer to the read in progress (20 R77; 42 R166). What an answer of too many bytes leaves
pending is log 28. -/
def takeRead (a : ReadAnswer) (s : State) : State :=
  match a with
  | .ok arrived limit =>
    let bytes := (s.pending ++ arrived).take limit
    let t := { s with pending := (s.pending ++ arrived).drop limit }
    if bytes.length ≤ s.room then
      { t with
        rbuf := s.rbuf.writeBytes s.readLen bytes
        readLen := s.readLen + bytes.length
        phase := .resync }
    else t.refuse (.transportContract bytes.length s.room)
  | .err e timedOut =>
    let t := s.callTransport (.isTimeoutError e)
    if timedOut then t.raise .timeout else t.raise (.readFailed e)

/-- The micro-steps from a `PHASE` of `RESYNC` up to the next transport read or the end of the collect: a resync
pass, the checks, and then the verification or the issue of a read (42 R160). -/
def turn (s : State) : State :=
  let t := check (resync s)
  match t.phase with
  | .verify => verify t
  | .read => issueRead t
  | _ => t

/-- The loop of a collect (42 R160, R162): while a read is in progress and the transport has answered it, take the
answer, and go on from the resync pass. With no answer left it waits (60 R315; log 10). -/
def awaitReads : List ReadAnswer → State → State
  | [], s => s
  | a :: as, s =>
    if s.phase = .read then
      let t := takeRead a { s with reads := as }
      if t.phase = .resync then awaitReads as (turn t) else t
    else s

/-- `collect_start(nexp)`: `SKIPPED`, then the deadline, which is a free value (42 R161; log 8). -/
def collectStart (nexp : Nat) (s : State) : State :=
  let d := deadlineDuration s.baud nexp
  { s.callTransport (.makeDeadline d) with
    skipped := 0
    dl := Config.makeDeadline d s.drawn
    drawn := s.drawn + 1
    phase := .resync }

end Sys2Proof.Machine
end

