-- ==== Sys2Proof/Machine/Operands.lean ====
section
/-! DEFINITION. The operand forms of the commands: the register value codec (spec 43 R204, R205), the check of
`MWRITE` entries (44 R247), and the expected response counts (45 R283). -/

namespace Sys2Proof.Machine

/-- How a codec operation fails: a failure of the block, or a refusal. -/
inductive CodecError where
  | failure (f : Failure)
  | refusal (r : RefusalInfo)
deriving DecidableEq, Repr

/-- `encode_R(v, dst_len)` (43 R204). `v` is the `u32`, or the pattern of the `f32` (log 31). -/
def encodeValue (r : RegDesc) (v : Word32) (dstLen : Nat) : Except CodecError (List Byte) :=
  if dstLen < r.width then .error (.failure (.bufferTooSmall r.width dstLen .registerEncode))
  else
    match r.kind with
    | .u32 => if 2 ^ (8 * r.width) ≤ v.toNat then .error (.refusal (.valueOutOfRange r.name v.toNat))
        else .ok (leBytes r.width v.toNat)
    | .f32 => .ok (leBytes 4 v.toNat)

/-- `decode_R(s)` (43 R205). -/
def decodeValue (r : RegDesc) (bytes : List Byte) : Except Failure Value :=
  if bytes.length ≠ r.width then .error (.invalidParameterCount r.width bytes.length)
  else
    match r.kind with
    | .u32 => .ok (.u32 (BitVec.ofNat 32 (fromLe bytes)))
    | .f32 => .ok (.f32 (BitVec.ofNat 32 (fromLe bytes)))

/-- The position, counted from `i`, of the first entry whose value is not 4 bytes. 44 R247 asks whether some entry is
not, and does not say which one of several is named: DESIGN CHOICE, unsafe (log 33). -/
def badEntryFrom : Nat → List Entry → Option Nat
  | _, [] => none
  | i, e :: es => if e.val.length ≠ 4 then some i else badEntryFrom (i + 1) es

/-- The entry that `BadEntry` names, if there is one (44 R247): the first, counted from 1 (log 33). -/
def badEntry (es : List Entry) : Option Nat := badEntryFrom 1 es

/-- The expected response parameter count of `PING` (45 R283). -/
def pingNexp : Nat := 4

/-- The expected response parameter count of `READ` (45 R283). -/
def readNexp (r : RegDesc) : Nat := r.width + 1

/-- The expected response parameter count of `WRITE`, `MWRITE` and `SAVE` (45 R283). -/
def ackNexp : Nat := 0

end Sys2Proof.Machine
end

