-- ==== Sys2Proof/Machine/Sequencer.lean ====
section
/-! DEFINITION. The bus command sequencer and the response decomposition (spec 44 R230 to R243). Each transport
call is issued, and then its answer taken if the transport has given it; if not, the command waits at that call. -/

namespace Sys2Proof.Machine

/-- The response data of a request of this kind (44 R238, R242, R243). -/
def responseData (k : Kind) (data : List Byte) : Except Failure RespData :=
  match k with
  | .ping => .ok (.raw data)
  | .ack => .ok .unit
  | .read r =>
    match decodeValue r data with
    | .ok v => .ok (.value v)
    | .error (.invalidParameterCount e a) => .error (.invalidMessage (.invalidParameterCount e a))
    | .error f => .error f

/-- `decompose(M, id, kind)`: ID, length, flags, data, in this order (44 R238 to R243; 92 D7). -/
def decompose (m : Nat) (id : Byte) (k : Kind) (s : State) : Except Failure Response :=
  if s.rbuf.read 2 ≠ id then .error (.invalidPacketId id (s.rbuf.read 2))
  else if (s.rbuf.read 3).toNat < 2 then .error (.invalidMessage (.shortPacket (s.rbuf.read 3).toNat))
  else
    match classify s.par (s.rbuf.read 4) with
    | .error f => .error f
    | .ok warning =>
      match responseData k (s.rbuf.readBytes 5 (m - 6)) with
      | .error f => .error f
      | .ok data => .ok { motorId := s.rbuf.read 2, warning := warning, data := data }

/-- The decomposition of a collected response, and the request's result (44 R232, R249). -/
def finishRequest (m : Nat) (id : Byte) (k : Kind) (s : State) : State :=
  match decompose m id k { s with seq := .decompose } with
  | .error f => s.raise f
  | .ok r => s.deliver (.response r s.skipped)

/-- After a collect that has verified a message: a request is decomposed, a `COLLECT` returns `(M, SKIPPED)`
(42 R168, R177; 44 R232). A collect that waits or has failed is left as it is. -/
def afterCollect (s : State) : State :=
  if s.seq = .collect ∧ s.phase = .idle then
    match s.view, s.exchange with
    | some m, some (.request id k _ _) => finishRequest m id k s
    | some m, some (.collect _) => s.deliver (.collected m s.skipped)
    | _, _ => s
  else s

/-- Goes on with the reads of a collect (42 R160). -/
def goOnReading (s : State) : State := afterCollect (awaitReads s.reads s)

/-- A collect from its start (44 R237; 42 R161). -/
def beginCollect (nexp : Nat) (s : State) : State := goOnReading (turn (collectStart nexp { s with seq := .collect }))

/-- The write step's answer (20 R76; 44 R236). -/
def takeWrite (nexp : Nat) (s : State) : State :=
  match s.writes with
  | [] => s
  | .ok :: ws => beginCollect nexp { s with writes := ws }
  | .err e :: ws => { s with writes := ws }.raise (.writeFailed e)

/-- The write step: one `T.write_all` of the whole encoded packet (20 R65; 44 R236). -/
def beginWrite (nexp k : Nat) (s : State) : State :=
  takeWrite nexp ({ s with seq := .write }.callTransport (.writeAll (s.wbuf.readBytes 0 k)))

/-- The pre-write reset's answer (20 R78; 44 R235). -/
def takeDiscard (nexp k : Nat) (s : State) : State :=
  match s.discards with
  | [] => s
  | .ok :: ds => beginWrite nexp k { s with discards := ds, pending := [] }
  | .err e left :: ds => { s with discards := ds, pending := left }.raise (.discardFailed e)

/-- The pre-write reset: the cursors first, and then `T.discard_input()` (44 R235; 92 D16). -/
def prewriteReset (nexp k : Nat) (s : State) : State :=
  takeDiscard nexp k ({ s with seq := .reset, readLen := 0, used := 0 }.callTransport .discardInput)

/-- `request` after its start (44 R232 to R237). -/
def requestBody (id ins : Byte) (params : List Byte) (nexp : Nat) (k : Kind) (s : State) : State :=
  match encodePacket id ins params { s with seq := .encode } with
  | .error f => s.raise f
  | .ok t => prewriteReset nexp (params.length + 6) { t with exchange := some (.request id k nexp (params.length + 6)) }

/-- `request(id, ins, p, nexp, kind)` (44 R232). -/
def request (id : Byte) (x : InsName) (params : List Byte) (nexp : Nat) (k : Kind) (s : State) : State :=
  s.command (fun t => requestBody id (t.par.opc.byteOf x) params nexp k t)

/-- `READ id, R` (44 R245). -/
def readCommand (ref : RegRef) (id : Byte) (s : State) : State :=
  s.command fun t =>
    match t.par.lookup ref with
    | none => t.refuse (.unknownRegister ref)
    | some r => requestBody id (t.par.opc.byteOf r.readOp) [r.addr] (readNexp r) (.read r) t

/-- The part of `WRITE` after its register is found to be writable: the value codec, and then the request (44 R246). -/
def writeValue (r : RegDesc) (op : InsName) (id : Byte) (v : Word32) (s : State) : State :=
  match encodeValue r v r.width with
  | .error (.refusal e) => s.refuse e
  | .error (.failure f) => s.raise f
  | .ok val => requestBody id (s.par.opc.byteOf op) (r.addr :: val) ackNexp .ack s

/-- `WRITE id, R, v` (44 R246). A register with no write instruction is not writable (log 26). -/
def writeCommand (ref : RegRef) (id : Byte) (v : Word32) (s : State) : State :=
  s.command fun t =>
    match t.par.lookup ref with
    | none => t.refuse (.unknownRegister ref)
    | some r =>
      match r.access, r.writeOp with
      | .rw, some op => writeValue r op id v t
      | _, _ => t.refuse (.notWritable r.name)

/-- `MWRITE id, cls, entries` (44 R247). -/
def mwriteCommand (cls : RegClass) (id : Byte) (es : List Entry) (s : State) : State :=
  s.command fun t =>
    match badEntry es with
    | some i => t.refuse (.badEntry i)
    | none => requestBody id (t.par.opc.byteOf cls.writeOp) (entriesBytes es) ackNexp .ack t

/-- `COLLECT nexp` (42 R177): a collect with no reset and no write before it. `STEP` is `COLLECT` meanwhile
(log 20). -/
def collectCommand (nexp : Nat) (s : State) : State :=
  s.command fun t => beginCollect nexp { t with exchange := some (.collect nexp) }

/-- Goes on with the command in progress at the transport call it waits for, as far as the transport has answered.
With no answer, or no command in progress, nothing changes (60 R315). -/
def resume (s : State) : State :=
  match s.seq, s.exchange with
  | .reset, some (.request _ _ nexp k) => takeDiscard nexp k s
  | .write, some (.request _ _ nexp _) => takeWrite nexp s
  | .collect, some _ => goOnReading s
  | _, _ => s

/-- Bytes reach the block's receiver. They join the transport's pending input (10 R45; 60 R309); if a `T.read` is in
progress, the transport answers it with as many pending bytes as it offered room for (20 R77; log 19). -/
def receive (bytes : List Byte) (s : State) : State :=
  let t := { s with pending := s.pending ++ bytes }
  if s.seq = .collect ∧ s.phase = .read then resume { t with reads := .ok [] s.room :: s.reads } else t

end Sys2Proof.Machine
end

