-- ==== Sys2Proof/Machine/HostCommands.lean ====
section
/-! DEFINITION. The meanings of the host commands that make no exchange of their own: `ENCODE` (spec 41 R145),
`COLLECT` (42 R177), `CHECKSUM` (40 R131), `TTIME` (45 R281) and `SETBAUD` (44 R250). -/

namespace Sys2Proof.Machine

/-- `ENCODE id, ins, params` after its start: the encoder alone, and the bytes it wrote (41 R145). -/
def encodeBody (id ins : Byte) (params : List Byte) (s : State) : State :=
  match encodePacket id ins params s with
  | .error f => s.raise f
  | .ok t => t.deliver (.encoded (params.length + 6) (t.wbuf.readBytes 0 (params.length + 6)))

/-- `ENCODE id, ins, params` (41 R145). Any instruction byte (92 D31). -/
def execEncodeRaw (id ins : Byte) (params : List Byte) (s : State) : Host.Outcome State Fault Refusal :=
  .next (s.command (encodeBody id ins params))

/-- `COLLECT nexp` (42 R177). -/
def execCollect (nexp : Nat) (s : State) : Host.Outcome State Fault Refusal := .next (collectCommand nexp s)

/-- `CHECKSUM d` (40 R131). -/
def execChecksum (d : List Byte) (s : State) : Host.Outcome State Fault Refusal :=
  .next (s.command fun t => t.deliver (.byte (Sys2Proof.checksum d)))

/-- `TTIME size` (45 R281). -/
def execTtime (size : Nat) (s : State) : Host.Outcome State Fault Refusal :=
  .next (s.command fun t => t.deliver (.micros (transferTime t.baud size)))

/-- `SETBAUD b` after its start (44 R250). -/
def setBaudBody (b : Word32) (s : State) : State :=
  if b = 0 then s.refuse .zeroBaud else { s.callTransport (.setBaudRate b) with baud := b }.deliver .done

/-- `SETBAUD b` (44 R250). -/
def execSetBaud (b : Word32) (s : State) : Host.Outcome State Fault Refusal := .next (s.command (setBaudBody b))

end Sys2Proof.Machine
end

