-- ==== Sys2Proof/Machine/InstructionBytes.lean ====
section
/-! DEFINITION. The meanings of the instruction-byte rows `INS.x` and of `DECODEINS` (spec 43 R210, R212; 30 R99).

An instruction byte that reaches the block by itself meets the instruction decoder, the one unit of the block that
reads an instruction byte (log 18). -/

namespace Sys2Proof.Machine

/-- The instruction decoder's run on a byte: `VIEW <- None; return decode_ins(b)` (43 R212). -/
def decodeByte (b : Byte) (s : State) : State :=
  s.command fun t => t.deliver (.instruction (t.par.opc.decodeIns b))

/-- The instruction decoder's run on the byte of a name (43 R210, R211). -/
def decodeName (x : InsName) (s : State) : State := decodeByte (s.par.opc.byteOf x) s

/-- `INS.Ping` (43 R210). -/
def execInsPing (s : State) : Host.Outcome State Fault Refusal := .next (decodeName .ping s)

/-- `INS.ReadStatus` (43 R210). -/
def execInsReadStatus (s : State) : Host.Outcome State Fault Refusal := .next (decodeName .readStatus s)

/-- `INS.WriteStatus` (43 R210). -/
def execInsWriteStatus (s : State) : Host.Outcome State Fault Refusal := .next (decodeName .writeStatus s)

/-- `INS.ReadConfig` (43 R210). -/
def execInsReadConfig (s : State) : Host.Outcome State Fault Refusal := .next (decodeName .readConfig s)

/-- `INS.WriteConfig` (43 R210). -/
def execInsWriteConfig (s : State) : Host.Outcome State Fault Refusal := .next (decodeName .writeConfig s)

/-- `INS.SaveConfig` (43 R210). -/
def execInsSaveConfig (s : State) : Host.Outcome State Fault Refusal := .next (decodeName .saveConfig s)

/-- `INS.BulkComm`: "opcode reserved, not implemented"; the decoder names it (30 R99; 43 R210; 93 U5). -/
def execInsBulkComm (s : State) : Host.Outcome State Fault Refusal := .next (decodeName .bulkComm s)

/-- `DECODEINS b` (43 R212). -/
def execDecodeIns (b : Byte) (s : State) : Host.Outcome State Fault Refusal := .next (decodeByte b s)

end Sys2Proof.Machine
end

