-- ==== Sys2Proof/Machine/Requests.lean ====
section
/-! DEFINITION. The meanings of the request commands (spec 44 R244 to R248) and of a received packet (30 R92). -/

namespace Sys2Proof.Machine

/-- `PING id` (44 R244). -/
def execPing (id : Byte) (s : State) : Host.Outcome State Fault Refusal := .next (request id .ping [] pingNexp .ping s)

/-- `READ id, R` with `R.class = Status` (44 R245). -/
def execReadStatus (id addr : Byte) (s : State) : Host.Outcome State Fault Refusal :=
  .next (readCommand (.located .status addr) id s)

/-- `READ id, R` with `R.class = Config` (44 R245). -/
def execReadConfig (id addr : Byte) (s : State) : Host.Outcome State Fault Refusal :=
  .next (readCommand (.located .config addr) id s)

/-- `WRITE id, R, v` with `R.class = Status`, `R.width = 1` (44 R246). -/
def execWriteStatus1 (id addr : Byte) (v : BitVec 8) (s : State) : Host.Outcome State Fault Refusal :=
  .next (writeCommand (.located .status addr) id (v.setWidth 32) s)

/-- `WRITE id, R, v` with `R.class = Status`, `R.width = 2` (44 R246). -/
def execWriteStatus2 (id addr : Byte) (v : BitVec 16) (s : State) : Host.Outcome State Fault Refusal :=
  .next (writeCommand (.located .status addr) id (v.setWidth 32) s)

/-- `WRITE id, R, v` with `R.class = Status`, `R.width = 4` (44 R246). -/
def execWriteStatus4 (id addr : Byte) (v : BitVec 32) (s : State) : Host.Outcome State Fault Refusal :=
  .next (writeCommand (.located .status addr) id v s)

/-- `WRITE id, R, v` with `R.class = Config`, `R.width = 1` (44 R246). -/
def execWriteConfig1 (id addr : Byte) (v : BitVec 8) (s : State) : Host.Outcome State Fault Refusal :=
  .next (writeCommand (.located .config addr) id (v.setWidth 32) s)

/-- `WRITE id, R, v` with `R.class = Config`, `R.width = 2` (44 R246). -/
def execWriteConfig2 (id addr : Byte) (v : BitVec 16) (s : State) : Host.Outcome State Fault Refusal :=
  .next (writeCommand (.located .config addr) id (v.setWidth 32) s)

/-- `WRITE id, R, v` with `R.class = Config`, `R.width = 4` (44 R246). -/
def execWriteConfig4 (id addr : Byte) (v : BitVec 32) (s : State) : Host.Outcome State Fault Refusal :=
  .next (writeCommand (.located .config addr) id v s)

/-- `MWRITE id, Config, entries` (44 R247). -/
def execMwriteConfig (id : Byte) (es : List Entry) (s : State) : Host.Outcome State Fault Refusal :=
  .next (mwriteCommand .config id es s)

/-- `MWRITE id, Status, entries` (44 R247). -/
def execMwriteStatus (id : Byte) (es : List Entry) (s : State) : Host.Outcome State Fault Refusal :=
  .next (mwriteCommand .status id es s)

/-- `SAVE id` (44 R248). -/
def execSave (id : Byte) (s : State) : Host.Outcome State Fault Refusal :=
  .next (request id .saveConfig [] ackNexp .ack s)

/-- A packet received from the line (30 R92; 10 R45; 60 R309; log 19). It is no command: nothing starts, and the view
and the command in progress stay. -/
def execResponse (id : Byte) (body : List Byte) (s : State) : Host.Outcome State Fault Refusal :=
  .next (receive (responsePacket id body) s)

/-- The pseudo-instruction `read_<r>(id)`, which expands to `READ id, r` (30 R119). -/
def execReadReg (r : RegName) (id : Byte) (s : State) : Host.Outcome State Fault Refusal :=
  .next (readCommand (.named r) id s)

/-- The pseudo-instruction `write_<r>(id, v)`, which expands to `WRITE id, r, v` (30 R119). -/
def execWriteReg (r : RegName) (id : Byte) (v : Word32) (s : State) : Host.Outcome State Fault Refusal :=
  .next (writeCommand (.named r) id v s)

end Sys2Proof.Machine
end

