-- ==== Sys2Proof/Machine/Dispatch.lean ====
section
/-! DEFINITION. One arm per instruction. -/

namespace Sys2Proof.Machine

def exec (i : Instr) (s : State) : Host.Outcome State Fault Refusal :=
  match i with
  | .insPing => Sys2Proof.Machine.execInsPing s
  | .insReadStatus => Sys2Proof.Machine.execInsReadStatus s
  | .insWriteStatus => Sys2Proof.Machine.execInsWriteStatus s
  | .insReadConfig => Sys2Proof.Machine.execInsReadConfig s
  | .insWriteConfig => Sys2Proof.Machine.execInsWriteConfig s
  | .insSaveConfig => Sys2Proof.Machine.execInsSaveConfig s
  | .insBulkComm => Sys2Proof.Machine.execInsBulkComm s
  | .ping id => Sys2Proof.Machine.execPing id s
  | .readStatus id addr => Sys2Proof.Machine.execReadStatus id addr s
  | .readConfig id addr => Sys2Proof.Machine.execReadConfig id addr s
  | .writeStatus1 id addr v => Sys2Proof.Machine.execWriteStatus1 id addr v s
  | .writeStatus2 id addr v => Sys2Proof.Machine.execWriteStatus2 id addr v s
  | .writeStatus4 id addr v => Sys2Proof.Machine.execWriteStatus4 id addr v s
  | .writeConfig1 id addr v => Sys2Proof.Machine.execWriteConfig1 id addr v s
  | .writeConfig2 id addr v => Sys2Proof.Machine.execWriteConfig2 id addr v s
  | .writeConfig4 id addr v => Sys2Proof.Machine.execWriteConfig4 id addr v s
  | .mwriteConfig id entries => Sys2Proof.Machine.execMwriteConfig id entries s
  | .mwriteStatus id entries => Sys2Proof.Machine.execMwriteStatus id entries s
  | .save id => Sys2Proof.Machine.execSave id s
  | .encodeRaw id ins params => Sys2Proof.Machine.execEncodeRaw id ins params s
  | .response id body => Sys2Proof.Machine.execResponse id body s
  | .collect nexp => Sys2Proof.Machine.execCollect nexp s
  | .checksum d => Sys2Proof.Machine.execChecksum d s
  | .ttime size => Sys2Proof.Machine.execTtime size s
  | .setBaud b => Sys2Proof.Machine.execSetBaud b s
  | .decodeIns b => Sys2Proof.Machine.execDecodeIns b s
  | .readReg r id => Sys2Proof.Machine.execReadReg r id s
  | .writeReg r id v => Sys2Proof.Machine.execWriteReg r id v s

end Sys2Proof.Machine
end

