-- ==== Sys2Proof/Machine/Fetch.lean ====
section
/-! DEFINITION. The host's port: how a step serves a request of the host (log 13). The block fetches no instructions
from memory (spec 20 R84): commands come from the host. -/

namespace Sys2Proof.Machine

/-- Serves a request: a command word is decoded under the block's parameters and run, a view read is answered. -/
def serve (r : HostRequest) (s : State) : Host.Outcome State Fault Refusal :=
  match r with
  | .issue w =>
    match decode s.par w with
    | .ok i => exec i s
    | .error e => .refused (.noSuchCommand e)
  | .readView a n => s.readView a n

/-- One step: the host's next request, if there is one, and otherwise the command in progress goes on as far as the
transport has answered. -/
def advance (s : State) : Host.Outcome State Fault Refusal :=
  match s.inbox with
  | r :: rest => serve r { s with inbox := rest }
  | [] => .next (resume s)

end Sys2Proof.Machine
end

