-- ==== Sys2Proof/Safety.lean ====
section
/-! DEFINITION. What holds in every state between steps, and what counts as a safe run. -/

namespace Sys2Proof.Machine

/-- The buffers are in canonical form, lie inside their capacities (spec 00 R12), and `WBUF` keeps its prefix
(10 R31). -/
abbrev State.BuffersOk (s : State) : Prop :=
  s.wbuf.wf = true ∧ s.rbuf.wf = true ∧ s.wbuf.within s.par.capW = true ∧ s.rbuf.within s.par.capR = true ∧
    s.wbuf.read 0 = Config.hdr ∧ s.wbuf.read 1 = Config.hdr

/-- `USED <= READ_LEN <= CAP_R` (10 R35). -/
abbrev State.CursorsOk (s : State) : Prop := s.used ≤ s.readLen ∧ s.readLen ≤ s.par.capR

/-- A live view is the message at the front of `RBUF`, still marked used (10 R42; 42 R167, R168). -/
def State.viewOk (s : State) : Bool :=
  match s.view with
  | none => true
  | some m => decide (4 ≤ m) && decide (m ≤ s.par.capR) && m == s.messageLength && m == s.used

/-- After a resync pass, what is buffered begins with the prefix, or is a part of it (42 R164). -/
def State.frontOk (s : State) : Bool :=
  (decide (s.readLen < 1) || s.rbuf.read 0 == Config.hdr) && (decide (s.readLen < 2) || s.rbuf.read 1 == Config.hdr)

/-- The state of a collect that waits for `T.read`: more bytes are needed and there is room for them (42 R164,
R174). -/
def State.readingOk (s : State) : Bool :=
  s.used == 0 && s.view == none && s.frontOk && decide (s.readLen < s.par.capR) &&
    (decide (s.readLen < 4) || (decide (s.readLen < s.messageLength) && decide (s.messageLength ≤ s.par.capR)))

/-- The state of a request that waits for `T.discard_input` or `T.write_all` (44 R235, R236). -/
def State.sendingOk (s : State) (k : Nat) : Bool :=
  s.phase == .idle && s.view == none && s.used == 0 && s.readLen == 0 && decide (6 ≤ k) && decide (k ≤ s.par.capW)

/-- Between steps the block is idle, or waits at a transport call (10 R40; 60 R315). -/
def State.controlOk (s : State) : Bool :=
  match s.seq, s.exchange with
  | .idle, none => s.phase == .idle
  | .reset, some (.request _ _ _ k) => s.sendingOk k
  | .write, some (.request _ _ _ k) => s.sendingOk k
  | .collect, some _ => s.phase == .read && s.readingOk
  | _, _ => false

/-- The invariant of the machine: it holds at reset and every step keeps it. -/
abbrev State.Inv (s : State) : Prop :=
  s.par.ok ∧ s.BuffersOk ∧ s.CursorsOk ∧ s.baud ≠ 0 ∧ s.viewOk = true ∧ s.controlOk = true

/-- The block is between commands. -/
abbrev State.Idle (s : State) : Prop := s.seq = .idle

/-- "no refusal recorded" (60 R305): the premise of a safe run. -/
abbrev State.Safe (s : State) : Prop := s.refusal = false

end Sys2Proof.Machine
end

