-- ==== Sys2Proof/Certificates/Slice0/Obligations.lean ====
section
/-! DEFINITION. The statements for the provers, and the words they are stated in. -/

open Sys2Proof Sys2Proof.Machine

namespace Sys2Proof.Claims

/-- A whole packet whose last byte is the checksum of bytes 2 to M-2 (spec 40 R132). -/
abbrev Verifies (packet : List Byte) : Prop :=
  4 ≤ packet.length ∧ packet.getLast? = some (BitVec.ofNat 8 (255 - sumBytes (packet.drop 2).dropLast % 256))

/-- The data of a verified response of a request of this kind (44 R238, R242, R243). -/
def dataResult (k : Kind) (id : Byte) (warning : Option Byte) (data : List Byte) (skipped : Nat) : Result :=
  match k with
  | .ping => .response { motorId := id, warning := warning, data := .raw data } skipped
  | .ack => .response { motorId := id, warning := warning, data := .unit } skipped
  | .read r =>
    if data.length = r.width then
      .response
        { motorId := id
          warning := warning
          data := .value (match r.kind with
            | .u32 => .u32 (BitVec.ofNat 32 (fromLe data))
            | .f32 => .f32 (BitVec.ofNat 32 (fromLe data))) } skipped
    else .failed (.invalidMessage (.invalidParameterCount r.width data.length)) skipped

/-- The result of a request that wants motor `want`, when a verified packet `FF FF id LEN body` is its reply and
`skipped` bytes of garbage came before it: ID, length, flags, data, in this order (44 R238 to R243). -/
def replyResult (p : Params) (want : Byte) (k : Kind) (id : Byte) (body : List Byte) (skipped : Nat) : Result :=
  if id ≠ want then .failed (.invalidPacketId want id) skipped
  else
    match body with
    | f :: d :: rest =>
      if f &&& p.errorMask ≠ 0 then .failed (.motorError f) skipped
      else
        dataResult k id (if f &&& warningMask p ≠ 0 then some (f &&& warningMask p) else none) (d :: rest).dropLast skipped
    | _ => .failed (.invalidMessage (.shortPacket body.length)) skipped

/-- The block is idle, its buffers are in canonical form, and the transport has answered: the discard and the write
with `Ok`, and the first read with the whole of `reply`, which `RBUF` can hold. -/
abbrev Ready (s : State) (reply : List Byte) (limit : Nat) (ds : List DiscardAnswer) (ws : List WriteAnswer)
    (rs : List ReadAnswer) : Prop :=
  s.seq = .idle ∧ s.wbuf.wf = true ∧ s.rbuf.wf = true ∧ s.discards = .ok :: ds ∧ s.writes = .ok :: ws ∧
    s.reads = .ok reply limit :: rs ∧ reply.length ≤ limit ∧ reply.length ≤ s.par.capR

/-- The state after a whole exchange: the packet `sent` is in `WBUF` and went out in one call, the reply is in `RBUF`,
consumed and in view, and nothing else has changed. -/
def ExchangeEnds (s t : State) (sent : List Byte) (nexp : Nat) (reply : List Byte) (r : Result)
    (ds : List DiscardAnswer) (ws : List WriteAnswer) (rs : List ReadAnswer) : Prop :=
  t =
    { s with
      wbuf := t.wbuf
      rbuf := t.rbuf
      readLen := reply.length
      used := reply.length
      skipped := 0
      dl := Config.makeDeadline (deadlineDuration s.baud nexp) s.drawn
      drawn := s.drawn + 1
      phase := .idle
      view := some reply.length
      exchange := none
      result := some r
      pending := []
      discards := ds
      writes := ws
      reads := rs
      calls := s.calls ++ [.discardInput, .writeAll sent, .makeDeadline (deadlineDuration s.baud nexp),
        .read 0 s.par.capR (Config.makeDeadline (deadlineDuration s.baud nexp) s.drawn)] } ∧
    (∀ a, t.wbuf.read a = if a < sent.length then sent.getD a 0 else s.wbuf.read a) ∧
    (∀ a, t.rbuf.read a = if a < reply.length then reply.getD a 0 else s.rbuf.read a)

/-- The instruction runs the whole exchange. -/
def Exchanges (i : Instr) (s : State) (sent : List Byte) (nexp : Nat) (reply : List Byte) (r : Result)
    (ds : List DiscardAnswer) (ws : List WriteAnswer) (rs : List ReadAnswer) : Prop :=
  ∃ t, exec i s = .next t ∧ ExchangeEnds s t sent nexp reply r ds ws rs

/-- The state after a command that only gives a result: the view ends, and nothing else changes. -/
def answered (s : State) (r : Result) : State :=
  { s with view := none, phase := .idle, exchange := none, result := some r }

/-- The state after a command that is refused before it does anything: the view ends, the flag is set. -/
def turnedAway (s : State) (r : RefusalInfo) : State := { answered s (.refused r) with refusal := true }

/-- The packet of a request (30 R91, R120). -/
def packetOf (id ins : Byte) (params : List Byte) : List Byte :=
  [0xFF, 0xFF, id, BitVec.ofNat 8 (params.length + 2), ins] ++ params ++
    [BitVec.ofNat 8 (255 - sumBytes ([id, BitVec.ofNat 8 (params.length + 2), ins] ++ params) % 256)]

/-- A register that `WRITE` may write, with the value `v` in its range, and its write instruction (43 R201, R204). -/
abbrev Writable (r : RegDesc) (op : InsName) (v : Word32) : Prop :=
  r.access = .rw ∧ r.writeOp = some op ∧ (r.width = 1 ∨ r.width = 2 ∨ r.width = 4) ∧
    (r.kind = .f32 → r.width = 4) ∧ (r.kind = .u32 → v.toNat < 2 ^ (8 * r.width))

/-- A `READ` of the register that `ref` finds sends this instruction byte and these parameters (30 R96). -/
abbrev SendsRead (p : Params) (ref : RegRef) (ins : Byte) (params : List Byte) : Prop :=
  ∃ r, p.lookup ref = some r ∧ ins = p.opc.byteOf r.readOp ∧ params = [r.addr]

/-- A `WRITE` of a value in range to the register that `ref` finds sends these (30 R96; 43 R204). -/
abbrev SendsWrite (p : Params) (ref : RegRef) (v : Word32) (ins : Byte) (params : List Byte) : Prop :=
  ∃ r op, p.lookup ref = some r ∧ Writable r op v ∧ ins = p.opc.byteOf op ∧ params = r.addr :: leBytes r.width v.toNat

/-- An `MWRITE` of entries of 4 value bytes sends these parameters (30 R96). -/
abbrev SendsEntries (es : List Entry) (params : List Byte) : Prop :=
  (∀ e ∈ es, e.val.length = 4) ∧ params = es.flatMap fun e => e.addr :: e.val

/-- The request command passes its operand checks and encodes a packet for motor `id` with this instruction byte and
these parameters (30 R96). No other instruction sends. -/
def Sends (p : Params) (id ins : Byte) (params : List Byte) : Instr → Prop
  | .ping j => id = j ∧ ins = p.opc.ping ∧ params = []
  | .save j => id = j ∧ ins = p.opc.saveConfig ∧ params = []
  | .readStatus j a => id = j ∧ SendsRead p (.located .status a) ins params
  | .readConfig j a => id = j ∧ SendsRead p (.located .config a) ins params
  | .readReg name j => id = j ∧ SendsRead p (.named name) ins params
  | .writeStatus1 j a v => id = j ∧ SendsWrite p (.located .status a) (v.setWidth 32) ins params
  | .writeStatus2 j a v => id = j ∧ SendsWrite p (.located .status a) (v.setWidth 32) ins params
  | .writeStatus4 j a v => id = j ∧ SendsWrite p (.located .status a) v ins params
  | .writeConfig1 j a v => id = j ∧ SendsWrite p (.located .config a) (v.setWidth 32) ins params
  | .writeConfig2 j a v => id = j ∧ SendsWrite p (.located .config a) (v.setWidth 32) ins params
  | .writeConfig4 j a v => id = j ∧ SendsWrite p (.located .config a) v ins params
  | .writeReg name j v => id = j ∧ SendsWrite p (.named name) v ins params
  | .mwriteConfig j es => id = j ∧ ins = p.opc.writeConfig ∧ SendsEntries es params
  | .mwriteStatus j es => id = j ∧ ins = p.opc.writeStatus ∧ SendsEntries es params
  | .insPing | .insReadStatus | .insWriteStatus | .insReadConfig | .insWriteConfig | .insSaveConfig
  | .insBulkComm => False
  | .encodeRaw _ _ _ | .response _ _ | .collect _ | .checksum _ | .ttime _ | .setBaud _ | .decodeIns _ => False

/-- How the request command's reply is decomposed, and for how many response parameters its deadline is made (44 R244 to
R248; 45 R283). -/
def Expects (p : Params) (nexp : Nat) (k : Kind) : Instr → Prop
  | .ping _ => nexp = 4 ∧ k = .ping
  | .readStatus _ a => ∃ r, p.lookup (.located .status a) = some r ∧ nexp = r.width + 1 ∧ k = .read r
  | .readConfig _ a => ∃ r, p.lookup (.located .config a) = some r ∧ nexp = r.width + 1 ∧ k = .read r
  | .readReg name _ => ∃ r, p.lookup (.named name) = some r ∧ nexp = r.width + 1 ∧ k = .read r
  | .save _ | .mwriteConfig _ _ | .mwriteStatus _ _ | .writeReg _ _ _ | .writeStatus1 _ _ _ | .writeStatus2 _ _ _
  | .writeStatus4 _ _ _ | .writeConfig1 _ _ _ | .writeConfig2 _ _ _ | .writeConfig4 _ _ _ => nexp = 0 ∧ k = .ack
  | .insPing | .insReadStatus | .insWriteStatus | .insReadConfig | .insWriteConfig | .insSaveConfig
  | .insBulkComm => False
  | .encodeRaw _ _ _ | .response _ _ | .collect _ | .checksum _ | .ttime _ | .setBaud _ | .decodeIns _ => False

/-- What a request comes to when a `COLLECT` in its place comes to `u`: if that waits, the request waits at the same
call; if it took a message, the request decomposes it; if it failed or was refused, so did the request (44 R237,
R238). -/
def inPlaceOfCollect (want : Byte) (k : Kind) (nexp len : Nat) (u : State) : State :=
  match u.exchange, u.result with
  | some _, _ => { u with exchange := some (.request want k nexp len) }
  | none, some (.collected m skipped) =>
    { u with result := some (replyResult u.par want k (u.rbuf.read 2) (u.rbuf.readBytes 4 (m - 4)) skipped) }
  | none, _ => u

/-- The state in which the transport has given further answers, after those it had given (log 11). -/
def moreAnswers (s : State) (ds : List DiscardAnswer) (ws : List WriteAnswer) (rs : List ReadAnswer) : State :=
  { s with discards := s.discards ++ ds, writes := s.writes ++ ws, reads := s.reads ++ rs }

/-- The descriptor is the only one of the table that answers to the reference. -/
abbrev OnlyMatch (p : Params) (ref : RegRef) (r : RegDesc) : Prop :=
  r ∈ p.regs ∧ (match ref with
    | .named name => r.name = name ∧ ∀ d ∈ p.regs, d.name = name → d = r
    | .located cls a => (r.cls = cls ∧ r.addr = a) ∧ ∀ d ∈ p.regs, d.cls = cls → d.addr = a → d = r)

/-- The bytes that reads with these answers return in turn, from this pending input (20 R77; log 11). -/
def received : List Byte → List ReadAnswer → List Byte
  | _, [] => []
  | pending, .ok arrived limit :: as =>
    (pending ++ arrived).take limit ++ received ((pending ++ arrived).drop limit) as
  | pending, .err _ _ :: as => received pending as

/-- The two states agree but for bytes of `RBUF` at or above `READ_LEN` (10 R36). -/
def SameButStale (s t : State) : Prop := t = { s with rbuf := t.rbuf } ∧ ∀ a < s.readLen, t.rbuf.read a = s.rbuf.read a

/-- Is the call a `T.write_all`? -/
def isWriteAll : Call → Bool
  | .writeAll _ => true
  | _ => false

/-- Is the instruction one whose packet the encoder builds: a request, or `ENCODE`? -/
def buildsPacket : Instr → Bool
  | .insPing | .insReadStatus | .insWriteStatus | .insReadConfig | .insWriteConfig | .insSaveConfig
  | .insBulkComm => false
  | .response _ _ | .collect _ | .checksum _ | .ttime _ | .setBaud _ | .decodeIns _ => false
  | .ping _ | .readStatus _ _ | .readConfig _ _ | .writeStatus1 _ _ _ | .writeStatus2 _ _ _ | .writeStatus4 _ _ _
  | .writeConfig1 _ _ _ | .writeConfig2 _ _ _ | .writeConfig4 _ _ _ | .mwriteConfig _ _ | .mwriteStatus _ _
  | .save _ | .encodeRaw _ _ _ | .readReg _ _ | .writeReg _ _ _ => true

end Sys2Proof.Claims

open Sys2Proof.Claims

/-! ## Encoding -/

/-- Decoding the command word of a well-formed instruction gives it back, with every operand at every value. The
command words are the model's (log 14), their packets the spec's (30 R91, R92, R120). -/
def Obligations.DecodeUndoesEncode : Prop :=
  ∀ (p : Params) (i : Instr), p.opc.distinct → i.wellFormed p = true → decode p (encode p i) = .ok i

/-- 43 R210, R211: each name has its byte of `OPC`; the instruction decoder inverts this, and names every other byte
`Unknown`. -/
def Obligations.InstructionDecoderInvertsEncoder : Prop :=
  ∀ o : Opc, o.distinct →
    (o.byteOf .ping = o.ping ∧ o.byteOf .readStatus = o.readStatus ∧ o.byteOf .writeStatus = o.writeStatus ∧
      o.byteOf .readConfig = o.readConfig ∧ o.byteOf .writeConfig = o.writeConfig ∧
      o.byteOf .saveConfig = o.saveConfig ∧ o.byteOf .bulkComm = o.bulkComm) ∧
    (∀ x, o.decodeIns (o.byteOf x) = .known x) ∧
    (∀ b x, o.decodeIns b = .known x → o.byteOf x = b) ∧
    (∀ b, (∀ x, o.byteOf x ≠ b) → o.decodeIns b = .unknown b)

/-- Words written out from 30 R120 and the table decode to their instructions. That the mnemonic selects a packet's row
is the model's choice (log 14). -/
def Obligations.KnownWordsDecode : Prop :=
  decode Params.atReset { form := .packet .ping, bytes := [0xFF, 0xFF, 0x01, 0x02, 0x01, 0xFB] } = .ok (.ping 0x01) ∧
  decode Params.atReset { form := .packet .read, bytes := [0xFF, 0xFF, 0x01, 0x03, 0x04, 0x0D, 0xEA] } =
    .ok (.readConfig 0x01 0x0D) ∧
  decode Params.atReset
    { form := .packet .write, bytes := [0xFF, 0xFF, 0x01, 0x07, 0x05, 0x0D, 0x00, 0x00, 0xA0, 0x40, 0x05] } =
    .ok (.writeConfig4 0x01 0x0D 0x40A00000) ∧
  decode Params.atReset
    { form := .packet .mwrite, bytes := [0xFF, 0xFF, 0x02, 0x07, 0x03, 0x30, 0x01, 0x02, 0x03, 0x04, 0xB9] } =
    .ok (.mwriteStatus 0x02 [{ addr := 0x30, val := [0x01, 0x02, 0x03, 0x04] }]) ∧
  decode Params.atReset { form := .packet .save, bytes := [0xFF, 0xFF, 0x01, 0x02, 0x06, 0xF6] } = .ok (.save 0x01) ∧
  decode Params.atReset { form := .insByte, bytes := [0x12] } = .ok .insBulkComm

/-! ## The step -/

/-- A step serves the host's next request: it runs the decoded instruction with the request taken from the inbox. The
inbox and the command words are the model's (log 13, log 14). A request to read the view is answered by `State.readView`
(log 25; `ViewReads`). That a word which encodes none stops as `noSuchCommand` is
the model's own stop (log 30), and that a word placed by `withFetchWord` is the next to run is log 29. -/
def Obligations.StepRunsDecodedInstruction : Prop :=
  (∀ (s : State) (w : CommandWord) (rest : List HostRequest) (i : Instr),
    s.inbox = .issue w :: rest → decode s.par w = .ok i → step s = exec i { s with inbox := rest }) ∧
  (∀ (s : State) (w : CommandWord) (rest : List HostRequest) (e : DecodeError),
    s.inbox = .issue w :: rest → decode s.par w = .error e → step s = .refused (.noSuchCommand e)) ∧
  (∀ (s : State) (a n : Nat) (rest : List HostRequest),
    s.inbox = .readView a n :: rest → step s = { s with inbox := rest }.readView a n) ∧
  (∀ (s : State) (nbits w : Nat) (i : Instr),
    decode s.par (tableWord s.par.opc nbits w) = .ok i → step (s.withFetchWord nbits w) = exec i s)

/-- 60 R315: between commands, and while a command waits for the transport, a step in which the host asks for
nothing changes nothing. That a wait is a state between steps is the model's (log 10). -/
def Obligations.WaitingChangesNothing : Prop :=
  ∀ s : State, s.inbox = [] →
    (s.seq = .idle ∨ (s.seq = .reset ∧ s.discards = []) ∨ (s.seq = .write ∧ s.writes = []) ∨
      (s.seq = .collect ∧ s.phase = .read ∧ s.reads = [])) →
    step s = .next s

/-- 20 R74, 00 R6: the transport's answers may come in instalments. A command that is started, or a state in which one
goes on, comes with some answers and then more, after a step of waiting or none, to what it comes to with all of them at
once. So a request that waits at any call, after any answers were used, ends as if it had never waited. How a wait is
held is the model's (log 10, log 11). -/
def Obligations.YieldingChangesNothing : Prop :=
  (∀ (s u : State) (i : Instr) (ds : List DiscardAnswer) (ws : List WriteAnswer) (rs : List ReadAnswer),
    s.inbox = [] → (∀ id body, i ≠ .response id body) → exec i s = .next u →
    step (moreAnswers u ds ws rs) = exec i (moreAnswers s ds ws rs)) ∧
  (∀ (s u : State) (ds : List DiscardAnswer) (ws : List WriteAnswer) (rs : List ReadAnswer),
    s.inbox = [] → step s = .next u → step (moreAnswers u ds ws rs) = step (moreAnswers s ds ws rs))

/-- 20 R86, 44 R231: a command issued while another is in progress is refused. Every instruction but a received
packet is a command (log 19). The refusal ends the command in progress (60 R305; log 22). -/
def Obligations.ConcurrentCommandRefused : Prop :=
  ∀ (s : State) (i : Instr), s.seq ≠ .idle → (∀ id body, i ≠ .response id body) →
    exec i s = .next { s with seq := .idle, phase := .idle, exchange := none, refusal := true,
                              result := some (.refused .concurrentCommand) }

/-! ## Invariants -/

/-- The invariant holds right after reset. The parameters and the baud rate there are the model's (log 2, log 5). -/
def Obligations.ResetMeetsInvariant : Prop := State.reset.Inv

/-- Every step keeps the invariant: the parameters stay well-formed, both buffers stay in canonical form and inside
their capacities, `WBUF` keeps its prefix (10 R31), `USED <= READ_LEN <= CAP_R` (10 R35), `BAUD` is never 0 (10 R37),
a view is the consumed message at the front of `RBUF` (10 R42), and the block is idle or waits at a transport call with
room for the bytes it needs (42 R164, R174). -/
def Obligations.StepKeepsInvariant : Prop := ∀ s t : State, s.Inv → step s = .next t → t.Inv

/-- 10 R30, 43 R202: no step changes a parameter, the register table among them. The state carries them (log 1). -/
def Obligations.StepKeepsParameters : Prop := ∀ s t : State, step s = .next t → t.par = s.par

/-- 60 R305: the refusal flag is never cleared. -/
def Obligations.RefusalFlagIsKept : Prop := ∀ s t : State, step s = .next t → s.refusal = true → t.refusal = true

/-- 10 R37: no instruction but `SETBAUD` changes `BAUD`, and neither does a step without a new command, or one that
reads the view. -/
def Obligations.OnlySetBaudChangesBaud : Prop :=
  (∀ (s t : State) (i : Instr), (∀ b, i ≠ .setBaud b) → exec i s = .next t → t.baud = s.baud) ∧
  (∀ s t : State, s.inbox = [] → step s = .next t → t.baud = s.baud) ∧
  (∀ (s t : State) (a n : Nat) (rest : List HostRequest), s.inbox = .readView a n :: rest → step s = .next t →
    t.baud = s.baud)

/-- 10 R31: only the encoder writes `WBUF`, so no instruction that builds no packet changes it, and neither does a step
without a new command. -/
def Obligations.OnlyEncoderWritesWbuf : Prop :=
  (∀ (s t : State) (i : Instr), buildsPacket i = false → exec i s = .next t → t.wbuf = s.wbuf) ∧
  (∀ s t : State, s.inbox = [] → step s = .next t → t.wbuf = s.wbuf)

/-- 20 R65: an instruction, and a step in which a waiting command goes on, adds its transport calls after those made
before, at most one of them a `T.write_all`. A step that begins to wait for `T.write_all` has made the call, so the one
that takes its answer makes none. The record of calls is the model's (log 24). -/
def Obligations.AtMostOneWriteAll : Prop :=
  (∀ (s t : State) (i : Instr), exec i s = .next t →
    ∃ new, t.calls = s.calls ++ new ∧ (new.filter isWriteAll).length ≤ 1) ∧
  (∀ s t : State, s.inbox = [] → step s = .next t →
    ∃ new, t.calls = s.calls ++ new ∧ (new.filter isWriteAll).length ≤ 1 ∧
      (s.seq ≠ .reset → new.filter isWriteAll = []))

/-- 10 R36: the bytes of `RBUF` at or above `READ_LEN` are never observed: two states that differ only there step to
states that differ only there, and fault or are refused alike. -/
def Obligations.StaleBytesAreUnobservable : Prop :=
  ∀ s s' : State, s.Inv → s'.Inv → SameButStale s s' →
    match step s, step s' with
    | .next t, .next t' => SameButStale t t'
    | .fault f, .fault f' => f = f'
    | .refused r, .refused r' => r = r'
    | _, _ => False

/-! ## Reset -/

/-- 10 R46, the values it gives. The view, the result and the transport's answers are empty, no refusal is recorded. -/
def Obligations.ResetValues : Prop :=
  State.reset.wbuf.read 0 = 0xFF ∧ State.reset.wbuf.read 1 = 0xFF ∧ State.reset.readLen = 0 ∧
    State.reset.used = 0 ∧ State.reset.skipped = 0 ∧ State.reset.phase = .idle ∧ State.reset.seq = .idle ∧
    State.reset.view = none ∧ State.reset.refusal = false

/-- 70 R340, R341: construction refuses an ill-formed register table first and a baud rate of 0 next, and otherwise
gives the block in its reset state, with the parameters and the baud rate it was given. -/
def Obligations.ConstructionFollowsItsChecks : Prop :=
  ∀ (p : Params) (b : Word32),
    (∀ r c, checkRegs p.regs = some (r, c) → construct p b = .error (.illFormedDescriptor r c)) ∧
    (checkRegs p.regs = none → b = 0 → construct p b = .error .zeroBaud) ∧
    (checkRegs p.regs = none → b ≠ 0 →
      ∃ s, construct p b = .ok s ∧ s.baud = b ∧ s.par = p ∧ s.wbuf.read 0 = 0xFF ∧ s.wbuf.read 1 = 0xFF ∧
        s.readLen = 0 ∧ s.used = 0 ∧ s.skipped = 0 ∧ s.phase = .idle ∧ s.seq = .idle ∧ s.view = none ∧
        s.calls = [.baudRate])

/-- 43 R201: a table passes exactly when each descriptor passes the named checks and no two descriptors share both
class and address. -/
def Obligations.RegisterTableChecks : Prop :=
  ∀ regs : List RegDesc, checkRegs regs = none ↔
    (∀ d ∈ regs, d.readOp = d.cls.readOp ∧
      (d.access = .rw → d.writeOp = some d.cls.writeOp) ∧ (d.access = .ro → d.writeOp = none) ∧
      (d.width = 1 ∨ d.width = 2 ∨ d.width = 4) ∧ (d.kind = .f32 → d.width = 4)) ∧
    regs.Pairwise (fun d e => ¬ (d.cls = e.cls ∧ d.addr = e.addr))

/-- 43 R202: a register reference finds nothing exactly when no descriptor of the table answers to it; what it finds is
a descriptor of the table that does; and a descriptor that alone answers to a reference is found. In a table that
construction accepts, each descriptor is found by its class and address, which is how the table's rows name it
(43 R201; log 16). Which of several descriptors of one name is found is left out: it is the model's choice (log 32). -/
def Obligations.LookupFindsTheDescriptor : Prop :=
  ∀ p : Params,
    (∀ name, p.lookup (.named name) = none ↔ ∀ d ∈ p.regs, d.name ≠ name) ∧
    (∀ cls a, p.lookup (.located cls a) = none ↔ ∀ d ∈ p.regs, ¬ (d.cls = cls ∧ d.addr = a)) ∧
    (∀ name d, p.lookup (.named name) = some d → d ∈ p.regs ∧ d.name = name) ∧
    (∀ cls a d, p.lookup (.located cls a) = some d → d ∈ p.regs ∧ d.cls = cls ∧ d.addr = a) ∧
    (∀ ref d, OnlyMatch p ref d → p.lookup ref = some d) ∧
    (checkRegs p.regs = none → ∀ d ∈ p.regs, p.lookup (.located d.cls d.addr) = some d)

/-! ## Checksum, instruction decoder, transfer time, baud rate -/

/-- 40 R133. -/
def Obligations.ChecksumLaws : Prop :=
  (∀ d : List Byte, (checksum d).toNat = 255 - (d.map BitVec.toNat).sum % 256) ∧
  (∀ d : List Byte, ((d.map BitVec.toNat).sum + (checksum d).toNat) % 256 = 255) ∧
  (∀ packet : List Byte, Verifies packet → ((packet.drop 2).map BitVec.toNat).sum % 256 = 0xFF) ∧
  (∀ d e : List Byte, d.Perm e → checksum d = checksum e)

/-- 40 R131: `CHECKSUM` returns the checksum of its operand and changes nothing but the view. -/
def Obligations.ChecksumCommandAnswers : Prop :=
  ∀ (s : State) (d : List Byte), s.seq = .idle →
    exec (.checksum d) s = .next (answered s (.byte (BitVec.ofNat 8 (255 - sumBytes d % 256))))

/-- 43 R212: `DECODEINS` returns what the instruction decoder gives and changes nothing but the view. -/
def Obligations.DecodeInsCommandAnswers : Prop :=
  ∀ (s : State) (b : Byte), s.seq = .idle →
    exec (.decodeIns b) s = .next (answered s (.instruction (s.par.opc.decodeIns b)))

/-- The seven instruction-byte rows: each is named by the instruction decoder, `BulkComm` too (30 R99, 43 R210). That
a byte by itself goes to the instruction decoder is the model's reading (log 18). -/
def Obligations.InstructionByteRowsAreNamed : Prop :=
  ∀ s : State, s.seq = .idle → s.par.opc.distinct →
    exec .insPing s = .next (answered s (.instruction (.known .ping))) ∧
    exec .insReadStatus s = .next (answered s (.instruction (.known .readStatus))) ∧
    exec .insWriteStatus s = .next (answered s (.instruction (.known .writeStatus))) ∧
    exec .insReadConfig s = .next (answered s (.instruction (.known .readConfig))) ∧
    exec .insWriteConfig s = .next (answered s (.instruction (.known .writeConfig))) ∧
    exec .insSaveConfig s = .next (answered s (.instruction (.known .saveConfig))) ∧
    exec .insBulkComm s = .next (answered s (.instruction (.known .bulkComm)))

/-- 45 R281: `TTIME` returns the least number of microseconds in which the line carries `size` bytes of 10 bits, and
changes nothing but the view. -/
def Obligations.TtimeIsLeastSufficientTime : Prop :=
  ∀ (s : State) (size : Nat), s.seq = .idle → s.baud ≠ 0 →
    ∃ t : Nat, exec (.ttime size) s = .next (answered s (.micros t)) ∧
      t = (size * 10 * 1000000 + s.baud.toNat - 1) / s.baud.toNat ∧
      size * 10 * 1000000 ≤ t * s.baud.toNat ∧ (∀ u < t, u * s.baud.toNat < size * 10 * 1000000)

/-- 44 R250: `SETBAUD` sets the line's rate and `BAUD`, and is refused for 0. That the view has ended before the refusal
is the model's reading (log 21). -/
def Obligations.SetBaudSetsBaudOrRefusesZero : Prop :=
  ∀ (s : State) (b : Word32), s.seq = .idle →
    (b ≠ 0 → exec (.setBaud b) s =
      .next { answered s .done with baud := b, calls := s.calls ++ [.setBaudRate b] }) ∧
    (b = 0 → exec (.setBaud b) s = .next (turnedAway s .zeroBaud))

/-- 42 R161, 45 R282, R284: a collect starts with no garbage counted and one deadline, for the transfer time of
`nexp + 6` bytes and the guard of 1 ms. The instant is the transport's (a free value, log 8). -/
def Obligations.CollectStartMakesOneDeadline : Prop :=
  ∀ (s : State) (nexp : Nat), s.baud ≠ 0 →
    collectStart nexp s =
      { s with
        skipped := 0
        dl := Config.makeDeadline (((nexp + 6) * 10 * 1000000 + s.baud.toNat - 1) / s.baud.toNat + 1000) s.drawn
        drawn := s.drawn + 1
        phase := .resync
        calls := s.calls ++
          [.makeDeadline (((nexp + 6) * 10 * 1000000 + s.baud.toNat - 1) / s.baud.toNat + 1000)] }

/-! ## Flags and values -/

/-- 44 R240: an error bit wins over a warning bit. Under the default `ERROR_MASK`, a flag byte with no error bit is
its own warning value (44 R241). `bit(i)` is `2^i` (00 R11), `WARNING_MASK` is the bits of communication and overheat,
and the default `ERROR_MASK` all the others (00 R9). -/
def Obligations.FlagClassification : Prop :=
  (∀ i : Fin 8, (bit i).toNat = 2 ^ i.val) ∧
  (∀ (p : Params) (j : Fin 8),
    (warningMask p).getLsbD j.val = decide (j = p.flagBit.communication ∨ j = p.flagBit.overheat) ∧
    (defaultErrorMask p).getLsbD j.val = decide (j ≠ p.flagBit.communication ∧ j ≠ p.flagBit.overheat)) ∧
  (∀ (p : Params) (f : Byte),
    (f &&& p.errorMask ≠ 0 → classify p f = .error (.motorError f)) ∧
    (f &&& p.errorMask = 0 → f &&& warningMask p ≠ 0 → classify p f = .ok (some (f &&& warningMask p))) ∧
    (f &&& p.errorMask = 0 → f &&& warningMask p = 0 → classify p f = .ok none)) ∧
  (∀ (p : Params) (f : Byte), p.errorMask = defaultErrorMask p → f &&& p.errorMask = 0 →
    classify p f = .ok (if f = 0 then none else some f))

/-- 43 R206: for every descriptor and every value that the codec encodes, decoding gives the value back. A `U32`
register of width `w` takes the values up to `2^(8w) - 1`, and an `F32` register every pattern. -/
def Obligations.CodecRoundTrip : Prop :=
  ∀ (r : RegDesc) (v : Word32), (r.width = 1 ∨ r.width = 2 ∨ r.width = 4) → (r.kind = .f32 → r.width = 4) →
    (∀ bs : List Byte, encodeValue r v r.width = .ok bs →
      decodeValue r bs = .ok (match r.kind with
        | .u32 => .u32 v
        | .f32 => .f32 v)) ∧
    (r.kind = .u32 → ((∃ bs, encodeValue r v r.width = .ok bs) ↔ v.toNat ≤ 2 ^ (8 * r.width) - 1)) ∧
    (r.kind = .f32 → ∃ bs, encodeValue r v r.width = .ok bs)

/-- 43 R204, R205: what the codec encodes and decodes, and when it fails or is refused. The bytes of a value are least
significant first (00 R13, 20 R61): byte `i` is `(v / 256^i) mod 256`, and a slice is read as the sum of
`s[i] * 256^i`. -/
def Obligations.CodecEncodesAndDecodes : Prop :=
  (∀ n v : Nat, (leBytes n v).length = n ∧ ∀ i < n, ((leBytes n v).getD i 0).toNat = v / 256 ^ i % 256) ∧
  (∀ bs : List Byte, fromLe bs = ((List.range bs.length).map fun i => (bs.getD i 0).toNat * 256 ^ i).sum) ∧
  ∀ (r : RegDesc) (v : Word32) (n : Nat) (bs : List Byte),
    (n < r.width → encodeValue r v n = .error (.failure (.bufferTooSmall r.width n .registerEncode))) ∧
    (r.width ≤ n → r.kind = .u32 → 2 ^ (8 * r.width) ≤ v.toNat →
      encodeValue r v n = .error (.refusal (.valueOutOfRange r.name v.toNat))) ∧
    (r.width ≤ n → r.kind = .u32 → v.toNat < 2 ^ (8 * r.width) →
      encodeValue r v n = .ok (leBytes r.width v.toNat)) ∧
    (r.width ≤ n → r.kind = .f32 → encodeValue r v n = .ok (leBytes 4 v.toNat)) ∧
    (bs.length ≠ r.width → decodeValue r bs = .error (.invalidParameterCount r.width bs.length)) ∧
    (bs.length = r.width → r.kind = .u32 → decodeValue r bs = .ok (.u32 (BitVec.ofNat 32 (fromLe bs)))) ∧
    (bs.length = r.width → r.kind = .f32 → decodeValue r bs = .ok (.f32 (BitVec.ofNat 32 (fromLe bs))))

/-- 60 R300: the code and the kind of each failure. -/
def Obligations.FailureCodesAndKinds : Prop :=
  (∀ n m site, (Failure.bufferTooSmall n m site).code = 0x01 ∧ (Failure.bufferTooSmall n m site).kind = .capacity) ∧
  (∀ n, (Failure.lengthOverflow n).code = 0x02 ∧ (Failure.lengthOverflow n).kind = .capacity) ∧
  (∀ e, (Failure.discardFailed e).code = 0x10 ∧ (Failure.discardFailed e).kind = .transportIo) ∧
  (∀ e, (Failure.writeFailed e).code = 0x11 ∧ (Failure.writeFailed e).kind = .transportIo) ∧
  (∀ e, (Failure.readFailed e).code = 0x12 ∧ (Failure.readFailed e).kind = .transportIo) ∧
  (Failure.timeout.code = 0x13 ∧ Failure.timeout.kind = .transportIo) ∧
  (∀ a b, (Failure.invalidChecksum a b).code = 0x20 ∧ (Failure.invalidChecksum a b).kind = .malformedMessage) ∧
  (∀ a b, (Failure.invalidPacketId a b).code = 0x21 ∧ (Failure.invalidPacketId a b).kind = .malformedMessage) ∧
  (∀ a b, (Failure.invalidParameterCount a b).code = 0x22 ∧
    (Failure.invalidParameterCount a b).kind = .malformedMessage) ∧
  (∀ c, (Failure.invalidMessage c).code = 0x23 ∧ (Failure.invalidMessage c).kind = .malformedMessage) ∧
  (∀ f, (Failure.motorError f).code = 0x30 ∧ (Failure.motorError f).kind = .deviceFault)

/-! ## The encoder -/

/-- 41 R142, R144, R145: `ENCODE` writes the packet into `WBUF[0..n+6)` and returns it; the rest of `WBUF` and the
rest of the state stay. -/
def Obligations.EncodeCommandBuildsPacket : Prop :=
  ∀ (s : State) (id ins : Byte) (params : List Byte), s.seq = .idle → s.wbuf.wf = true →
    params.length + 6 ≤ s.par.capW → params.length ≤ 253 →
    ∃ w : Memory, exec (.encodeRaw id ins params) s =
        .next { answered s (.encoded (params.length + 6) (packetOf id ins params)) with wbuf := w } ∧
      w.wf = true ∧
      ∀ a, w.read a = if a < params.length + 6 then (packetOf id ins params).getD a 0 else s.wbuf.read a

/-- 41 R142, R143: `ENCODE` fails for want of capacity first, and then for a parameter count that the length byte
cannot hold, with `WBUF` and all other state unchanged. -/
def Obligations.EncodeCommandFailures : Prop :=
  ∀ (s : State) (id ins : Byte) (params : List Byte), s.seq = .idle →
    (s.par.capW < params.length + 6 → exec (.encodeRaw id ins params) s =
      .next (answered s (.failed (.bufferTooSmall (params.length + 6) s.par.capW .encode) s.skipped))) ∧
    (params.length + 6 ≤ s.par.capW → 253 < params.length → exec (.encodeRaw id ins params) s =
      .next (answered s (.failed (.lengthOverflow params.length) s.skipped)))

/-- 20 R66: encoding the same packet twice leaves `WBUF` as encoding it once. -/
def Obligations.EncodingTwiceIsEncodingOnce : Prop :=
  ∀ (s t : State) (id ins : Byte) (params : List Byte), s.wbuf.wf = true →
    encodePacket id ins params s = .ok t → encodePacket id ins params t = .ok t

/-- 41 R146: a packet that `ENCODE` has built, delivered alone into an empty `RBUF`, is verified by a collect, and the
view equals it. -/
def Obligations.EncodeThenCollectRecoversPacket : Prop :=
  ∀ (s t : State) (id ins : Byte) (params : List Byte) (nexp : Nat) (rs : List ReadAnswer),
    s.seq = .idle → s.wbuf.wf = true → s.rbuf.wf = true → s.readLen = 0 → s.used = 0 → s.pending = [] →
    params.length + 6 ≤ s.par.capW → params.length ≤ 253 → params.length + 6 ≤ s.par.capR →
    exec (.encodeRaw id ins params) s = .next t →
    ∃ u, exec (.collect nexp)
        { t with reads := .ok (t.wbuf.readBytes 0 (params.length + 6)) (params.length + 6) :: rs } = .next u ∧
      u.result = some (.collected (params.length + 6) 0) ∧ u.view = some (params.length + 6) ∧
      u.rbuf.readBytes 0 (params.length + 6) = packetOf id ins params ∧
      u.rbuf.readBytes 0 (params.length + 6) = t.wbuf.readBytes 0 (params.length + 6)

/-! ## The framer -/

/-- 42 R163: a resync pass finds the first prefix of the unconsumed tail, or a trailing lone `FF`, or drops the whole
tail; it counts what lies before as garbage, moves the rest to offset 0 and folds `USED` in. -/
def Obligations.ResyncPassFindsFirstPrefix : Prop :=
  ∀ s : State, s.rbuf.wf = true → s.used ≤ s.readLen →
    ∃ f, s.used ≤ f ∧ f ≤ s.readLen ∧
      (∀ i, s.used ≤ i → i < f → ¬ (i + 1 < s.readLen ∧ s.rbuf.read i = 0xFF ∧ s.rbuf.read (i + 1) = 0xFF)) ∧
      (f + 1 < s.readLen → s.rbuf.read f = 0xFF ∧ s.rbuf.read (f + 1) = 0xFF) ∧
      (f + 1 = s.readLen → s.rbuf.read f = 0xFF) ∧
      (f = s.readLen → s.used < s.readLen → s.rbuf.read (s.readLen - 1) ≠ 0xFF) ∧
      resync s = { s with
        skipped := s.skipped + (f - s.used)
        rbuf := (resync s).rbuf
        readLen := s.readLen - f
        used := 0
        phase := .check } ∧
      (∀ a, (resync s).rbuf.read a = if a < s.readLen - f then s.rbuf.read (f + a) else s.rbuf.read a)

/-- 42 R164, R165: fewer than 4 bytes, or fewer than the message, ask for a read; a message that `RBUF` cannot hold
fails at once; a whole message is verified. -/
def Obligations.CheckDecidesByLength : Prop :=
  ∀ s : State,
    (s.readLen < 4 → check s = { s with phase := .read }) ∧
    (4 ≤ s.readLen → s.par.capR < 4 + (s.rbuf.read 3).toNat → check s =
      { s with
        phase := .idle
        seq := .idle
        exchange := none
        result := some (.failed (.bufferTooSmall (4 + (s.rbuf.read 3).toNat) s.par.capR .receive) s.skipped) }) ∧
    (4 ≤ s.readLen → 4 + (s.rbuf.read 3).toNat ≤ s.par.capR → 4 + (s.rbuf.read 3).toNat ≤ s.readLen →
      check s = { s with phase := .verify }) ∧
    (4 ≤ s.readLen → 4 + (s.rbuf.read 3).toNat ≤ s.par.capR → s.readLen < 4 + (s.rbuf.read 3).toNat →
      check s = { s with phase := .read })

/-- 42 R167, R169: a verified message is consumed and comes into view; one whose checksum is wrong is consumed too, and
the failure names both bytes. -/
def Obligations.VerifyConsumesMessage : Prop :=
  ∀ (s : State) (m : Nat), m = 4 + (s.rbuf.read 3).toNat →
    (s.rbuf.read (m - 1) = BitVec.ofNat 8 (255 - sumBytes (s.rbuf.readBytes 2 (m - 3)) % 256) →
      verify s = { s with used := s.used + m, phase := .idle, view := some m }) ∧
    (∀ c, c = BitVec.ofNat 8 (255 - sumBytes (s.rbuf.readBytes 2 (m - 3)) % 256) → s.rbuf.read (m - 1) ≠ c →
      verify s =
        { s with
          used := s.used + m
          phase := .idle
          seq := .idle
          exchange := none
          result := some (.failed (.invalidChecksum (s.rbuf.read (m - 1)) c) s.skipped) })

/-- 42 R166, 20 R77: a read's bytes go to the free tail; more bytes than offered are refused; an error is a timeout or
a read failure as `T.is_timeout_error` says, and leaves the buffer as it was. How an answer is held is the model's
(log 11), and so is what one of too many bytes leaves stored and pending: none of it, and what it did not return
(log 28). -/
def Obligations.ReadAnswerIsTaken : Prop :=
  ∀ s : State, s.rbuf.wf = true →
    (∀ arrived limit (bytes : List Byte), bytes = (s.pending ++ arrived).take limit →
      bytes.length ≤ s.par.capR - s.readLen →
      ∃ m : Memory, takeRead (.ok arrived limit) s =
          { s with rbuf := m, readLen := s.readLen + bytes.length, phase := .resync,
                   pending := (s.pending ++ arrived).drop limit } ∧
        m.wf = true ∧
        (∀ i, i < bytes.length → m.read (s.readLen + i) = bytes.getD i 0) ∧
        (∀ a, a < s.readLen ∨ s.readLen + bytes.length ≤ a → m.read a = s.rbuf.read a)) ∧
    (∀ arrived limit (bytes : List Byte), bytes = (s.pending ++ arrived).take limit →
      s.par.capR - s.readLen < bytes.length →
      takeRead (.ok arrived limit) s =
        { s with pending := (s.pending ++ arrived).drop limit, phase := .idle, seq := .idle, exchange := none,
                 refusal := true,
                 result := some (.refused (.transportContract bytes.length (s.par.capR - s.readLen))) }) ∧
    (∀ e timedOut, takeRead (.err e timedOut) s =
      { s with calls := s.calls ++ [.isTimeoutError e], phase := .idle, seq := .idle, exchange := none,
               result := some (.failed (if timedOut then .timeout else .readFailed e) s.skipped) })

/-- 42 R172, R173, R177: a `COLLECT` with a whole verified message at the front of the unconsumed bytes returns it
without a read and counts no garbage; the bytes after it are kept. -/
def Obligations.CollectTakesQueuedMessage : Prop :=
  ∀ (s : State) (nexp : Nat) (packet rest : List Byte),
    s.seq = .idle → s.rbuf.wf = true → s.used ≤ s.readLen → s.readLen ≤ s.par.capR →
    s.rbuf.readBytes s.used (s.readLen - s.used) = packet ++ rest →
    packet.take 2 = [0xFF, 0xFF] → packet.length = 4 + (packet.getD 3 0).toNat → Verifies packet →
    ∃ t, exec (.collect nexp) s = .next t ∧
      t = { s with
        rbuf := t.rbuf
        readLen := packet.length + rest.length
        used := packet.length
        skipped := 0
        dl := Config.makeDeadline (deadlineDuration s.baud nexp) s.drawn
        drawn := s.drawn + 1
        phase := .idle
        view := some packet.length
        exchange := none
        result := some (.collected packet.length 0)
        calls := s.calls ++ [.makeDeadline (deadlineDuration s.baud nexp)] } ∧
      t.rbuf.readBytes 0 (packet.length + rest.length) = packet ++ rest ∧
      (∀ a, packet.length + rest.length ≤ a → t.rbuf.read a = s.rbuf.read a)

/-- 42 R176: garbage with no `FF FF` in it and no `FF` at its end, followed by a well-formed packet that `RBUF` can
hold, in one read or several, into an empty `RBUF`: the collect counts exactly the garbage and its view is the packet.
Each read gives no more bytes than it was offered (20 R77): the free tail is what the bytes before it, without the
garbage among them, leave. -/
def Obligations.CollectSkipsExactlyTheGarbage : Prop :=
  ∀ (s : State) (nexp : Nat) (junk : List Byte) (id : Byte) (body : List Byte) (chunks : List (List Byte))
    (rs : List ReadAnswer),
    s.seq = .idle → s.rbuf.wf = true → s.readLen = 0 → s.used = 0 → s.pending = [] →
    chunks.flatten = junk ++ responsePacket id body → s.reads = chunks.map (fun c => .ok c c.length) ++ rs →
    (∀ i : Nat, ¬ (junk[i]? = some 0xFF ∧ junk[i + 1]? = some 0xFF)) → junk.getLast? ≠ some 0xFF →
    body.length < 256 → Verifies (responsePacket id body) → body.length + 4 ≤ s.par.capR →
    (∀ before c later, chunks = before ++ c :: later →
      c.length + (before.flatten.drop (garbage before.flatten)).length ≤ s.par.capR) →
    ∃ t, exec (.collect nexp) s = .next t ∧
      t.result = some (.collected (body.length + 4) junk.length) ∧ t.skipped = junk.length ∧
      t.view = some (body.length + 4) ∧ t.rbuf.readBytes 0 (body.length + 4) = responsePacket id body

/-- 42 R171: a read of zero bytes is no failure: the collect asks again, with the same bytes buffered. -/
def Obligations.ZeroByteReadAsksAgain : Prop :=
  ∀ (s : State) (limit : Nat), s.Inv → s.inbox = [] → s.seq = .collect → s.pending = [] →
    s.reads = [.ok [] limit] →
    step s = .next { s with
      reads := []
      calls := s.calls ++ [.read s.readLen (s.par.capR - s.readLen) s.dl] }

/-- 42 R170: the state after each failure of a `COLLECT`. The view is gone and `SKIPPED` is reported. `RBUF` up to
`READ_LEN` is what the last resync pass left (after a failed read, as before it; after a rejected message, unchanged by
the verification): the unconsumed bytes at the start and those the reads returned, without the garbage before the first
prefix, which `SKIPPED` counts. `USED` is 0, or the length of the rejected message. -/
def Obligations.CollectFailureStates : Prop :=
  ∀ (s t : State) (nexp k : Nat) (f : Failure), s.Inv → s.seq = .idle → exec (.collect nexp) s = .next t →
    t.result = some (.failed f k) → t.exchange = none →
    t.seq = .idle ∧ t.phase = .idle ∧ t.view = none ∧ k = t.skipped ∧
    (∃ answers all, s.reads = answers ++ t.reads ∧
      all = s.rbuf.readBytes s.used (s.readLen - s.used) ++ received s.pending answers ∧
      t.skipped = garbage all ∧ t.readLen = all.length - garbage all ∧
      t.rbuf.readBytes 0 t.readLen = all.drop (garbage all)) ∧
    ((∃ n, f = .bufferTooSmall n s.par.capR .receive ∧ t.used = 0 ∧ n = 4 + (t.rbuf.read 3).toNat) ∨
      (f = .timeout ∧ t.used = 0) ∨ (∃ e, f = .readFailed e ∧ t.used = 0) ∨
      (∃ claimed computed, f = .invalidChecksum claimed computed ∧ t.used = 4 + (t.rbuf.read 3).toNat))

/-- 42 R171, 60 R302, 70 R358: once the transport answers the discard and the write, and some read with an error, a
command has ended: it does not loop, and the block is idle. -/
def Obligations.CommandsEndOnceReadsFail : Prop :=
  ∀ (s t : State) (i : Instr), s.Inv → s.seq = .idle → s.discards ≠ [] → s.writes ≠ [] →
    (∃ e timedOut, ReadAnswer.err e timedOut ∈ s.reads) → exec i s = .next t →
    t.seq = .idle ∧ t.phase = .idle ∧ t.exchange = none

/-- 70 R359, 42 R165: after a receive `BufferTooSmall` a further `COLLECT` fails the same way, with no read, and leaves
the buffer as it is. The deadline is a free value (log 8). -/
def Obligations.ReceiveCapacityFailureIsSticky : Prop :=
  ∀ (s : State) (nexp : Nat), s.seq = .idle → s.rbuf.wf = true → s.used = 0 → 4 ≤ s.readLen →
    s.rbuf.read 0 = 0xFF → s.rbuf.read 1 = 0xFF → s.par.capR < 4 + (s.rbuf.read 3).toNat →
    exec (.collect nexp) s = .next { s with
      skipped := 0
      dl := Config.makeDeadline (deadlineDuration s.baud nexp) s.drawn
      drawn := s.drawn + 1
      phase := .idle
      view := none
      exchange := none
      result := some (.failed (.bufferTooSmall (4 + (s.rbuf.read 3).toNat) s.par.capR .receive) 0)
      calls := s.calls ++ [.makeDeadline (deadlineDuration s.baud nexp)] }

/-! ## The request commands -/

/-- 44 R244, with R235 to R243: `PING` over a transport that answers its calls and delivers one verified packet.
The deadline is a free value (log 8). -/
def Obligations.PingExchange : Prop :=
  ∀ (s : State) (id id' : Byte) (body : List Byte) (limit : Nat) (ds : List DiscardAnswer) (ws : List WriteAnswer)
    (rs : List ReadAnswer),
    Ready s (responsePacket id' body) limit ds ws rs → 6 ≤ s.par.capW → body.length < 256 →
    Verifies (responsePacket id' body) →
    Exchanges (.ping id) s (packetOf id s.par.opc.ping []) 4 (responsePacket id' body)
      (replyResult s.par id .ping id' body 0) ds ws rs

/-- 44 R245: `READ`, of a register named by class and address (the model's way for the rows, log 16) or by name (30 R119;
log 32). The deadline is a free value (log 8). -/
def Obligations.ReadExchange : Prop :=
  ∀ (s : State) (id id' : Byte) (r : RegDesc) (body : List Byte) (limit : Nat) (ds : List DiscardAnswer)
    (ws : List WriteAnswer) (rs : List ReadAnswer),
    Ready s (responsePacket id' body) limit ds ws rs → 7 ≤ s.par.capW → body.length < 256 →
    Verifies (responsePacket id' body) →
    (∀ a, s.par.lookup (.located .status a) = some r →
      Exchanges (.readStatus id a) s (packetOf id (s.par.opc.byteOf r.readOp) [r.addr]) (r.width + 1)
        (responsePacket id' body) (replyResult s.par id (.read r) id' body 0) ds ws rs) ∧
    (∀ a, s.par.lookup (.located .config a) = some r →
      Exchanges (.readConfig id a) s (packetOf id (s.par.opc.byteOf r.readOp) [r.addr]) (r.width + 1)
        (responsePacket id' body) (replyResult s.par id (.read r) id' body 0) ds ws rs) ∧
    (∀ name, s.par.lookup (.named name) = some r →
      Exchanges (.readReg name id) s (packetOf id (s.par.opc.byteOf r.readOp) [r.addr]) (r.width + 1)
        (responsePacket id' body) (replyResult s.par id (.read r) id' body 0) ds ws rs)

/-- 44 R246: `WRITE`, every row of the table, by class and address (log 16), and the pseudo-instruction by name (30 R119;
log 32). The deadline is a free value (log 8). -/
def Obligations.WriteExchange : Prop :=
  ∀ (s : State) (id id' : Byte) (r : RegDesc) (op : InsName) (body : List Byte) (limit : Nat)
    (ds : List DiscardAnswer) (ws : List WriteAnswer) (rs : List ReadAnswer),
    Ready s (responsePacket id' body) limit ds ws rs → r.width + 7 ≤ s.par.capW → body.length < 256 →
    Verifies (responsePacket id' body) →
    let ends := fun (i : Instr) (v : Nat) =>
      Exchanges i s (packetOf id (s.par.opc.byteOf op) (r.addr :: leBytes r.width v)) 0 (responsePacket id' body)
        (replyResult s.par id .ack id' body 0) ds ws rs
    (∀ a v, s.par.lookup (.located .status a) = some r → r.width = 1 → Writable r op (v.setWidth 32) →
      ends (.writeStatus1 id a v) v.toNat) ∧
    (∀ a v, s.par.lookup (.located .status a) = some r → r.width = 2 → Writable r op (v.setWidth 32) →
      ends (.writeStatus2 id a v) v.toNat) ∧
    (∀ a v, s.par.lookup (.located .status a) = some r → r.width = 4 → Writable r op v →
      ends (.writeStatus4 id a v) v.toNat) ∧
    (∀ a v, s.par.lookup (.located .config a) = some r → r.width = 1 → Writable r op (v.setWidth 32) →
      ends (.writeConfig1 id a v) v.toNat) ∧
    (∀ a v, s.par.lookup (.located .config a) = some r → r.width = 2 → Writable r op (v.setWidth 32) →
      ends (.writeConfig2 id a v) v.toNat) ∧
    (∀ a v, s.par.lookup (.located .config a) = some r → r.width = 4 → Writable r op v →
      ends (.writeConfig4 id a v) v.toNat) ∧
    (∀ name v, s.par.lookup (.named name) = some r → Writable r op v → ends (.writeReg name id v) v.toNat)

/-- 44 R247: `MWRITE`, both classes, with any number of entries that the packet holds. The deadline is a free
value (log 8). -/
def Obligations.MwriteExchange : Prop :=
  ∀ (s : State) (id id' : Byte) (es : List Entry) (body : List Byte) (limit : Nat) (ds : List DiscardAnswer)
    (ws : List WriteAnswer) (rs : List ReadAnswer),
    Ready s (responsePacket id' body) limit ds ws rs → (∀ e ∈ es, e.val.length = 4) →
    5 * es.length + 6 ≤ s.par.capW → es.length ≤ 50 → body.length < 256 → Verifies (responsePacket id' body) →
    Exchanges (.mwriteConfig id es) s
      (packetOf id s.par.opc.writeConfig (es.flatMap fun e => e.addr :: e.val)) 0 (responsePacket id' body)
      (replyResult s.par id .ack id' body 0) ds ws rs ∧
    Exchanges (.mwriteStatus id es) s
      (packetOf id s.par.opc.writeStatus (es.flatMap fun e => e.addr :: e.val)) 0 (responsePacket id' body)
      (replyResult s.par id .ack id' body 0) ds ws rs

/-- 44 R248: `SAVE`. The deadline is a free value (log 8). -/
def Obligations.SaveExchange : Prop :=
  ∀ (s : State) (id id' : Byte) (body : List Byte) (limit : Nat) (ds : List DiscardAnswer) (ws : List WriteAnswer)
    (rs : List ReadAnswer),
    Ready s (responsePacket id' body) limit ds ws rs → 6 ≤ s.par.capW → body.length < 256 →
    Verifies (responsePacket id' body) →
    Exchanges (.save id) s (packetOf id s.par.opc.saveConfig []) 0 (responsePacket id' body)
      (replyResult s.par id .ack id' body 0) ds ws rs

/-- 44 R232, R237, R238, 60 R307: once its discard and its write are answered with `Ok`, a request comes to what a
`COLLECT` of its expected count comes to in its place, from `READ_LEN = USED = 0`, nothing pending, its packet in `WBUF`
and sent; and then the message, if one was taken, is decomposed. So a request fails, waits or is refused as its collect
does (42 R170, R176: `CollectFailureStates`, `CollectSkipsExactlyTheGarbage`), whatever reads its reply comes in. Every
request command, of any register its operands find (log 16, log 32). The deadline is a free value (log 8). -/
def Obligations.RequestIsCollectThenDecomposition : Prop :=
  ∀ (s : State) (i : Instr) (id ins : Byte) (params : List Byte) (nexp : Nat) (k : Kind) (ds : List DiscardAnswer)
    (ws : List WriteAnswer),
    s.seq = .idle → s.wbuf.wf = true → Sends s.par id ins params i → Expects s.par nexp k i →
    params.length + 6 ≤ s.par.capW → params.length ≤ 253 → s.discards = .ok :: ds → s.writes = .ok :: ws →
    ∃ (w : Memory) (u : State),
      (∀ a, w.read a = if a < params.length + 6 then (packetOf id ins params).getD a 0 else s.wbuf.read a) ∧
      exec (.collect nexp)
        { s with
          wbuf := w
          readLen := 0
          used := 0
          pending := []
          discards := ds
          writes := ws
          calls := s.calls ++ [.discardInput, .writeAll (packetOf id ins params)] } = .next u ∧
      exec i s = .next (inPlaceOfCollect id k nexp (params.length + 6) u)

/-- 44 R234, 41 R142, R143: when the encode of a request fails, for want of capacity first and then of length, nothing
is sent or discarded and no buffer or cursor changes. Every request command, of any register its operands find (log 16,
log 32). -/
def Obligations.EncodeFailureMakesNoCall : Prop :=
  ∀ (s : State) (i : Instr) (id ins : Byte) (params : List Byte), s.seq = .idle → Sends s.par id ins params i →
    (s.par.capW < params.length + 6 →
      exec i s = .next (answered s (.failed (.bufferTooSmall (params.length + 6) s.par.capW .encode) s.skipped))) ∧
    (params.length + 6 ≤ s.par.capW → 253 < params.length →
      exec i s = .next (answered s (.failed (.lengthOverflow params.length) s.skipped)))

/-- 44 R235, R236: a failed discard ends a request before the write, and a failed write before any read; the cursors
are 0 after both, and the packet is in `WBUF`. Every request command, of any register its operands find (log 16,
log 32). What a failed discard leaves pending is part of its answer (log 12). -/
def Obligations.DiscardAndWriteFailures : Prop :=
  ∀ (s : State) (i : Instr) (id ins : Byte) (params : List Byte) (e : TransportError), s.seq = .idle →
    s.wbuf.wf = true → Sends s.par id ins params i → params.length + 6 ≤ s.par.capW → params.length ≤ 253 →
    ∃ w : Memory,
      (∀ a, w.read a = if a < params.length + 6 then (packetOf id ins params).getD a 0 else s.wbuf.read a) ∧
      (∀ left ds, s.discards = .err e left :: ds →
        exec i s =
          .next { answered s (.failed (.discardFailed e) s.skipped) with
            wbuf := w, readLen := 0, used := 0, pending := left, discards := ds,
            calls := s.calls ++ [.discardInput] }) ∧
      (∀ ds ws, s.discards = .ok :: ds → s.writes = .err e :: ws →
        exec i s =
          .next { answered s (.failed (.writeFailed e) s.skipped) with
            wbuf := w, readLen := 0, used := 0, pending := [], discards := ds, writes := ws,
            calls := s.calls ++ [.discardInput, .writeAll (packetOf id ins params)] })

/-- 20 R80, 44 R235: no byte that was buffered or pending before a request, once its discard has taken effect, has any
influence: from any bytes of `RBUF`, any cursors and any pending input the request comes to the same state, but for
bytes of `RBUF` at or above `READ_LEN`, which nothing observes (10 R36). Every request command, of any register its
operands find (log 16, log 32). -/
def Obligations.PrewriteResetIsABarrier : Prop :=
  ∀ (s : State) (i : Instr) (id ins : Byte) (params : List Byte) (ds : List DiscardAnswer) (m : Memory) (n u : Nat)
    (old : List Byte),
    s.seq = .idle → s.rbuf.wf = true → m.wf = true → Sends s.par id ins params i →
    params.length + 6 ≤ s.par.capW → params.length ≤ 253 → s.discards = .ok :: ds →
    ∃ t t', exec i s = .next t ∧ exec i { s with rbuf := m, readLen := n, used := u, pending := old } = .next t' ∧
      SameButStale t t'

/-- The refusals of operands: a register that is not in the table (43 R202; a table row names it by class and address,
log 16), a register that may not be written (44 R246), a value too wide for its register (43 R204), and an entry that
is not 4 bytes (44 R247; of several the first is named, log 33). Each sets the flag, and nothing is encoded or sent. That
the view has ended before the refusal is the model's reading (log 21). -/
def Obligations.OperandRefusals : Prop :=
  ∀ (s : State) (id a : Byte) (name : RegName) (v1 : BitVec 8) (v2 : BitVec 16) (v : Word32), s.seq = .idle →
    ((∀ d ∈ s.par.regs, d.name ≠ name) → ∀ i ∈ [Instr.readReg name id, .writeReg name id v],
      exec i s = .next (turnedAway s (.unknownRegister (.named name)))) ∧
    ((∀ d ∈ s.par.regs, ¬ (d.cls = .status ∧ d.addr = a)) →
      ∀ i ∈ [Instr.readStatus id a, .writeStatus1 id a v1, .writeStatus2 id a v2, .writeStatus4 id a v],
        exec i s = .next (turnedAway s (.unknownRegister (.located .status a)))) ∧
    ((∀ d ∈ s.par.regs, ¬ (d.cls = .config ∧ d.addr = a)) →
      ∀ i ∈ [Instr.readConfig id a, .writeConfig1 id a v1, .writeConfig2 id a v2, .writeConfig4 id a v],
        exec i s = .next (turnedAway s (.unknownRegister (.located .config a)))) ∧
    (∀ r, r.access = .ro →
      (OnlyMatch s.par (.named name) r → exec (.writeReg name id v) s = .next (turnedAway s (.notWritable r.name))) ∧
      (OnlyMatch s.par (.located .status a) r →
        ∀ i ∈ [Instr.writeStatus1 id a v1, .writeStatus2 id a v2, .writeStatus4 id a v],
          exec i s = .next (turnedAway s (.notWritable r.name))) ∧
      (OnlyMatch s.par (.located .config a) r →
        ∀ i ∈ [Instr.writeConfig1 id a v1, .writeConfig2 id a v2, .writeConfig4 id a v],
          exec i s = .next (turnedAway s (.notWritable r.name)))) ∧
    (∀ r op, r.access = .rw → r.writeOp = some op → r.kind = .u32 →
      (OnlyMatch s.par (.named name) r → 2 ^ (8 * r.width) ≤ v.toNat →
        exec (.writeReg name id v) s = .next (turnedAway s (.valueOutOfRange r.name v.toNat))) ∧
      (OnlyMatch s.par (.located .status a) r →
        ∀ x ∈ [(Instr.writeStatus1 id a v1, v1.toNat), (.writeStatus2 id a v2, v2.toNat),
            (.writeStatus4 id a v, v.toNat)],
          2 ^ (8 * r.width) ≤ x.2 → exec x.1 s = .next (turnedAway s (.valueOutOfRange r.name x.2))) ∧
      (OnlyMatch s.par (.located .config a) r →
        ∀ x ∈ [(Instr.writeConfig1 id a v1, v1.toNat), (.writeConfig2 id a v2, v2.toNat),
            (.writeConfig4 id a v, v.toNat)],
          2 ^ (8 * r.width) ≤ x.2 → exec x.1 s = .next (turnedAway s (.valueOutOfRange r.name x.2)))) ∧
    (∀ good bad es, (∀ e ∈ good, e.val.length = 4) → bad.val.length ≠ 4 →
      ∀ i ∈ [Instr.mwriteConfig id (good ++ bad :: es), .mwriteStatus id (good ++ bad :: es)],
        exec i s = .next (turnedAway s (.badEntry (good.length + 1))))

/-- 30 R119: a pseudo-instruction does what the command it expands to does. The rows name the register by class and
address (log 16). -/
def Obligations.PseudoInstructionsExpand : Prop :=
  ∀ (s : State) (id : Byte) (name : RegName) (v : Word32) (r : RegDesc),
    s.par.lookup (.named name) = some r → s.par.lookup (.located r.cls r.addr) = some r →
    (r.cls = .status →
      exec (.readReg name id) s = exec (.readStatus id r.addr) s ∧
      (r.width = 1 → v.toNat < 2 ^ 8 →
        exec (.writeReg name id v) s = exec (.writeStatus1 id r.addr (v.setWidth 8)) s) ∧
      (r.width = 2 → v.toNat < 2 ^ 16 →
        exec (.writeReg name id v) s = exec (.writeStatus2 id r.addr (v.setWidth 16)) s) ∧
      (r.width = 4 → exec (.writeReg name id v) s = exec (.writeStatus4 id r.addr v) s)) ∧
    (r.cls = .config →
      exec (.readReg name id) s = exec (.readConfig id r.addr) s ∧
      (r.width = 1 → v.toNat < 2 ^ 8 →
        exec (.writeReg name id v) s = exec (.writeConfig1 id r.addr (v.setWidth 8)) s) ∧
      (r.width = 2 → v.toNat < 2 ^ 16 →
        exec (.writeReg name id v) s = exec (.writeConfig2 id r.addr (v.setWidth 16)) s) ∧
      (r.width = 4 → exec (.writeReg name id v) s = exec (.writeConfig4 id r.addr v) s))

/-! ## The line and the view -/

/-- 10 R45, 60 R309: a packet that reaches a block with no read in progress joins the pending input, and nothing else
changes. That a row `RESPONSE` is an arrival is the model's reading (log 19). -/
def Obligations.UnsolicitedPacketWaits : Prop :=
  ∀ (s : State) (id : Byte) (body : List Byte), ¬ (s.seq = .collect ∧ s.phase = .read) →
    exec (.response id body) s = .next { s with pending := s.pending ++ responsePacket id body }

/-- A packet that reaches a block whose read is in progress, with nothing buffered, is the reply of the request that
waits for it (42 R166 to R168, 44 R238; log 19). -/
def Obligations.ArrivingReplyEndsExchange : Prop :=
  ∀ (s : State) (id id' : Byte) (k : Kind) (nexp len : Nat) (body : List Byte),
    s.seq = .collect → s.phase = .read → s.exchange = some (.request id k nexp len) → s.rbuf.wf = true →
    s.readLen = 0 → s.used = 0 → s.pending = [] → body.length < 256 →
    body.length + 4 ≤ s.par.capR → Verifies (responsePacket id' body) →
    ∃ t, exec (.response id' body) s = .next t ∧
      t = { s with
        rbuf := t.rbuf
        readLen := body.length + 4
        used := body.length + 4
        phase := .idle
        seq := .idle
        view := some (body.length + 4)
        exchange := none
        result := some (replyResult s.par id k id' body s.skipped) } ∧
      (∀ a, t.rbuf.read a = if a < body.length + 4 then (responsePacket id' body).getD a 0 else s.rbuf.read a)

/-- 10 R42, 70 R351: the host reads the live view and nothing else; without one the read is refused. That the refusal
drops a command in progress is the model's reading (log 22), and the fault of a read outside the view is the model's
(log 25). -/
def Obligations.ViewReads : Prop :=
  ∀ (s : State) (a n : Nat),
    (s.view = none → s.readView a n = .next { s with seq := .idle, phase := .idle, exchange := none, refusal := true,
                                                     result := some (.refused .staleView) }) ∧
    (∀ m, s.view = some m → a + n ≤ m →
      s.readView a n = .next { s with result := some (.viewBytes (s.rbuf.readBytes a n)) }) ∧
    (∀ m, s.view = some m → m < a + n → s.readView a n = .fault (.viewOutOfRange a n m))
end

