-- ==== Sys2Proof/Laws/Bytes.lean ====
section
/-! SUPPORT. The laws of the byte-order helpers and of the checksum. -/

namespace Sys2Proof

@[simp] theorem length_leBytes (n v : Nat) : (leBytes n v).length = n := by
  induction n generalizing v with
  | zero => rfl
  | succ n ih => simp [leBytes, ih]

/-- Reading back a little-endian value gives it modulo its width. -/
theorem fromLe_leBytes_mod (n v : Nat) : fromLe (leBytes n v) = v % 256 ^ n := by
  induction n generalizing v with
  | zero => simp [leBytes, fromLe, Nat.mod_one]
  | succ n ih =>
    rw [leBytes, fromLe, ih, BitVec.toNat_ofNat, show 256 ^ (n + 1) = 256 * 256 ^ n from Nat.pow_succ', Nat.mod_mul]

/-- A value that fits its width is read back. -/
theorem fromLe_leBytes {n v : Nat} (h : v < 256 ^ n) : fromLe (leBytes n v) = v := by
  rw [fromLe_leBytes_mod, Nat.mod_eq_of_lt h]

theorem fromLe_lt (bs : List Byte) : fromLe bs < 256 ^ bs.length := by
  induction bs with
  | nil => simp [fromLe]
  | cons b bs ih =>
    have := b.isLt
    simp only [fromLe, List.length_cons, pow_succ]
    omega

/-- The bytes of a value read little-endian are the bytes it was read from. -/
theorem leBytes_fromLe (bs : List Byte) : leBytes bs.length (fromLe bs) = bs := by
  induction bs with
  | nil => rfl
  | cons b bs ih =>
    have hb := b.isLt
    rw [List.length_cons, leBytes, fromLe, show (b.toNat + 256 * fromLe bs) / 256 = fromLe bs by omega, ih]
    congr 1
    apply BitVec.eq_of_toNat_eq
    rw [BitVec.toNat_ofNat]
    omega

theorem fromLe_natBytesUpTo {fuel v : Nat} (h : v ≤ fuel) : fromLe (natBytesUpTo fuel v) = v := by
  induction fuel generalizing v with
  | zero => simp [natBytesUpTo, fromLe]; omega
  | succ fuel ih =>
    rw [natBytesUpTo]
    split
    · simp [fromLe, *]
    · rw [fromLe, ih (by omega), BitVec.toNat_ofNat]
      omega

/-- A natural operand is read back whatever its size. -/
theorem fromLe_natBytes (v : Nat) : fromLe (natBytes v) = v := fromLe_natBytesUpTo le_rfl

@[simp] theorem sumBytes_nil : sumBytes [] = 0 := rfl

@[simp] theorem sumBytes_cons (b : Byte) (bs : List Byte) : sumBytes (b :: bs) = b.toNat + sumBytes bs := rfl

@[simp] theorem sumBytes_append (a b : List Byte) : sumBytes (a ++ b) = sumBytes a + sumBytes b := by
  induction a with
  | nil => simp
  | cons x a ih => simp [ih, Nat.add_assoc]

/-- The checksum as a natural. -/
theorem toNat_checksum (d : List Byte) : (checksum d).toNat = 255 - sumBytes d % 256 := by
  rw [checksum, BitVec.toNat_ofNat]
  omega

end Sys2Proof
end

