-- ==== Sys2Proof/Laws/Memory.lean ====
section
/-! SUPPORT. The laws of the byte arrays: every operation keeps the canonical form, a read after a write gives the
value written, and a write leaves every other byte alone. -/

namespace Sys2Proof.Machine

@[simp] theorem Memory.read_nil (a : Nat) : Memory.read [] a = Memory.unlisted := rfl

/-- The canonical form of a non-empty memory: its first entry is significant and lies before all the others. -/
theorem Memory.wf_cons {k : Nat} {v : Byte} {m : Memory} :
    Memory.wf ((k, v) :: m) = true ↔ v ≠ Memory.unlisted ∧ (∀ c ∈ m, k < c.1) ∧ Memory.wf m = true := by
  induction m generalizing k v with
  | nil => simp [Memory.wf]
  | cons c m ih =>
    obtain ⟨k', v'⟩ := c
    rw [Memory.wf]
    simp only [Bool.and_eq_true, bne_iff_ne, ne_eq, decide_eq_true_eq, List.mem_cons, forall_eq_or_imp, ih]
    refine ⟨fun ⟨⟨h1, h2⟩, h3, h4, h5⟩ => ⟨h1, ⟨h2, fun c hc => lt_trans h2 (h4 c hc)⟩, h3, h4, h5⟩,
      fun ⟨h1, ⟨h2, _⟩, h3, h4, h5⟩ => ⟨⟨h1, h2⟩, h3, h4, h5⟩⟩

/-- An address that no entry holds reads as an unlisted one. -/
theorem Memory.read_of_not_listed {m : Memory} {a : Nat} (h : ∀ c ∈ m, c.1 ≠ a) : m.read a = Memory.unlisted := by
  induction m with
  | nil => rfl
  | cons c m ih =>
    rw [Memory.read, if_neg (h c (by simp))]
    exact ih fun c hc => h c (by simp [hc])

/-- The entries of a memory after a write are old ones, or the one written. -/
theorem Memory.mem_write {m : Memory} {a : Nat} {b : Byte} {c : Host.Cell} (h : c ∈ m.write a b) :
    c ∈ m ∨ c = (a, b) := by
  induction m with
  | nil =>
    rw [Memory.write] at h
    split at h <;> simp_all
  | cons d m ih =>
    obtain ⟨k, v⟩ := d
    rw [Memory.write] at h
    split at h
    · split at h
      · exact .inl h
      · simpa [or_comm, or_assoc] using h
    · split at h
      · split at h
        · exact .inl (by simp [h])
        · rcases List.mem_cons.mp h with h | h
          · exact .inr h
          · exact .inl (by simp [h])
      · rcases List.mem_cons.mp h with h | h
        · exact .inl (by simp [h])
        · rcases ih h with h | h
          · exact .inl (by simp [h])
          · exact .inr h

/-- A write keeps the canonical form. -/
theorem Memory.wf_write {m : Memory} (a : Nat) (b : Byte) (h : m.wf = true) : (m.write a b).wf = true := by
  induction m with
  | nil => rw [Memory.write]; split <;> simp_all [Memory.wf]
  | cons c m ih =>
    obtain ⟨k, v⟩ := c
    obtain ⟨hv, hk, hm⟩ := Memory.wf_cons.mp h
    rw [Memory.write]
    split
    · next hak =>
      split
      · exact h
      · next hb => exact Memory.wf_cons.mpr ⟨hb, by simpa using ⟨hak, fun c v hc => lt_trans hak (hk (c, v) hc)⟩, h⟩
    · split
      · next hak =>
        subst hak
        split
        · exact hm
        · next hb => exact Memory.wf_cons.mpr ⟨hb, hk, hm⟩
      · next h1 h2 =>
        refine Memory.wf_cons.mpr ⟨hv, fun c hc => ?_, ih hm⟩
        rcases Memory.mem_write hc with hc | rfl
        · exact hk c hc
        · simp only; omega

/-- A read after a write: the value written at its address, and elsewhere what was there. -/
theorem Memory.read_write {m : Memory} (a : Nat) (b : Byte) (c : Nat) (h : m.wf = true) :
    (m.write a b).read c = if c = a then b else m.read c := by
  induction m with
  | nil => rw [Memory.write]; split <;> simp_all [Memory.read, eq_comm (a := a)]
  | cons d m ih =>
    obtain ⟨k, v⟩ := d
    obtain ⟨hv, hk, hm⟩ := Memory.wf_cons.mp h
    rw [Memory.write]
    split
    · next hak =>
      split
      · next hb =>
        split
        · next hc =>
          subst hc
          rw [hb]
          refine Memory.read_of_not_listed fun d hd => ?_
          rcases List.mem_cons.mp hd with rfl | hd
          · exact (by simp only; omega)
          · have := hk d hd; omega
        · rfl
      · simp only [Memory.read, eq_comm]
    · split
      · next hak =>
        subst hak
        split
        · next hb =>
          split
          · next hc =>
            subst hc
            rw [hb]
            exact Memory.read_of_not_listed fun d hd => by have := hk d hd; omega
          · next hc => simp [Memory.read, Ne.symm hc]
        · simp only [Memory.read, eq_comm]
          split <;> rfl
      · next h1 h2 =>
        rw [Memory.read, Memory.read, ih hm]
        split
        · next hkc => rw [if_neg (by omega)]
        · rfl

@[simp] theorem Memory.read_write_same {m : Memory} (a : Nat) (b : Byte) (h : m.wf = true) :
    (m.write a b).read a = b := by rw [Memory.read_write a b a h, if_pos rfl]

theorem Memory.read_write_ne {m : Memory} {a c : Nat} (b : Byte) (h : m.wf = true) (hc : c ≠ a) :
    (m.write a b).read c = m.read c := by rw [Memory.read_write a b c h, if_neg hc]

/-- Memories in canonical form that read alike are the same data. -/
theorem Memory.ext_of_wf {m n : Memory} (hm : m.wf = true) (hn : n.wf = true) (h : ∀ a, m.read a = n.read a) :
    m = n := by
  induction m generalizing n with
  | nil =>
    cases n with
    | nil => rfl
    | cons d n =>
      obtain ⟨k, v⟩ := d
      obtain ⟨hv, -, -⟩ := Memory.wf_cons.mp hn
      have := h k
      simp [Memory.read] at this
      exact absurd this.symm hv
  | cons c m ih =>
    obtain ⟨k, v⟩ := c
    obtain ⟨hv, hk, hm'⟩ := Memory.wf_cons.mp hm
    cases n with
    | nil =>
      have := h k
      simp [Memory.read] at this
      exact absurd this hv
    | cons d n =>
      obtain ⟨l, w⟩ := d
      obtain ⟨hw, hl, hn'⟩ := Memory.wf_cons.mp hn
      have hkl : k = l := by
        rcases lt_trichotomy k l with hlt | heq | hgt
        · have h1 := h k
          rw [Memory.read, if_pos rfl, Memory.read_of_not_listed (m := (l, w) :: n)] at h1
          · exact absurd h1 hv
          · intro d hd
            rcases List.mem_cons.mp hd with rfl | hd
            · exact (by simp only; omega)
            · have := hl d hd; omega
        · exact heq
        · have h1 := h l
          rw [Memory.read_of_not_listed (m := (k, v) :: m), Memory.read, if_pos rfl] at h1
          · exact absurd h1.symm hw
          · intro d hd
            rcases List.mem_cons.mp hd with rfl | hd
            · exact (by simp only; omega)
            · have := hk d hd; omega
      subst hkl
      have hvw : v = w := by simpa [Memory.read] using h k
      subst hvw
      rw [ih hm' hn' fun a => ?_]
      by_cases hak : k = a
      · subst hak
        rw [Memory.read_of_not_listed, Memory.read_of_not_listed]
        · intro d hd; have := hl d hd; omega
        · intro d hd; have := hk d hd; omega
      · simpa [Memory.read, hak] using h a

/-- A sequence of writes keeps the canonical form. -/
theorem Memory.wf_writeBytes {m : Memory} (a : Nat) (bs : List Byte) (h : m.wf = true) :
    (m.writeBytes a bs).wf = true := by
  induction bs generalizing m a with
  | nil => exact h
  | cons b bs ih => exact ih (a + 1) (Memory.wf_write a b h)

/-- Reads after a sequence of writes: the bytes written in their range, and elsewhere what was there. -/
theorem Memory.read_writeBytes {m : Memory} (a : Nat) (bs : List Byte) (c : Nat) (h : m.wf = true) :
    (m.writeBytes a bs).read c = if a ≤ c ∧ c < a + bs.length then bs.getD (c - a) 0 else m.read c := by
  induction bs generalizing m a with
  | nil => rw [Memory.writeBytes, if_neg (by simp)]
  | cons b bs ih =>
    rw [Memory.writeBytes, ih (a + 1) (Memory.wf_write a b h), Memory.read_write a b c h]
    simp only [List.length_cons]
    by_cases hc : c = a
    · subst hc; simp
    · by_cases hr : a + 1 ≤ c ∧ c < a + 1 + bs.length
      · rw [if_pos hr, if_pos (by omega), show c - a = (c - (a + 1)) + 1 by omega]; simp
      · rw [if_neg hr, if_neg hc, if_neg (by omega)]

@[simp] theorem Memory.length_readBytes (m : Memory) (a n : Nat) : (m.readBytes a n).length = n := by
  induction n generalizing a with
  | zero => rfl
  | succ n ih => simp [Memory.readBytes, ih]

/-- The bytes that `MemRead` gives. -/
theorem Memory.getElem_readBytes (m : Memory) (a n i : Nat) (h : i < (m.readBytes a n).length) :
    (m.readBytes a n)[i] = m.read (a + i) := by
  induction n generalizing a i with
  | zero => simp at h
  | succ n ih =>
    cases i with
    | zero => simp [Memory.readBytes]
    | succ i => simp only [Memory.readBytes, List.getElem_cons_succ]; rw [ih]; congr 1; omega

theorem Memory.getD_readBytes (m : Memory) (a n i : Nat) (h : i < n) :
    (m.readBytes a n).getD i 0 = m.read (a + i) := by
  rw [List.getD_eq_getElem _ _ (by simpa using h), Memory.getElem_readBytes]

/-- `MemRead` depends only on the bytes it reads. -/
theorem Memory.readBytes_congr {m m' : Memory} {a a' n : Nat} (h : ∀ i < n, m.read (a + i) = m'.read (a' + i)) :
    m.readBytes a n = m'.readBytes a' n := by
  refine List.ext_getElem (by simp) fun i h1 h2 => ?_
  rw [Memory.getElem_readBytes, Memory.getElem_readBytes]
  exact h i (by simpa using h1)

/-- A `MemRead` whose bytes are known. -/
theorem Memory.readBytes_eq {m : Memory} {a : Nat} {l : List Byte} (h : ∀ i < l.length, m.read (a + i) = l.getD i 0) :
    m.readBytes a l.length = l := by
  refine List.ext_getElem (by simp) fun i h1 h2 => ?_
  rw [Memory.getElem_readBytes, h i h2, List.getD_eq_getElem _ _ h2]

theorem Memory.readBytes_add (m : Memory) (a n k : Nat) :
    m.readBytes a (n + k) = m.readBytes a n ++ m.readBytes (a + n) k := by
  induction n generalizing a with
  | zero => simp [Memory.readBytes]
  | succ n ih =>
    rw [show n + 1 + k = (n + k) + 1 by omega, Memory.readBytes, Memory.readBytes, ih, Nat.add_right_comm a 1 n]
    rfl

/-- Reading back what was written. -/
theorem Memory.readBytes_writeBytes {m : Memory} (a : Nat) (bs : List Byte) (h : m.wf = true) :
    (m.writeBytes a bs).readBytes a bs.length = bs :=
  Memory.readBytes_eq fun i hi => by
    rw [Memory.read_writeBytes a bs (a + i) h, if_pos (by omega), Nat.add_sub_cancel_left]

/-- A write inside a capacity stays inside it. -/
theorem Memory.within_write {m : Memory} {cap a : Nat} (b : Byte) (h : m.within cap = true) (ha : a < cap) :
    (m.write a b).within cap = true := by
  simp only [Memory.within, List.all_eq_true, decide_eq_true_eq] at *
  intro c hc
  rcases Memory.mem_write hc with hc | rfl
  · exact h c hc
  · exact ha

theorem Memory.within_writeBytes {m : Memory} {cap a : Nat} (bs : List Byte) (h : m.within cap = true)
    (ha : a + bs.length ≤ cap) : (m.writeBytes a bs).within cap = true := by
  induction bs generalizing m a with
  | nil => exact h
  | cons b bs ih =>
    simp only [List.length_cons] at ha
    exact ih (Memory.within_write b h (by omega)) (by omega)

/-- The memories of the state after reset are in canonical form. -/
theorem reset_memories_wf : State.reset.wbuf.wf = true ∧ State.reset.rbuf.wf = true := by decide

end Sys2Proof.Machine
end

