-- ==== Sys2Proof/Laws/State.lean ====
section
/-! SUPPORT. One lemma per field per update of the state. -/

namespace Sys2Proof.Machine

section
variable (s : State)

/-! `State.endCommand` -/

@[simp] theorem State.endCommand_par : s.endCommand.par = s.par := rfl
@[simp] theorem State.endCommand_wbuf : s.endCommand.wbuf = s.wbuf := rfl
@[simp] theorem State.endCommand_rbuf : s.endCommand.rbuf = s.rbuf := rfl
@[simp] theorem State.endCommand_readLen : s.endCommand.readLen = s.readLen := rfl
@[simp] theorem State.endCommand_used : s.endCommand.used = s.used := rfl
@[simp] theorem State.endCommand_baud : s.endCommand.baud = s.baud := rfl
@[simp] theorem State.endCommand_skipped : s.endCommand.skipped = s.skipped := rfl
@[simp] theorem State.endCommand_dl : s.endCommand.dl = s.dl := rfl
@[simp] theorem State.endCommand_phase : s.endCommand.phase = .idle := rfl
@[simp] theorem State.endCommand_seq : s.endCommand.seq = .idle := rfl
@[simp] theorem State.endCommand_view : s.endCommand.view = s.view := rfl
@[simp] theorem State.endCommand_refusal : s.endCommand.refusal = s.refusal := rfl
@[simp] theorem State.endCommand_exchange : s.endCommand.exchange = none := rfl
@[simp] theorem State.endCommand_result : s.endCommand.result = s.result := rfl
@[simp] theorem State.endCommand_inbox : s.endCommand.inbox = s.inbox := rfl
@[simp] theorem State.endCommand_pending : s.endCommand.pending = s.pending := rfl
@[simp] theorem State.endCommand_discards : s.endCommand.discards = s.discards := rfl
@[simp] theorem State.endCommand_writes : s.endCommand.writes = s.writes := rfl
@[simp] theorem State.endCommand_reads : s.endCommand.reads = s.reads := rfl
@[simp] theorem State.endCommand_calls : s.endCommand.calls = s.calls := rfl
@[simp] theorem State.endCommand_drawn : s.endCommand.drawn = s.drawn := rfl

/-! `State.deliver` -/

@[simp] theorem State.deliver_par (r : Result) : (s.deliver r).par = s.par := rfl
@[simp] theorem State.deliver_wbuf (r : Result) : (s.deliver r).wbuf = s.wbuf := rfl
@[simp] theorem State.deliver_rbuf (r : Result) : (s.deliver r).rbuf = s.rbuf := rfl
@[simp] theorem State.deliver_readLen (r : Result) : (s.deliver r).readLen = s.readLen := rfl
@[simp] theorem State.deliver_used (r : Result) : (s.deliver r).used = s.used := rfl
@[simp] theorem State.deliver_baud (r : Result) : (s.deliver r).baud = s.baud := rfl
@[simp] theorem State.deliver_skipped (r : Result) : (s.deliver r).skipped = s.skipped := rfl
@[simp] theorem State.deliver_dl (r : Result) : (s.deliver r).dl = s.dl := rfl
@[simp] theorem State.deliver_phase (r : Result) : (s.deliver r).phase = .idle := rfl
@[simp] theorem State.deliver_seq (r : Result) : (s.deliver r).seq = .idle := rfl
@[simp] theorem State.deliver_view (r : Result) : (s.deliver r).view = s.view := rfl
@[simp] theorem State.deliver_refusal (r : Result) : (s.deliver r).refusal = s.refusal := rfl
@[simp] theorem State.deliver_exchange (r : Result) : (s.deliver r).exchange = none := rfl
@[simp] theorem State.deliver_result (r : Result) : (s.deliver r).result = some r := rfl
@[simp] theorem State.deliver_inbox (r : Result) : (s.deliver r).inbox = s.inbox := rfl
@[simp] theorem State.deliver_pending (r : Result) : (s.deliver r).pending = s.pending := rfl
@[simp] theorem State.deliver_discards (r : Result) : (s.deliver r).discards = s.discards := rfl
@[simp] theorem State.deliver_writes (r : Result) : (s.deliver r).writes = s.writes := rfl
@[simp] theorem State.deliver_reads (r : Result) : (s.deliver r).reads = s.reads := rfl
@[simp] theorem State.deliver_calls (r : Result) : (s.deliver r).calls = s.calls := rfl
@[simp] theorem State.deliver_drawn (r : Result) : (s.deliver r).drawn = s.drawn := rfl

/-! `State.raise` -/

@[simp] theorem State.raise_par (f : Failure) : (s.raise f).par = s.par := rfl
@[simp] theorem State.raise_wbuf (f : Failure) : (s.raise f).wbuf = s.wbuf := rfl
@[simp] theorem State.raise_rbuf (f : Failure) : (s.raise f).rbuf = s.rbuf := rfl
@[simp] theorem State.raise_readLen (f : Failure) : (s.raise f).readLen = s.readLen := rfl
@[simp] theorem State.raise_used (f : Failure) : (s.raise f).used = s.used := rfl
@[simp] theorem State.raise_baud (f : Failure) : (s.raise f).baud = s.baud := rfl
@[simp] theorem State.raise_skipped (f : Failure) : (s.raise f).skipped = s.skipped := rfl
@[simp] theorem State.raise_dl (f : Failure) : (s.raise f).dl = s.dl := rfl
@[simp] theorem State.raise_phase (f : Failure) : (s.raise f).phase = .idle := rfl
@[simp] theorem State.raise_seq (f : Failure) : (s.raise f).seq = .idle := rfl
@[simp] theorem State.raise_view (f : Failure) : (s.raise f).view = s.view := rfl
@[simp] theorem State.raise_refusal (f : Failure) : (s.raise f).refusal = s.refusal := rfl
@[simp] theorem State.raise_exchange (f : Failure) : (s.raise f).exchange = none := rfl
@[simp] theorem State.raise_result (f : Failure) : (s.raise f).result = some (.failed f s.skipped) := rfl
@[simp] theorem State.raise_inbox (f : Failure) : (s.raise f).inbox = s.inbox := rfl
@[simp] theorem State.raise_pending (f : Failure) : (s.raise f).pending = s.pending := rfl
@[simp] theorem State.raise_discards (f : Failure) : (s.raise f).discards = s.discards := rfl
@[simp] theorem State.raise_writes (f : Failure) : (s.raise f).writes = s.writes := rfl
@[simp] theorem State.raise_reads (f : Failure) : (s.raise f).reads = s.reads := rfl
@[simp] theorem State.raise_calls (f : Failure) : (s.raise f).calls = s.calls := rfl
@[simp] theorem State.raise_drawn (f : Failure) : (s.raise f).drawn = s.drawn := rfl

/-! `State.refuse` -/

@[simp] theorem State.refuse_par (r : RefusalInfo) : (s.refuse r).par = s.par := rfl
@[simp] theorem State.refuse_wbuf (r : RefusalInfo) : (s.refuse r).wbuf = s.wbuf := rfl
@[simp] theorem State.refuse_rbuf (r : RefusalInfo) : (s.refuse r).rbuf = s.rbuf := rfl
@[simp] theorem State.refuse_readLen (r : RefusalInfo) : (s.refuse r).readLen = s.readLen := rfl
@[simp] theorem State.refuse_used (r : RefusalInfo) : (s.refuse r).used = s.used := rfl
@[simp] theorem State.refuse_baud (r : RefusalInfo) : (s.refuse r).baud = s.baud := rfl
@[simp] theorem State.refuse_skipped (r : RefusalInfo) : (s.refuse r).skipped = s.skipped := rfl
@[simp] theorem State.refuse_dl (r : RefusalInfo) : (s.refuse r).dl = s.dl := rfl
@[simp] theorem State.refuse_phase (r : RefusalInfo) : (s.refuse r).phase = .idle := rfl
@[simp] theorem State.refuse_seq (r : RefusalInfo) : (s.refuse r).seq = .idle := rfl
@[simp] theorem State.refuse_view (r : RefusalInfo) : (s.refuse r).view = s.view := rfl
@[simp] theorem State.refuse_refusal (r : RefusalInfo) : (s.refuse r).refusal = true := rfl
@[simp] theorem State.refuse_exchange (r : RefusalInfo) : (s.refuse r).exchange = none := rfl
@[simp] theorem State.refuse_result (r : RefusalInfo) : (s.refuse r).result = some (.refused r) := rfl
@[simp] theorem State.refuse_inbox (r : RefusalInfo) : (s.refuse r).inbox = s.inbox := rfl
@[simp] theorem State.refuse_pending (r : RefusalInfo) : (s.refuse r).pending = s.pending := rfl
@[simp] theorem State.refuse_discards (r : RefusalInfo) : (s.refuse r).discards = s.discards := rfl
@[simp] theorem State.refuse_writes (r : RefusalInfo) : (s.refuse r).writes = s.writes := rfl
@[simp] theorem State.refuse_reads (r : RefusalInfo) : (s.refuse r).reads = s.reads := rfl
@[simp] theorem State.refuse_calls (r : RefusalInfo) : (s.refuse r).calls = s.calls := rfl
@[simp] theorem State.refuse_drawn (r : RefusalInfo) : (s.refuse r).drawn = s.drawn := rfl

/-! `State.callTransport` -/

@[simp] theorem State.callTransport_par (c : Call) : (s.callTransport c).par = s.par := rfl
@[simp] theorem State.callTransport_wbuf (c : Call) : (s.callTransport c).wbuf = s.wbuf := rfl
@[simp] theorem State.callTransport_rbuf (c : Call) : (s.callTransport c).rbuf = s.rbuf := rfl
@[simp] theorem State.callTransport_readLen (c : Call) : (s.callTransport c).readLen = s.readLen := rfl
@[simp] theorem State.callTransport_used (c : Call) : (s.callTransport c).used = s.used := rfl
@[simp] theorem State.callTransport_baud (c : Call) : (s.callTransport c).baud = s.baud := rfl
@[simp] theorem State.callTransport_skipped (c : Call) : (s.callTransport c).skipped = s.skipped := rfl
@[simp] theorem State.callTransport_dl (c : Call) : (s.callTransport c).dl = s.dl := rfl
@[simp] theorem State.callTransport_phase (c : Call) : (s.callTransport c).phase = s.phase := rfl
@[simp] theorem State.callTransport_seq (c : Call) : (s.callTransport c).seq = s.seq := rfl
@[simp] theorem State.callTransport_view (c : Call) : (s.callTransport c).view = s.view := rfl
@[simp] theorem State.callTransport_refusal (c : Call) : (s.callTransport c).refusal = s.refusal := rfl
@[simp] theorem State.callTransport_exchange (c : Call) : (s.callTransport c).exchange = s.exchange := rfl
@[simp] theorem State.callTransport_result (c : Call) : (s.callTransport c).result = s.result := rfl
@[simp] theorem State.callTransport_inbox (c : Call) : (s.callTransport c).inbox = s.inbox := rfl
@[simp] theorem State.callTransport_pending (c : Call) : (s.callTransport c).pending = s.pending := rfl
@[simp] theorem State.callTransport_discards (c : Call) : (s.callTransport c).discards = s.discards := rfl
@[simp] theorem State.callTransport_writes (c : Call) : (s.callTransport c).writes = s.writes := rfl
@[simp] theorem State.callTransport_reads (c : Call) : (s.callTransport c).reads = s.reads := rfl
@[simp] theorem State.callTransport_calls (c : Call) : (s.callTransport c).calls = s.calls ++ [c] := rfl
@[simp] theorem State.callTransport_drawn (c : Call) : (s.callTransport c).drawn = s.drawn := rfl

/-! `issueRead` -/

@[simp] theorem issueRead_par : (issueRead s).par = s.par := rfl
@[simp] theorem issueRead_wbuf : (issueRead s).wbuf = s.wbuf := rfl
@[simp] theorem issueRead_rbuf : (issueRead s).rbuf = s.rbuf := rfl
@[simp] theorem issueRead_readLen : (issueRead s).readLen = s.readLen := rfl
@[simp] theorem issueRead_used : (issueRead s).used = s.used := rfl
@[simp] theorem issueRead_baud : (issueRead s).baud = s.baud := rfl
@[simp] theorem issueRead_skipped : (issueRead s).skipped = s.skipped := rfl
@[simp] theorem issueRead_dl : (issueRead s).dl = s.dl := rfl
@[simp] theorem issueRead_phase : (issueRead s).phase = s.phase := rfl
@[simp] theorem issueRead_seq : (issueRead s).seq = s.seq := rfl
@[simp] theorem issueRead_view : (issueRead s).view = s.view := rfl
@[simp] theorem issueRead_refusal : (issueRead s).refusal = s.refusal := rfl
@[simp] theorem issueRead_exchange : (issueRead s).exchange = s.exchange := rfl
@[simp] theorem issueRead_result : (issueRead s).result = s.result := rfl
@[simp] theorem issueRead_inbox : (issueRead s).inbox = s.inbox := rfl
@[simp] theorem issueRead_pending : (issueRead s).pending = s.pending := rfl
@[simp] theorem issueRead_discards : (issueRead s).discards = s.discards := rfl
@[simp] theorem issueRead_writes : (issueRead s).writes = s.writes := rfl
@[simp] theorem issueRead_reads : (issueRead s).reads = s.reads := rfl
@[simp] theorem issueRead_calls : (issueRead s).calls = s.calls ++ [.read s.readLen s.room s.dl] := rfl
@[simp] theorem issueRead_drawn : (issueRead s).drawn = s.drawn := rfl

/-! `resync` -/

@[simp] theorem resync_par : (resync s).par = s.par := rfl
@[simp] theorem resync_wbuf : (resync s).wbuf = s.wbuf := rfl
@[simp] theorem resync_rbuf : (resync s).rbuf = s.rbuf.writeBytes 0 (s.rbuf.readBytes (s.used + garbage s.tail) (s.readLen - (s.used + garbage s.tail))) := rfl
@[simp] theorem resync_readLen : (resync s).readLen = s.readLen - (s.used + garbage s.tail) := rfl
@[simp] theorem resync_used : (resync s).used = 0 := rfl
@[simp] theorem resync_baud : (resync s).baud = s.baud := rfl
@[simp] theorem resync_skipped : (resync s).skipped = s.skipped + garbage s.tail := rfl
@[simp] theorem resync_dl : (resync s).dl = s.dl := rfl
@[simp] theorem resync_phase : (resync s).phase = .check := rfl
@[simp] theorem resync_seq : (resync s).seq = s.seq := rfl
@[simp] theorem resync_view : (resync s).view = s.view := rfl
@[simp] theorem resync_refusal : (resync s).refusal = s.refusal := rfl
@[simp] theorem resync_exchange : (resync s).exchange = s.exchange := rfl
@[simp] theorem resync_result : (resync s).result = s.result := rfl
@[simp] theorem resync_inbox : (resync s).inbox = s.inbox := rfl
@[simp] theorem resync_pending : (resync s).pending = s.pending := rfl
@[simp] theorem resync_discards : (resync s).discards = s.discards := rfl
@[simp] theorem resync_writes : (resync s).writes = s.writes := rfl
@[simp] theorem resync_reads : (resync s).reads = s.reads := rfl
@[simp] theorem resync_calls : (resync s).calls = s.calls := rfl
@[simp] theorem resync_drawn : (resync s).drawn = s.drawn := rfl

/-! `collectStart` -/

@[simp] theorem collectStart_par (nexp : Nat) : (collectStart nexp s).par = s.par := rfl
@[simp] theorem collectStart_wbuf (nexp : Nat) : (collectStart nexp s).wbuf = s.wbuf := rfl
@[simp] theorem collectStart_rbuf (nexp : Nat) : (collectStart nexp s).rbuf = s.rbuf := rfl
@[simp] theorem collectStart_readLen (nexp : Nat) : (collectStart nexp s).readLen = s.readLen := rfl
@[simp] theorem collectStart_used (nexp : Nat) : (collectStart nexp s).used = s.used := rfl
@[simp] theorem collectStart_baud (nexp : Nat) : (collectStart nexp s).baud = s.baud := rfl
@[simp] theorem collectStart_skipped (nexp : Nat) : (collectStart nexp s).skipped = 0 := rfl
@[simp] theorem collectStart_dl (nexp : Nat) : (collectStart nexp s).dl = Config.makeDeadline (deadlineDuration s.baud nexp) s.drawn := rfl
@[simp] theorem collectStart_phase (nexp : Nat) : (collectStart nexp s).phase = .resync := rfl
@[simp] theorem collectStart_seq (nexp : Nat) : (collectStart nexp s).seq = s.seq := rfl
@[simp] theorem collectStart_view (nexp : Nat) : (collectStart nexp s).view = s.view := rfl
@[simp] theorem collectStart_refusal (nexp : Nat) : (collectStart nexp s).refusal = s.refusal := rfl
@[simp] theorem collectStart_exchange (nexp : Nat) : (collectStart nexp s).exchange = s.exchange := rfl
@[simp] theorem collectStart_result (nexp : Nat) : (collectStart nexp s).result = s.result := rfl
@[simp] theorem collectStart_inbox (nexp : Nat) : (collectStart nexp s).inbox = s.inbox := rfl
@[simp] theorem collectStart_pending (nexp : Nat) : (collectStart nexp s).pending = s.pending := rfl
@[simp] theorem collectStart_discards (nexp : Nat) : (collectStart nexp s).discards = s.discards := rfl
@[simp] theorem collectStart_writes (nexp : Nat) : (collectStart nexp s).writes = s.writes := rfl
@[simp] theorem collectStart_reads (nexp : Nat) : (collectStart nexp s).reads = s.reads := rfl
@[simp] theorem collectStart_calls (nexp : Nat) : (collectStart nexp s).calls = s.calls ++ [.makeDeadline (deadlineDuration s.baud nexp)] := rfl
@[simp] theorem collectStart_drawn (nexp : Nat) : (collectStart nexp s).drawn = s.drawn + 1 := rfl

/-! `State.withFetchWord` -/

@[simp] theorem State.withFetchWord_par (nbits w : Nat) : (s.withFetchWord nbits w).par = s.par := rfl
@[simp] theorem State.withFetchWord_wbuf (nbits w : Nat) : (s.withFetchWord nbits w).wbuf = s.wbuf := rfl
@[simp] theorem State.withFetchWord_rbuf (nbits w : Nat) : (s.withFetchWord nbits w).rbuf = s.rbuf := rfl
@[simp] theorem State.withFetchWord_readLen (nbits w : Nat) : (s.withFetchWord nbits w).readLen = s.readLen := rfl
@[simp] theorem State.withFetchWord_used (nbits w : Nat) : (s.withFetchWord nbits w).used = s.used := rfl
@[simp] theorem State.withFetchWord_baud (nbits w : Nat) : (s.withFetchWord nbits w).baud = s.baud := rfl
@[simp] theorem State.withFetchWord_skipped (nbits w : Nat) : (s.withFetchWord nbits w).skipped = s.skipped := rfl
@[simp] theorem State.withFetchWord_dl (nbits w : Nat) : (s.withFetchWord nbits w).dl = s.dl := rfl
@[simp] theorem State.withFetchWord_phase (nbits w : Nat) : (s.withFetchWord nbits w).phase = s.phase := rfl
@[simp] theorem State.withFetchWord_seq (nbits w : Nat) : (s.withFetchWord nbits w).seq = s.seq := rfl
@[simp] theorem State.withFetchWord_view (nbits w : Nat) : (s.withFetchWord nbits w).view = s.view := rfl
@[simp] theorem State.withFetchWord_refusal (nbits w : Nat) : (s.withFetchWord nbits w).refusal = s.refusal := rfl
@[simp] theorem State.withFetchWord_exchange (nbits w : Nat) : (s.withFetchWord nbits w).exchange = s.exchange := rfl
@[simp] theorem State.withFetchWord_result (nbits w : Nat) : (s.withFetchWord nbits w).result = s.result := rfl
@[simp] theorem State.withFetchWord_inbox (nbits w : Nat) : (s.withFetchWord nbits w).inbox = .issue (tableWord s.par.opc nbits w) :: s.inbox := rfl
@[simp] theorem State.withFetchWord_pending (nbits w : Nat) : (s.withFetchWord nbits w).pending = s.pending := rfl
@[simp] theorem State.withFetchWord_discards (nbits w : Nat) : (s.withFetchWord nbits w).discards = s.discards := rfl
@[simp] theorem State.withFetchWord_writes (nbits w : Nat) : (s.withFetchWord nbits w).writes = s.writes := rfl
@[simp] theorem State.withFetchWord_reads (nbits w : Nat) : (s.withFetchWord nbits w).reads = s.reads := rfl
@[simp] theorem State.withFetchWord_calls (nbits w : Nat) : (s.withFetchWord nbits w).calls = s.calls := rfl
@[simp] theorem State.withFetchWord_drawn (nbits w : Nat) : (s.withFetchWord nbits w).drawn = s.drawn := rfl

/-! What the framer reads of a state does not depend on the fields that these updates write. -/

theorem State.messageLength_congr (t : State) (h : t.rbuf = s.rbuf) : t.messageLength = s.messageLength := by
  rw [State.messageLength, State.messageLength, h]

end

end Sys2Proof.Machine
end

