-- ==== Sys2Proof/Laws/Framer.lean ====
section
/-! SUPPORT. What each micro-step of the encoder and of the framer can do, said once. -/

namespace Sys2Proof.Machine

@[simp] theorem length_requestPacket (id ins : Byte) (params : List Byte) :
    (requestPacket id ins params).length = params.length + 6 := by
  simp [requestPacket]

@[simp] theorem length_responsePacket (id : Byte) (body : List Byte) :
    (responsePacket id body).length = body.length + 4 := by
  simp [responsePacket]

/-- The memory after the writes of an encode reads as the packet, and elsewhere as before (spec 41 R142, R144). -/
theorem read_encoded {w : Memory} (h : w.wf = true) (id ins : Byte) (params : List Byte) (a : Nat) :
    let w1 := ((((w.write 0 Config.hdr).write 1 Config.hdr).write 2 id).write 3 (lenByte params.length)).write 4 ins
    let w2 := w1.writeBytes 5 params
    (w2.write (params.length + 5) (checksum (w2.readBytes 2 (params.length + 3)))).read a =
      if a < params.length + 6 then (requestPacket id ins params).getD a 0 else w.read a := by
  intro w1 w2
  have h0 := Memory.wf_write 0 Config.hdr h
  have h1 := Memory.wf_write 1 Config.hdr h0
  have h2 := Memory.wf_write 2 id h1
  have h3 := Memory.wf_write 3 (lenByte params.length) h2
  have hw1 : w1.wf = true := Memory.wf_write 4 ins h3
  have hw2 : w2.wf = true := Memory.wf_writeBytes 5 params hw1
  have r1 : ∀ c, w1.read c = if c = 4 then ins else if c = 3 then lenByte params.length else if c = 2 then id
      else if c = 1 then Config.hdr else if c = 0 then Config.hdr else w.read c := by
    intro c
    rw [Memory.read_write _ _ _ h3, Memory.read_write _ _ _ h2, Memory.read_write _ _ _ h1, Memory.read_write _ _ _ h0,
      Memory.read_write _ _ _ h]
  have r2 : ∀ c, w2.read c = if 5 ≤ c ∧ c < 5 + params.length then params.getD (c - 5) 0 else w1.read c :=
    fun c => Memory.read_writeBytes 5 params c hw1
  have hbody : w2.readBytes 2 (params.length + 3) = [id, lenByte params.length, ins] ++ params := by
    rw [show params.length + 3 = ([id, lenByte params.length, ins] ++ params).length by simp]
    refine Memory.readBytes_eq fun i hi => ?_
    rw [r2, r1]
    match i with
    | 0 => simp
    | 1 => simp
    | 2 => simp
    | i + 3 =>
      have : i < params.length := by simpa using hi
      rw [if_pos (by omega), show 2 + (i + 3) - 5 = i by omega]
      simp
  rw [Memory.read_write _ _ _ hw2, hbody, r2, r1]
  by_cases ha : a = params.length + 5
  · subst ha
    simp [requestPacket, List.getD_eq_getElem?_getD]
  · rw [if_neg ha]
    match a with
    | 0 => simp [requestPacket]
    | 1 => simp [requestPacket]
    | 2 => simp [requestPacket]
    | 3 => simp [requestPacket]
    | 4 => simp [requestPacket]
    | a + 5 =>
      by_cases hp : a < params.length
      · rw [if_pos (by omega), if_pos (by omega)]
        simp [requestPacket, List.getD_eq_getElem?_getD, List.getElem?_append_left hp]
      · rw [if_neg (by omega), if_neg (by omega), if_neg (by omega), if_neg (by omega), if_neg (by omega),
          if_neg (by omega), if_neg (by omega)]

/-- What the encoder can do: fail for one of two reasons with nothing written, or change `WBUF` alone, keeping its
canonical form and its bounds (spec 41 R142 to R144). -/
theorem encodePacket_cases (id ins : Byte) (params : List Byte) (s : State) :
    (s.par.capW < params.length + 6 ∧
      encodePacket id ins params s = .error (.bufferTooSmall (params.length + 6) s.par.capW .encode)) ∨
    (params.length + 6 ≤ s.par.capW ∧ 253 < params.length ∧
      encodePacket id ins params s = .error (.lengthOverflow params.length)) ∨
    (params.length + 6 ≤ s.par.capW ∧ params.length ≤ 253 ∧
      ∃ w : Memory, encodePacket id ins params s = .ok { s with wbuf := w } ∧
        (s.wbuf.wf = true → w.wf = true ∧
          ∀ a, w.read a = if a < params.length + 6 then (requestPacket id ins params).getD a 0 else s.wbuf.read a) ∧
        (s.wbuf.within s.par.capW = true → w.within s.par.capW = true)) := by
  by_cases h1 : s.par.capW < params.length + 6
  · exact .inl ⟨h1, by simp [encodePacket, h1]⟩
  by_cases h2 : 255 < params.length + 2
  · exact .inr (.inl ⟨by omega, by omega, by simp [encodePacket, h1, h2]⟩)
  refine .inr (.inr ⟨by omega, by omega, _, by simp [encodePacket, h1, h2]; rfl, fun h => ⟨?_, ?_⟩, fun h => ?_⟩)
  · exact Memory.wf_write _ _ (Memory.wf_writeBytes _ _ (Memory.wf_write _ _ (Memory.wf_write _ _ (Memory.wf_write _ _
      (Memory.wf_write _ _ (Memory.wf_write _ _ h))))))
  · exact read_encoded h id ins params
  · have hw : ∀ (m : Memory) (a : Nat) (b : Byte), m.within s.par.capW = true → a < params.length + 6 →
        (m.write a b).within s.par.capW = true := fun m a b hm ha => Memory.within_write b hm (by omega)
    exact hw _ _ _ (Memory.within_writeBytes _ (hw _ _ _ (hw _ _ _ (hw _ _ _ (hw _ _ _ (hw _ _ _ h (by omega))
      (by omega)) (by omega)) (by omega)) (by omega)) (by omega)) (by omega)

/-- After an encode, `WBUF[0..n+6)` is the packet. -/
theorem readBytes_encoded {w w' : Memory} {id ins : Byte} {params : List Byte}
    (h : ∀ a, w.read a = if a < params.length + 6 then (requestPacket id ins params).getD a 0 else w'.read a) :
    w.readBytes 0 (params.length + 6) = requestPacket id ins params := by
  rw [← length_requestPacket id ins params]
  refine Memory.readBytes_eq fun i hi => ?_
  rw [length_requestPacket] at hi
  rw [Nat.zero_add, h, if_pos hi]

/-- No more is garbage than there is. -/
theorem garbage_le_length (l : List Byte) : garbage l ≤ l.length := by
  induction l using garbage.induct with
  | case1 => simp [garbage]
  | case2 => simp [garbage]
  | case3 b hb => simp [garbage, hb]
  | case4 b0 b1 bs h => simp [garbage, h]
  | case5 b0 b1 bs h ih => rw [garbage, if_neg h]; simp only [List.length_cons] at *; omega

@[simp] theorem length_tail (s : State) : s.tail.length = s.readLen - s.used := Memory.length_readBytes _ _ _

/-- The front that a resync pass finds lies between `USED` and `READ_LEN` (spec 42 R163). -/
theorem front_le {s : State} (h : s.used ≤ s.readLen) : s.used + garbage s.tail ≤ s.readLen := by
  have := garbage_le_length s.tail
  rw [length_tail] at this
  omega

/-- What a check can do: ask for a read, fail for want of capacity, or go on to the verification (spec 42 R164,
R165). -/
theorem check_cases (s : State) :
    (check s = { s with phase := .read } ∧
      (s.readLen < 4 ∨ (4 ≤ s.readLen ∧ s.readLen < s.messageLength ∧ s.messageLength ≤ s.par.capR))) ∨
    (check s = s.raise (.bufferTooSmall s.messageLength s.par.capR .receive) ∧ 4 ≤ s.readLen ∧
      s.par.capR < s.messageLength) ∨
    (check s = { s with phase := .verify } ∧ 4 ≤ s.readLen ∧ s.messageLength ≤ s.readLen ∧
      s.messageLength ≤ s.par.capR) := by
  rw [check]
  split
  · exact .inl ⟨rfl, .inl ‹_›⟩
  · split
    · exact .inr (.inl ⟨rfl, by omega, ‹_›⟩)
    · split
      · exact .inr (.inr ⟨rfl, by omega, ‹_›, by omega⟩)
      · exact .inl ⟨rfl, .inr ⟨by omega, by omega, by omega⟩⟩

/-- What a verification can do (spec 42 R167). -/
theorem verify_cases (s : State) :
    (verify s = { s with used := s.used + s.messageLength, phase := .idle, view := some s.messageLength } ∧
      s.rbuf.read (s.messageLength - 1) = checksum (s.rbuf.readBytes 2 (s.messageLength - 3))) ∨
    (verify s = { s with used := s.used + s.messageLength, phase := .idle }.raise
        (.invalidChecksum (s.rbuf.read (s.messageLength - 1))
          (checksum (s.rbuf.readBytes 2 (s.messageLength - 3)))) ∧
      s.rbuf.read (s.messageLength - 1) ≠ checksum (s.rbuf.readBytes 2 (s.messageLength - 3))) := by
  rw [verify]
  by_cases h : s.rbuf.read (s.messageLength - 1) = checksum (s.rbuf.readBytes 2 (s.messageLength - 3))
  · exact .inl ⟨by simp [h], h⟩
  · exact .inr ⟨by simp [h], h⟩

/-- What taking a read's answer can do (spec 42 R166). -/
theorem takeRead_cases (a : ReadAnswer) (s : State) :
    (∃ bytes left, takeRead a s =
        { s with
          pending := left
          rbuf := s.rbuf.writeBytes s.readLen bytes
          readLen := s.readLen + bytes.length
          phase := .resync } ∧ bytes.length ≤ s.room) ∨
    (∃ k left, takeRead a s = { s with pending := left }.refuse (.transportContract k s.room) ∧ s.room < k) ∨
    (∃ e, takeRead a s = (s.callTransport (.isTimeoutError e)).raise .timeout) ∨
    (∃ e, takeRead a s = (s.callTransport (.isTimeoutError e)).raise (.readFailed e)) := by
  cases a with
  | ok arrived limit =>
    by_cases h : ((s.pending ++ arrived).take limit).length ≤ s.room
    · exact .inl ⟨_, _, by simp only [takeRead]; rw [if_pos h], h⟩
    · exact .inr (.inl ⟨_, _, by simp only [takeRead]; rw [if_neg h], by omega⟩)
  | err e timedOut =>
    cases timedOut
    · exact .inr (.inr (.inr ⟨e, rfl⟩))
    · exact .inr (.inr (.inl ⟨e, rfl⟩))

/-- What the micro-steps up to the next read can do (spec 42 R160). -/
theorem turn_cases (s : State) :
    (turn s = issueRead { resync s with phase := .read } ∧
      ((resync s).readLen < 4 ∨
        (4 ≤ (resync s).readLen ∧ (resync s).readLen < (resync s).messageLength ∧
          (resync s).messageLength ≤ s.par.capR))) ∨
    (turn s = (resync s).raise (.bufferTooSmall (resync s).messageLength s.par.capR .receive) ∧
      4 ≤ (resync s).readLen ∧ s.par.capR < (resync s).messageLength) ∨
    (turn s = verify { resync s with phase := .verify } ∧ 4 ≤ (resync s).readLen ∧
      (resync s).messageLength ≤ (resync s).readLen ∧ (resync s).messageLength ≤ s.par.capR) := by
  rcases check_cases (resync s) with ⟨h, hc⟩ | ⟨h, hc⟩ | ⟨h, hc⟩
  · exact .inl ⟨by simp only [turn, h], hc⟩
  · exact .inr (.inl ⟨by simp only [turn, h, State.raise_phase]; rfl, hc⟩)
  · exact .inr (.inr ⟨by simp only [turn, h], hc⟩)

/-- An induction over a collect: a property that taking an answer and a turn keep holds of the state in which the
collect waits or ends. -/
theorem awaitReads_keeps {P : State → Prop}
    (htake : ∀ a as t, t.phase = .read → P t → P (takeRead a { t with reads := as }))
    (hturn : ∀ t, t.phase = .resync → P t → P (turn t)) (as : List ReadAnswer) {s : State} (h : P s) :
    P (awaitReads as s) := by
  induction as generalizing s with
  | nil => exact h
  | cons a as ih =>
    rw [awaitReads]
    split
    · next hp =>
      have ht := htake a as s hp h
      simp only
      split
      · next hr => exact ih (hturn _ hr ht)
      · exact ht
    · exact h

end Sys2Proof.Machine
end

