-- ==== Sys2Proof/Laws/PerInstr.lean ====
section
/-! SUPPORT. The families of statements made per instruction. `PacketShape`: a command word that is a packet begins
with the prefix, and its length byte gives its length (spec 30 R91 to R93). -/

namespace Sys2Proof.Laws.PacketShape

/-- The bytes are a packet by its header: the prefix, and a length of 4 and the length byte (30 R93). -/
abbrev Shaped (bytes : List Byte) : Prop :=
  bytes.take 2 = [Config.hdr, Config.hdr] ∧ bytes.length = 4 + (bytes.getD 3 0).toNat

/-- If a well-formed instruction's command word is a packet, it has a packet's shape. -/
def Statement (i : Instr) : Prop :=
  ∀ (p : Params) (f : PacketForm), i.wellFormed p = true → (encode p i).form = .packet f → Shaped (encode p i).bytes

theorem requestPacket_shaped (id ins : Byte) (params : List Byte) (h : params.length ≤ 253) :
    Shaped (requestPacket id ins params) := by
  refine ⟨rfl, ?_⟩
  have : (BitVec.ofNat 8 (params.length + 2)).toNat = params.length + 2 := by simp; omega
  simp [requestPacket, lenByte] at *
  omega

theorem entriesBytes_length (es : List Entry) (h : es.all (fun e => e.val.length == 4) = true) :
    (entriesBytes es).length = 5 * es.length := by
  induction es with
  | nil => rfl
  | cons e es ih =>
    simp only [List.all_cons, Bool.and_eq_true, beq_iff_eq] at h
    simp [entriesBytes, entryBytes, ih h.2, h.1]
    omega

theorem mwriteWord_shaped (es : List Entry) (id ins : Byte) (o : OperandForm) (f : PacketForm)
    (w : CommandWord)
    (hw : w = if entriesFitPacket es then packetWord .mwrite id ins (entriesBytes es)
      else { form := .operands o, bytes := id :: countedEntries es })
    (h : w.form = .packet f) : Shaped w.bytes := by
  subst hw
  split at h
  · next hf =>
    rw [if_pos hf]
    simp only [entriesFitPacket, Bool.and_eq_true, decide_eq_true_eq] at hf
    exact requestPacket_shaped _ _ _ (by rw [entriesBytes_length es hf.1]; omega)
  · simp at h

theorem insPing : Statement .insPing := fun _ _ _ h => by simp [encode] at h

theorem insReadStatus : Statement .insReadStatus := fun _ _ _ h => by simp [encode] at h

theorem insWriteStatus : Statement .insWriteStatus := fun _ _ _ h => by simp [encode] at h

theorem insReadConfig : Statement .insReadConfig := fun _ _ _ h => by simp [encode] at h

theorem insWriteConfig : Statement .insWriteConfig := fun _ _ _ h => by simp [encode] at h

theorem insSaveConfig : Statement .insSaveConfig := fun _ _ _ h => by simp [encode] at h

theorem insBulkComm : Statement .insBulkComm := fun _ _ _ h => by simp [encode] at h

theorem ping (id : Byte) : Statement (.ping id) := fun _ _ _ _ => requestPacket_shaped _ _ _ (by simp)

theorem readStatus (id : Byte) (a : Byte) : Statement (.readStatus id a) :=
  fun _ _ _ _ => requestPacket_shaped _ _ _ (by simp)

theorem readConfig (id : Byte) (a : Byte) : Statement (.readConfig id a) :=
  fun _ _ _ _ => requestPacket_shaped _ _ _ (by simp)

theorem writeStatus1 (id : Byte) (a : Byte) (v : BitVec 8) : Statement (.writeStatus1 id a v) :=
  fun _ _ _ _ => requestPacket_shaped _ _ _ (by simp [leBytes])

theorem writeStatus2 (id : Byte) (a : Byte) (v : BitVec 16) : Statement (.writeStatus2 id a v) :=
  fun _ _ _ _ => requestPacket_shaped _ _ _ (by simp [leBytes])

theorem writeStatus4 (id : Byte) (a : Byte) (v : BitVec 32) : Statement (.writeStatus4 id a v) :=
  fun _ _ _ _ => requestPacket_shaped _ _ _ (by simp [leBytes])

theorem writeConfig1 (id : Byte) (a : Byte) (v : BitVec 8) : Statement (.writeConfig1 id a v) :=
  fun _ _ _ _ => requestPacket_shaped _ _ _ (by simp [leBytes])

theorem writeConfig2 (id : Byte) (a : Byte) (v : BitVec 16) : Statement (.writeConfig2 id a v) :=
  fun _ _ _ _ => requestPacket_shaped _ _ _ (by simp [leBytes])

theorem writeConfig4 (id : Byte) (a : Byte) (v : BitVec 32) : Statement (.writeConfig4 id a v) :=
  fun _ _ _ _ => requestPacket_shaped _ _ _ (by simp [leBytes])

theorem mwriteConfig (id : Byte) (es : List Entry) : Statement (.mwriteConfig id es) :=
  fun _ _ _ h => mwriteWord_shaped es id _ _ _ _ rfl h

theorem mwriteStatus (id : Byte) (es : List Entry) : Statement (.mwriteStatus id es) :=
  fun _ _ _ h => mwriteWord_shaped es id _ _ _ _ rfl h

theorem save (id : Byte) : Statement (.save id) := fun _ _ _ _ => requestPacket_shaped _ _ _ (by simp)

theorem encodeRaw (id : Byte) (ins : Byte) (params : List Byte) : Statement (.encodeRaw id ins params) := by
  intro p f _ h
  by_cases hn : params.length ≤ 253
  · simpa [encode, hn, packetWord] using requestPacket_shaped id ins params hn
  · simp [encode, hn] at h

theorem response (id : Byte) (body : List Byte) : Statement (.response id body) := by
  intro p f hw _
  simp only [Instr.wellFormed, responseOk, decide_eq_true_eq] at hw
  refine ⟨rfl, ?_⟩
  simp [encode, responsePacket]
  omega

theorem collect (n : Nat) : Statement (.collect n) := fun _ _ _ h => by simp [encode] at h

theorem checksum (d : List Byte) : Statement (.checksum d) := fun _ _ _ h => by simp [encode] at h

theorem ttime (n : Nat) : Statement (.ttime n) := fun _ _ _ h => by simp [encode] at h

theorem setBaud (b : Word32) : Statement (.setBaud b) := fun _ _ _ h => by simp [encode] at h

theorem decodeIns (b : Byte) : Statement (.decodeIns b) := fun _ _ _ h => by simp [encode] at h

theorem readReg (r : RegName) (id : Byte) : Statement (.readReg r id) := fun _ _ _ h => by simp [encode] at h

theorem writeReg (r : RegName) (id : Byte) (v : Word32) : Statement (.writeReg r id v) :=
  fun _ _ _ h => by simp [encode] at h

end Sys2Proof.Laws.PacketShape
end

