-- ==== Sys2Proof/Laws/Sequencer.lean ====
section
/-! SUPPORT. What the sequencer's operations can do, said once, and the package by which a property that every update
of the state keeps is carried through a whole step. -/

namespace Sys2Proof.Machine

/-- A command runs its body with no view when the block is idle, and is refused otherwise (spec 44 R231). -/
theorem command_cases (body : State → State) (s : State) :
    (s.seq = .idle ∧ s.command body = body { s with view := none }) ∨
    (s.seq ≠ .idle ∧ s.command body = s.refuse .concurrentCommand) := by
  rw [State.command]
  split
  · exact .inl ⟨‹_›, rfl⟩
  · exact .inr ⟨‹_›, rfl⟩

/-- A codec encodes into exactly the register's width, when its descriptor passes `chk_f32_width` (spec 43 R201,
R204). -/
theorem encodeValue_length {r : RegDesc} {v : Word32} {bs : List Byte} (hk : r.kind = .f32 → r.width = 4)
    (h : encodeValue r v r.width = .ok bs) : bs.length = r.width := by
  rw [encodeValue, if_neg (lt_irrefl _)] at h
  split at h
  · split at h
    · cases h
    · cases h; simp
  · next hf => cases h; simp [hk hf]

/-- Encoding into a region of the register's own width never fails: it may only be refused (spec 43 R204). -/
theorem encodeValue_cases (r : RegDesc) (v : Word32) :
    (∃ bs, encodeValue r v r.width = .ok bs) ∨
    (r.kind = .u32 ∧ 2 ^ (8 * r.width) ≤ v.toNat ∧
      encodeValue r v r.width = .error (.refusal (.valueOutOfRange r.name v.toNat))) := by
  rw [encodeValue, if_neg (lt_irrefl _)]
  cases hk : r.kind
  · by_cases hv : 2 ^ (8 * r.width) ≤ v.toNat
    · exact .inr ⟨rfl, hv, by simp [hv]⟩
    · exact .inl ⟨leBytes r.width v.toNat, by simp [hv]⟩
  · exact .inl ⟨_, rfl⟩

/-- What a request does after its start (spec 44 R232 to R235): fail to encode with nothing else done, or go on to
the pre-write reset with the packet in `WBUF`. -/
theorem requestBody_cases (id ins : Byte) (params : List Byte) (nexp : Nat) (k : Kind) (s : State) :
    (∃ f, encodePacket id ins params s = .error f ∧ requestBody id ins params nexp k s = s.raise f) ∨
    (∃ w, encodePacket id ins params s = .ok { s with wbuf := w } ∧
      requestBody id ins params nexp k s =
        prewriteReset nexp (params.length + 6)
          { s with
            wbuf := w
            seq := .encode
            exchange := some (.request id k nexp (params.length + 6)) }) := by
  rcases encodePacket_cases id ins params s with ⟨h1, h⟩ | ⟨h1, h2, h⟩ | ⟨h1, h2, w, h, -⟩
  · exact .inl ⟨_, h, by simp [requestBody, encodePacket, h1]⟩
  · refine .inl ⟨_, h, ?_⟩
    have : ¬ s.par.capW < params.length + 6 := by omega
    have : 255 < params.length + 2 := by omega
    simp [requestBody, encodePacket, *]
  · refine .inr ⟨w, h, ?_⟩
    have a1 : ¬ s.par.capW < params.length + 6 := by omega
    have a2 : ¬ 255 < params.length + 2 := by omega
    simp only [encodePacket, a1, a2, if_false, Except.ok.injEq, State.mk.injEq, true_and, and_true] at h
    subst h
    simp only [requestBody, encodePacket, a1, a2, if_false]

/-- A property that every update of a state keeps, `BAUD` apart. -/
structure Stable (P : State → Prop) : Prop where
  deliver : ∀ t r, P t → P (t.deliver r)
  refuse : ∀ t r, P t → P (t.refuse r)
  call : ∀ t c, P t → P (t.callTransport c)
  control : ∀ t x p v e, P t → P { t with seq := x, phase := p, view := v, exchange := e }
  cursors : ∀ t n u, P t → P { t with readLen := n, used := u }
  wbuf : ∀ t w, P t → P { t with wbuf := w }
  rbuf : ∀ t m, P t → P { t with rbuf := m }
  transport : ∀ t p ds ws rs, P t → P { t with pending := p, discards := ds, writes := ws, reads := rs }
  collect : ∀ t n d k, P t → P { t with skipped := n, dl := d, drawn := k }
  result : ∀ t r, P t → P { t with result := r }
  inbox : ∀ t q, P t → P { t with inbox := q }

namespace Stable
variable {P : State → Prop} (hP : Stable P)
include hP

theorem raise (f : Failure) (t : State) (h : P t) : P (t.raise f) := hP.deliver t _ h

theorem resync (t : State) (h : P t) : P (resync t) :=
  hP.control _ t.seq .check t.view t.exchange
    (hP.cursors _ (t.readLen - (t.used + garbage t.tail)) 0
      (hP.rbuf _ (t.rbuf.writeBytes 0 (t.rbuf.readBytes (t.used + garbage t.tail)
        (t.readLen - (t.used + garbage t.tail)))) (hP.collect t (t.skipped + garbage t.tail) t.dl t.drawn h)))

theorem phase (t : State) (p : Phase) (h : P t) : P { t with phase := p } := hP.control t t.seq p t.view t.exchange h

theorem verify (t : State) (h : P t) : P (verify t) := by
  have h' : P { t with used := t.used + t.messageLength, phase := .idle } :=
    hP.phase _ .idle (hP.cursors t t.readLen (t.used + t.messageLength) h)
  rcases verify_cases t with ⟨e, -⟩ | ⟨e, -⟩ <;> rw [e]
  · exact hP.control _ t.seq .idle (some t.messageLength) t.exchange h'
  · exact hP.raise _ _ h'

theorem turn (t : State) (h : P t) : P (turn t) := by
  have h' := hP.resync t h
  rcases turn_cases t with ⟨e, -⟩ | ⟨e, -⟩ | ⟨e, -⟩ <;> rw [e]
  · exact hP.call _ _ (hP.phase _ _ h')
  · exact hP.raise _ _ h'
  · exact hP.verify _ (hP.phase _ _ h')

theorem takeRead (a : ReadAnswer) (t : State) (h : P t) : P (takeRead a t) := by
  rcases takeRead_cases a t with ⟨bytes, left, e, -⟩ | ⟨k, left, e, -⟩ | ⟨e', e⟩ | ⟨e', e⟩ <;> rw [e]
  · exact hP.phase _ .resync (hP.cursors _ (t.readLen + bytes.length) t.used
      (hP.rbuf _ (t.rbuf.writeBytes t.readLen bytes) (hP.transport t left t.discards t.writes t.reads h)))
  · exact hP.refuse _ _ (hP.transport t left t.discards t.writes t.reads h)
  · exact hP.raise _ _ (hP.call _ _ h)
  · exact hP.raise _ _ (hP.call _ _ h)

theorem awaitReads (as : List ReadAnswer) (t : State) (h : P t) : P (awaitReads as t) :=
  awaitReads_keeps (fun a as t _ ht => hP.takeRead a _ (hP.transport t t.pending t.discards t.writes as ht))
    (fun t _ ht => hP.turn t ht) as h

theorem finishRequest (m : Nat) (id : Byte) (k : Kind) (t : State) (h : P t) : P (finishRequest m id k t) := by
  rw [Machine.finishRequest]
  split
  · exact hP.raise _ _ h
  · exact hP.deliver _ _ h

theorem goOnReading (t : State) (h : P t) : P (goOnReading t) := by
  rw [Machine.goOnReading, afterCollect]
  have h' := hP.awaitReads t.reads t h
  split
  · split
    · exact hP.finishRequest _ _ _ _ h'
    · exact hP.deliver _ _ h'
    · exact h'
  · exact h'

theorem beginCollect (nexp : Nat) (t : State) (h : P t) : P (beginCollect nexp t) := by
  have h1 : P { t with seq := .collect } := hP.control t .collect t.phase t.view t.exchange h
  have h2 := hP.call _ (.makeDeadline (deadlineDuration t.baud nexp)) h1
  exact hP.goOnReading _ (hP.turn _ (hP.phase _ .resync (hP.collect _ 0
    (Config.makeDeadline (deadlineDuration t.baud nexp) t.drawn) (t.drawn + 1) h2)))

theorem takeWrite (nexp : Nat) (t : State) (h : P t) : P (takeWrite nexp t) := by
  rw [Machine.takeWrite]
  split
  · exact h
  · exact hP.beginCollect _ _ (hP.transport t t.pending t.discards _ t.reads h)
  · exact hP.raise _ _ (hP.transport t t.pending t.discards _ t.reads h)

theorem beginWrite (nexp k : Nat) (t : State) (h : P t) : P (beginWrite nexp k t) :=
  hP.takeWrite _ _ (hP.call _ _ (hP.control t .write t.phase t.view t.exchange h))

theorem takeDiscard (nexp k : Nat) (t : State) (h : P t) : P (takeDiscard nexp k t) := by
  rw [Machine.takeDiscard]
  split
  · exact h
  · exact hP.beginWrite _ _ _ (hP.transport t [] _ t.writes t.reads h)
  · exact hP.raise _ _ (hP.transport t _ _ t.writes t.reads h)

theorem prewriteReset (nexp k : Nat) (t : State) (h : P t) : P (prewriteReset nexp k t) :=
  hP.takeDiscard _ _ _ (hP.call _ _ (hP.cursors _ 0 0 (hP.control t .reset t.phase t.view t.exchange h)))

theorem requestBody (id ins : Byte) (params : List Byte) (nexp : Nat) (k : Kind) (t : State) (h : P t) :
    P (requestBody id ins params nexp k t) := by
  rcases requestBody_cases id ins params nexp k t with ⟨f, -, e⟩ | ⟨w, -, e⟩ <;> rw [e]
  · exact hP.raise _ _ h
  · exact hP.prewriteReset _ _ _ (hP.control _ .encode t.phase t.view _ (hP.wbuf t w h))

theorem command {body : State → State} (hb : ∀ t, P t → P (body t)) (t : State) (h : P t) : P (t.command body) := by
  rcases command_cases body t with ⟨-, e⟩ | ⟨-, e⟩ <;> rw [e]
  · exact hb _ (hP.control t t.seq t.phase none t.exchange h)
  · exact hP.refuse _ _ h

theorem request (id : Byte) (x : InsName) (params : List Byte) (nexp : Nat) (k : Kind) (t : State) (h : P t) :
    P (request id x params nexp k t) := hP.command (fun u hu => hP.requestBody _ _ _ _ _ u hu) t h

theorem readCommand (ref : RegRef) (id : Byte) (t : State) (h : P t) : P (readCommand ref id t) := by
  refine hP.command (fun u hu => ?_) t h
  split
  · exact hP.refuse _ _ hu
  · exact hP.requestBody _ _ _ _ _ u hu

theorem writeCommand (ref : RegRef) (id : Byte) (v : Word32) (t : State) (h : P t) : P (writeCommand ref id v t) := by
  refine hP.command (fun u hu => ?_) t h
  split
  · exact hP.refuse _ _ hu
  · split
    · rw [writeValue]
      split
      · exact hP.refuse _ _ hu
      · exact hP.raise _ _ hu
      · exact hP.requestBody _ _ _ _ _ u hu
    · exact hP.refuse _ _ hu

theorem mwriteCommand (cls : RegClass) (id : Byte) (es : List Entry) (t : State) (h : P t) :
    P (mwriteCommand cls id es t) := by
  refine hP.command (fun u hu => ?_) t h
  split
  · exact hP.refuse _ _ hu
  · exact hP.requestBody _ _ _ _ _ u hu

theorem collectCommand (nexp : Nat) (t : State) (h : P t) : P (collectCommand nexp t) :=
  hP.command (fun u hu => hP.beginCollect _ _ (hP.control u u.seq u.phase u.view _ hu)) t h

theorem encodeBody (id ins : Byte) (params : List Byte) (t : State) (h : P t) : P (encodeBody id ins params t) := by
  rw [Machine.encodeBody]
  rcases encodePacket_cases id ins params t with ⟨-, e⟩ | ⟨-, -, e⟩ | ⟨-, -, w, e, -⟩ <;> rw [e]
  · exact hP.raise _ _ h
  · exact hP.raise _ _ h
  · exact hP.deliver _ _ (hP.wbuf t w h)

theorem resume (t : State) (h : P t) : P (resume t) := by
  rw [Machine.resume]
  split
  · exact hP.takeDiscard _ _ _ h
  · exact hP.takeWrite _ _ h
  · exact hP.goOnReading _ h
  · exact h

theorem receive (bs : List Byte) (t : State) (h : P t) : P (receive bs t) := by
  rw [Machine.receive]
  have h1 := hP.transport t (t.pending ++ bs) t.discards t.writes t.reads h
  simp only
  split
  · exact hP.resume _ (hP.transport t (t.pending ++ bs) t.discards t.writes (.ok [] t.room :: t.reads) h)
  · exact h1

/-- What an instruction other than `SETBAUD` does keeps the property. -/
theorem exec {i : Instr} (hi : ∀ b, i ≠ .setBaud b) {s t : State} (e : exec i s = .next t) (h : P s) : P t := by
  have hdec : ∀ b u, P u → P (decodeByte b u) := fun b u hu => hP.command (fun v hv => hP.deliver _ _ hv) u hu
  cases i <;> cases e
  case setBaud b => exact absurd rfl (hi b)
  case response => exact hP.receive _ _ h
  case encodeRaw => exact hP.command (hP.encodeBody _ _ _) _ h
  case collect => exact hP.collectCommand _ _ h
  case checksum => exact hP.command (fun v hv => hP.deliver _ _ hv) _ h
  case ttime => exact hP.command (fun v hv => hP.deliver _ _ hv) _ h
  all_goals
    first
    | exact hdec _ _ h
    | exact hP.request _ _ _ _ _ _ h
    | exact hP.readCommand _ _ _ h
    | exact hP.writeCommand _ _ _ _ h
    | exact hP.mwriteCommand _ _ _ _ h

end Stable

/-- `exec` always answers a next state: the spec's failures and refusals are next states (60 R302, R305). -/
theorem exec_next (i : Instr) (s : State) : ∃ t, exec i s = .next t := by
  cases i <;> exact ⟨_, rfl⟩

/-- What a step can do. -/
theorem step_cases (s : State) :
    (s.inbox = [] ∧ step s = .next (resume s)) ∨
    (∃ w rest i, s.inbox = .issue w :: rest ∧ decode s.par w = .ok i ∧ step s = exec i { s with inbox := rest }) ∨
    (∃ w rest e, s.inbox = .issue w :: rest ∧ decode s.par w = .error e ∧ step s = .refused (.noSuchCommand e)) ∨
    (∃ a n rest, s.inbox = .readView a n :: rest ∧ step s = { s with inbox := rest }.readView a n) := by
  rw [step, advance]
  cases hq : s.inbox with
  | nil => exact .inl ⟨rfl, rfl⟩
  | cons r rest =>
    cases r with
    | readView a n => exact .inr (.inr (.inr ⟨a, n, rest, rfl, rfl⟩))
    | issue w =>
      cases hd : decode s.par w with
      | ok i => exact .inr (.inl ⟨w, rest, i, rfl, hd, by simp [serve, hd]⟩)
      | error e => exact .inr (.inr (.inl ⟨w, rest, e, rfl, hd, by simp [serve, hd]⟩))

/-- A property that every update keeps, `BAUD`'s among them, is kept by every step. -/
theorem Stable.step {P : State → Prop} (hP : Stable P) (hbaud : ∀ t b, P t → P { t with baud := b }) {s t : State}
    (e : Machine.step s = .next t) (h : P s) : P t := by
  rcases step_cases s with ⟨-, h1⟩ | ⟨w, rest, i, -, -, h1⟩ | ⟨w, rest, d, -, -, h1⟩ | ⟨a, n, rest, -, h1⟩ <;>
    rw [h1] at e
  · cases e; exact hP.resume _ h
  · have hq := hP.inbox s rest h
    by_cases hi : ∃ b, i = .setBaud b
    · obtain ⟨b, rfl⟩ := hi
      cases e
      refine hP.command (fun u hu => ?_) _ hq
      rw [setBaudBody]
      split
      · exact hP.refuse _ _ hu
      · exact hP.deliver _ _ (hbaud _ b (hP.call u _ hu))
    · exact hP.exec (fun b hb => hi ⟨b, hb⟩) e hq
  · cases e
  · have hq := hP.inbox s rest h
    rw [State.readView] at e
    split at e
    · cases e; exact hP.refuse _ _ hq
    · split at e
      · cases e; exact hP.result _ _ hq
      · cases e

end Sys2Proof.Machine
end

