-- ==== Sys2Proof/Tests/Slice0.lean ====
section
/-! SUPPORT. Tests: ill-formed terms are refused, words written out from the spec decode, vectors of spec 95 come out,
and the hypotheses of each obligation are met by a concrete case. Expected results are the spec's, or computed by hand
from its rules. -/

namespace Sys2Proof.Tests

open Sys2Proof.Machine Sys2Proof.Claims

/-! ## Small states -/

/-- The state of an outcome. -/
def after : Host.Outcome State Fault Refusal → Option State
  | .next t => some t
  | _ => none

/-- The result an outcome gives the host. -/
def resultOf (o : Host.Outcome State Fault Refusal) : Option Result := (after o).bind (·.result)

/-- The bytes of the first `T.write_all` of an outcome. -/
def sentBy (o : Host.Outcome State Fault Refusal) : Option (List Byte) :=
  (after o).bind fun t => t.calls.findSome? fun c =>
    match c with
    | .writeAll bytes => some bytes
    | _ => none

/-- The reset state over a transport that will answer: the discard and the write with `Ok`, and a read with each of
these chunks in turn. -/
def line (chunks : List (List Byte)) : State :=
  { State.reset with discards := [.ok], writes := [.ok], reads := chunks.map (fun c => .ok c c.length) }

/-- A writable register of any class, address and width. -/
def rwReg (cls : RegClass) (addr : Byte) (width : Nat) (kind : ValueKind) : RegDesc :=
  { name := [addr], cls := cls, addr := addr, access := .rw, readOp := cls.readOp, writeOp := some cls.writeOp,
    width := width, kind := kind }

/-- Parameters with a writable register for every row of `WRITE`. -/
def allRows : Params :=
  { Params.atReset with
    regs := [rwReg .status 1 1 .u32, rwReg .status 2 2 .u32, rwReg .status 4 4 .u32, rwReg .config 1 1 .u32,
      rwReg .config 2 2 .u32, rwReg .config 4 4 .f32, RegDesc.st22] }

/-- The state of `line`, with these parameters. -/
def lineWith (p : Params) (chunks : List (List Byte)) : State := { line chunks with par := p }

/-- The acknowledgement of 95's V-L2-B10. -/
def ack : List Byte := [0xFF, 0xFF, 0x01, 0x02, 0x00, 0xFC]

/-- A request that waits for `T.read` with one byte buffered: the state a `PING` reaches when the discard and the write
have been answered, and a lone `FF` has come. -/
def waiting : State :=
  { State.reset with
    rbuf := [(0, 0xFF), (9, 0x55)], readLen := 1, phase := .read, seq := .collect,
    exchange := some (.request 0x01 .ping 4 6) }

/-- As `waiting`, with another byte above `READ_LEN`. -/
def waitingStale : State := { waiting with rbuf := [(0, 0xFF), (7, 0xFF)] }

/-- A block in which a whole message has been received and a second one follows it. -/
def viewing : State :=
  { State.reset with
    rbuf := [(0, 0xFF), (1, 0xFF), (2, 0xFF), (4, 0xFF), (5, 0xFF), (6, 0xFF)]
    readLen := 8, used := 4, view := some 4 }

/-! ## Ill-formed terms are refused -/

theorem test_rowWidth_refuses_other_width : rowWidthOk Params.atReset .config 0x21 4 = false := by decide
theorem test_wellFormed_refuses_row_width :
    (Instr.writeConfig4 0x01 0x21 0).wellFormed Params.atReset = false := by decide
theorem test_wellFormed_refuses_status_row_width :
    (Instr.writeStatus1 0x01 0x22 0).wellFormed Params.atReset = false := by decide
theorem test_entries_refuses_256_bytes :
    (Instr.mwriteConfig 0x01 [{ addr := 0, val := List.replicate 256 0 }]).wellFormed Params.atReset = false := by
  simp only [Instr.wellFormed, entriesOk, List.all_cons, List.length_replicate]
  rfl
theorem test_response_refuses_256_bytes :
    (Instr.response 0x01 (List.replicate 256 0)).wellFormed Params.atReset = false := by
  simp only [Instr.wellFormed, responseOk, List.length_replicate]
  rfl
theorem test_ok_refuses_small_capacity :
    ¬ ({ Params.atReset with capW := 5 } : Params).ok ∧ ¬ ({ Params.atReset with capR := 5 } : Params).ok := by decide
theorem test_ok_refuses_equal_opcodes :
    ¬ ({ Params.atReset with opc := { Opc.default with bulkComm := 0x01 } } : Params).ok := by decide
theorem test_ok_refuses_equal_flag_bits :
    ¬ ({ Params.atReset with flagBit := { FlagBits.default with hardware := 0 } } : Params).ok := by decide
theorem test_ok_reset : Params.atReset.ok ∧ allRows.ok := by decide

/-- V-L2-K14. -/
theorem test_regs_f32_width : checkRegs [rwReg .config 0x40 2 .f32] = some ([0x40], .f32Width) := by decide
/-- V-L2-K15. -/
theorem test_regs_read_op :
    checkRegs [{ rwReg .status 0x41 1 .u32 with access := .ro, readOp := .readConfig, writeOp := none }] =
      some ([0x41], .readOp) := by decide
/-- V-L2-K16. -/
theorem test_regs_write_op :
    checkRegs [{ rwReg .config 0x42 1 .u32 with access := .ro }] = some ([0x42], .writeOp) := by decide
/-- V-L2-K17. -/
theorem test_regs_width : checkRegs [rwReg .config 0x43 3 .u32] = some ([0x43], .width) := by decide
/-- V-L2-K18. -/
theorem test_regs_unique :
    checkRegs [RegDesc.cfg0D, rwReg .config 0x0D 1 .u32] = some ([0x0D], .unique) := by decide
/-- V-L2-K19. -/
theorem test_regs_same_address_other_class :
    checkRegs [RegDesc.cfg0D, { rwReg .status 0x0D 4 .u32 with access := .ro, writeOp := none }] = none := by decide

/-! ## Words written out from the spec's encodings (30 R91, R92, R95, R120), one for each constructor -/

/-- The decoder's answer on a packet. -/
def onPacket (f : PacketForm) (bytes : List Byte) : Option Instr :=
  (decode Params.atReset { form := .packet f, bytes := bytes }).toOption

/-- The decoder's answer on operand bytes. -/
def onOperands (f : OperandForm) (bytes : List Byte) : Option Instr :=
  (decode Params.atReset { form := .operands f, bytes := bytes }).toOption

/-- The decoder's answer on an instruction byte. -/
def onByte (b : Byte) : Option Instr := (decode Params.atReset { form := .insByte, bytes := [b] }).toOption

/-- V-L2-I1, V-L2-I2. -/
theorem test_decode_instruction_bytes :
    [0x01, 0x02, 0x03, 0x04, 0x05, 0x06, 0x12, 0x07].map onByte =
      [some .insPing, some .insReadStatus, some .insWriteStatus, some .insReadConfig, some .insWriteConfig,
        some .insSaveConfig, some .insBulkComm, some (.decodeIns 0x07)] := by decide
/-- V-L2-B1. -/
theorem test_decode_ping : onPacket .ping [0xFF, 0xFF, 0x01, 0x02, 0x01, 0xFB] = some (.ping 0x01) := by decide
/-- V-L2-B16. -/
theorem test_decode_readStatus :
    onPacket .read [0xFF, 0xFF, 0x01, 0x03, 0x02, 0x22, 0xD7] = some (.readStatus 0x01 0x22) := by decide
/-- V-L2-B2. -/
theorem test_decode_readConfig :
    onPacket .read [0xFF, 0xFF, 0x01, 0x03, 0x04, 0x0D, 0xEA] = some (.readConfig 0x01 0x0D) := by decide
/-- `FF FF id 04 03 a v c`: 01+04+03+30+7F = B7, and FF-B7 = 48. -/
theorem test_decode_writeStatus1 :
    onPacket .write [0xFF, 0xFF, 0x01, 0x04, 0x03, 0x30, 0x7F, 0x48] = some (.writeStatus1 0x01 0x30 0x7F) := by decide
/-- 01+05+03+31+34+12 = 80, and FF-80 = 7F; the value is little-endian. -/
theorem test_decode_writeStatus2 :
    onPacket .write [0xFF, 0xFF, 0x01, 0x05, 0x03, 0x31, 0x34, 0x12, 0x7F] = some (.writeStatus2 0x01 0x31 0x1234) := by
  decide
/-- 01+07+03+32+78+56+34+12 = 151, and FF-51 = AE. -/
theorem test_decode_writeStatus4 :
    onPacket .write [0xFF, 0xFF, 0x01, 0x07, 0x03, 0x32, 0x78, 0x56, 0x34, 0x12, 0xAE] =
      some (.writeStatus4 0x01 0x32 0x12345678) := by decide
/-- V-L2-B21. -/
theorem test_decode_writeConfig1 :
    onPacket .write [0xFF, 0xFF, 0x01, 0x04, 0x05, 0x21, 0xAB, 0x29] = some (.writeConfig1 0x01 0x21 0xAB) := by decide
/-- 01+05+05+31+34+12 = 82, and FF-82 = 7D. -/
theorem test_decode_writeConfig2 :
    onPacket .write [0xFF, 0xFF, 0x01, 0x05, 0x05, 0x31, 0x34, 0x12, 0x7D] = some (.writeConfig2 0x01 0x31 0x1234) := by
  decide
/-- V-L1-7. -/
theorem test_decode_writeConfig4 :
    onPacket .write [0xFF, 0xFF, 0x01, 0x07, 0x05, 0x0D, 0x00, 0x00, 0xA0, 0x40, 0x05] =
      some (.writeConfig4 0x01 0x0D 0x40A00000) := by decide
/-- V-L2-B11. -/
theorem test_decode_mwriteConfig :
    onPacket .mwrite
      [0xFF, 0xFF, 0x01, 0x0C, 0x05, 0x0D, 0x00, 0x00, 0xA0, 0x40, 0x0E, 0x00, 0x00, 0x80, 0x3F, 0x33] =
      some (.mwriteConfig 0x01 [{ addr := 0x0D, val := [0x00, 0x00, 0xA0, 0x40] },
        { addr := 0x0E, val := [0x00, 0x00, 0x80, 0x3F] }]) := by decide
/-- V-L2-B23. -/
theorem test_decode_mwriteStatus :
    onPacket .mwrite [0xFF, 0xFF, 0x02, 0x07, 0x03, 0x30, 0x01, 0x02, 0x03, 0x04, 0xB9] =
      some (.mwriteStatus 0x02 [{ addr := 0x30, val := [0x01, 0x02, 0x03, 0x04] }]) := by decide
/-- V-L2-B10. -/
theorem test_decode_save : onPacket .save [0xFF, 0xFF, 0x01, 0x02, 0x06, 0xF6] = some (.save 0x01) := by decide
/-- V-L2-E9. -/
theorem test_decode_encode :
    onPacket .encode [0xFF, 0xFF, 0x03, 0x05, 0x99, 0x01, 0x02, 0x03, 0x58] =
      some (.encodeRaw 0x03 0x99 [0x01, 0x02, 0x03]) := by decide
/-- The reply of V-L2-B1. -/
theorem test_decode_response :
    onPacket .response [0xFF, 0xFF, 0x01, 0x06, 0x00, 0x11, 0x22, 0x33, 0x44, 0x4E] =
      some (.response 0x01 [0x00, 0x11, 0x22, 0x33, 0x44, 0x4E]) := by decide
/-- The host commands have no wire encoding: their words are the model's (log 14). -/
theorem test_decode_operands :
    onOperands .collect [0x04] = some (.collect 4) ∧ onOperands .checksum [0x12, 0x34] = some (.checksum [0x12, 0x34]) ∧
    onOperands .ttime [0x03, 0x01] = some (.ttime 259) ∧
    onOperands .setBaud [0x80, 0x25, 0x00, 0x00] = some (.setBaud 9600) ∧
    onOperands .decodeIns [0x05] = some (.decodeIns 0x05) ∧
    onOperands .readReg [0x01, 0x53, 0x54] = some (.readReg [0x53, 0x54] 0x01) ∧
    onOperands .writeReg [0x01, 0x00, 0x00, 0xA0, 0x40, 0x41] = some (.writeReg [0x41] 0x01 0x40A00000) := by decide

theorem test_decode_rejects :
    decode Params.atReset { form := .packet .ping, bytes := [0xFF, 0x00, 0x01, 0x02, 0x01, 0xFB] } = .error .notPrefix ∧
    decode Params.atReset { form := .packet .ping, bytes := [0xFF, 0xFF, 0x01] } = .error .truncated ∧
    decode Params.atReset { form := .packet .ping, bytes := [0xFF, 0xFF, 0x01, 0x03, 0x01, 0xFB] } = .error .badLength ∧
    decode Params.atReset { form := .packet .save, bytes := [0xFF, 0xFF, 0x01, 0x02, 0x01, 0xFB] } =
      .error .otherInstruction ∧
    decode Params.atReset { form := .packet .write, bytes := [0xFF, 0xFF, 0x01, 0x04, 0x05, 0x0D, 0x00, 0x00] } =
      .error .rowWidth ∧
    decode Params.atReset { form := .packet .mwrite, bytes := [0xFF, 0xFF, 0x01, 0x03, 0x05, 0x0D, 0x00] } =
      .error .badOperands := by decide

/-- The rows of the table, with their free bits 0 (byte `j` at bits `8j+7..8j`). -/
theorem test_decodeTableWord :
    decodeTableWord 8 0x12 = some .insBulkComm ∧ decodeTableWord 40 0x010200FFFF = some (.ping 0) ∧
    decodeTableWord 40 0x020300FFFF = some (.readStatus 0 0) ∧
    decodeTableWord 40 0x050700FFFF = some (.writeConfig4 0 0 0) ∧
    decodeTableWord 40 0x030000FFFF = some (.mwriteStatus 0 []) ∧
    decodeTableWord 40 0x060200FFFF = some (.save 0) ∧ decodeTableWord 40 0x000000FFFF = some (.encodeRaw 0 0 []) := by
  decide

theorem test_withFetchWord_runs :
    resultOf (step (State.reset.withFetchWord 8 0x05)) = some (.instruction (.known .writeConfig)) ∧
    (after (step (State.reset.withFetchWord 40 0x060200FFFF))).map (·.seq) = some .reset := by decide

/-! ## One step of each instruction -/

/-- V-L2-I1: `INS` bytes at the instruction decoder. -/
theorem test_instruction_bytes_are_named :
    resultOf (exec .insPing State.reset) = some (.instruction (.known .ping)) ∧
    resultOf (exec .insReadStatus State.reset) = some (.instruction (.known .readStatus)) ∧
    resultOf (exec .insWriteStatus State.reset) = some (.instruction (.known .writeStatus)) ∧
    resultOf (exec .insReadConfig State.reset) = some (.instruction (.known .readConfig)) ∧
    resultOf (exec .insWriteConfig State.reset) = some (.instruction (.known .writeConfig)) ∧
    resultOf (exec .insSaveConfig State.reset) = some (.instruction (.known .saveConfig)) ∧
    resultOf (exec .insBulkComm State.reset) = some (.instruction (.known .bulkComm)) := by decide
/-- V-L2-B1. -/
theorem test_ping :
    resultOf (exec (.ping 0x01) (line [[0xFF, 0xFF, 0x01, 0x06, 0x00, 0x11, 0x22, 0x33, 0x44, 0x4E]])) =
      some (.response { motorId := 0x01, warning := none, data := .raw [0x11, 0x22, 0x33, 0x44] } 0) := by decide
/-- V-L2-B6a: the echo is taken for the reply. -/
theorem test_ping_echo :
    resultOf (exec (.ping 0x01) (line [[0xFF, 0xFF, 0x01, 0x02, 0x01, 0xFB] ++ ack])) =
      some (.response { motorId := 0x01, warning := some 0x01, data := .raw [] } 0) := by decide
/-- V-L2-B16. -/
theorem test_readStatus :
    resultOf (exec (.readStatus 0x01 0x22) (line [[0xFF, 0xFF, 0x01, 0x04, 0x00, 0x34, 0x12, 0xB4]])) =
      some (.response { motorId := 0x01, warning := none, data := .value (.u32 0x1234) } 0) := by decide
/-- V-L2-B5: the error bit wins. -/
theorem test_readConfig_motor_error :
    resultOf (exec (.readConfig 0x01 0x0D) (line [[0xFF, 0xFF, 0x01, 0x06, 0x21, 0x00, 0x00, 0xA0, 0x40, 0xF7]])) =
      some (.failed (.motorError 0x21) 0) := by decide
/-- V-L2-B3. -/
theorem test_readConfig_wrong_width :
    resultOf (exec (.readConfig 0x01 0x0D) (line [[0xFF, 0xFF, 0x01, 0x05, 0x00, 0x00, 0x00, 0xA0, 0x59]])) =
      some (.failed (.invalidMessage (.invalidParameterCount 4 3)) 0) := by decide
/-- 01+04+03+01+7F = 88, and FF-88 = 77. -/
theorem test_writeStatus1_sends :
    sentBy (exec (.writeStatus1 0x01 0x01 0x7F) (lineWith allRows [])) =
      some [0xFF, 0xFF, 0x01, 0x04, 0x03, 0x01, 0x7F, 0x77] := by decide
/-- 01+05+03+02+34+12 = 51, and FF-51 = AE. -/
theorem test_writeStatus2_sends :
    sentBy (exec (.writeStatus2 0x01 0x02 0x1234) (lineWith allRows [])) =
      some [0xFF, 0xFF, 0x01, 0x05, 0x03, 0x02, 0x34, 0x12, 0xAE] := by decide
/-- 01+07+03+04+78+56+34+12 = 123, and FF-23 = DC. -/
theorem test_writeStatus4_sends :
    sentBy (exec (.writeStatus4 0x01 0x04 0x12345678) (lineWith allRows [])) =
      some [0xFF, 0xFF, 0x01, 0x07, 0x03, 0x04, 0x78, 0x56, 0x34, 0x12, 0xDC] := by decide
/-- V-L2-B24. -/
theorem test_writeStatus2_not_writable :
    resultOf (exec (.writeStatus2 0x01 0x22 5) (line [])) =
      some (.refused (.notWritable [0x53, 0x54, 0x5F, 0x32, 0x32])) := by decide
/-- V-L2-B21. -/
theorem test_writeConfig1_sends :
    sentBy (exec (.writeConfig1 0x01 0x21 0xAB) (line [ack])) =
      some [0xFF, 0xFF, 0x01, 0x04, 0x05, 0x21, 0xAB, 0x29] := by decide
/-- 01+05+05+02+34+12 = 53, and FF-53 = AC. -/
theorem test_writeConfig2_sends :
    sentBy (exec (.writeConfig2 0x01 0x02 0x1234) (lineWith allRows [])) =
      some [0xFF, 0xFF, 0x01, 0x05, 0x05, 0x02, 0x34, 0x12, 0xAC] := by decide
/-- V-L1-7. -/
theorem test_writeConfig4_sends :
    sentBy (exec (.writeConfig4 0x01 0x0D 0x40A00000) (line [ack])) =
      some [0xFF, 0xFF, 0x01, 0x07, 0x05, 0x0D, 0x00, 0x00, 0xA0, 0x40, 0x05] := by decide
/-- V-L2-B17. -/
theorem test_writeConfig4_overheat :
    resultOf (exec (.writeConfig4 0x01 0x0D 0x40A00000) (line [[0xFF, 0xFF, 0x01, 0x02, 0x02, 0xFA]])) =
      some (.response { motorId := 0x01, warning := some 0x02, data := .unit } 0) := by decide
/-- V-L2-B11. -/
theorem test_mwriteConfig_sends :
    sentBy (exec (.mwriteConfig 0x01 [{ addr := 0x0D, val := [0x00, 0x00, 0xA0, 0x40] },
      { addr := 0x0E, val := [0x00, 0x00, 0x80, 0x3F] }]) (line [ack])) =
      some [0xFF, 0xFF, 0x01, 0x0C, 0x05, 0x0D, 0x00, 0x00, 0xA0, 0x40, 0x0E, 0x00, 0x00, 0x80, 0x3F, 0x33] := by decide
/-- V-L2-B26. -/
theorem test_mwriteConfig_bad_entry :
    resultOf (exec (.mwriteConfig 0x01 [{ addr := 0x0D, val := [0x00, 0x00, 0xA0] }]) (line [])) =
      some (.refused (.badEntry 1)) := by decide
/-- V-L2-B23. -/
theorem test_mwriteStatus_sends :
    sentBy (exec (.mwriteStatus 0x02 [{ addr := 0x30, val := [0x01, 0x02, 0x03, 0x04] }]) (line [])) =
      some [0xFF, 0xFF, 0x02, 0x07, 0x03, 0x30, 0x01, 0x02, 0x03, 0x04, 0xB9] := by decide
/-- V-L2-B10. -/
theorem test_save_sends : sentBy (exec (.save 0x01) (line [ack])) = some [0xFF, 0xFF, 0x01, 0x02, 0x06, 0xF6] := by
  decide
/-- V-L2-B19. -/
theorem test_save_unnamed_flag :
    resultOf (exec (.save 0x01) (line [[0xFF, 0xFF, 0x01, 0x02, 0x80, 0x7C]])) =
      some (.failed (.motorError 0x80) 0) := by decide
/-- V-L2-E9. -/
theorem test_encode :
    resultOf (exec (.encodeRaw 0x03 0x99 [0x01, 0x02, 0x03]) State.reset) =
      some (.encoded 9 [0xFF, 0xFF, 0x03, 0x05, 0x99, 0x01, 0x02, 0x03, 0x58]) := by decide
/-- V-L2-E5. -/
theorem test_encode_too_small :
    resultOf (exec (.encodeRaw 0x01 0x04 [0x0D]) { State.reset with par := { Params.atReset with capW := 6 } }) =
      some (.failed (.bufferTooSmall 7 6 .encode) 0) := by decide
/-- 42 R167: a packet reaches the block whose read is in progress; FF-(01+02+00) = FC, not FE. -/
theorem test_response_is_taken :
    resultOf (exec (.response 0x01 [0x00, 0xFE]) { waiting with rbuf := [], readLen := 0 }) =
      some (.failed (.invalidChecksum 0xFE 0xFC) 0) := by decide
/-- V-L2-F7: garbage that ends in `FF` makes the front lock one byte early. -/
theorem test_collect_locks_early :
    resultOf (exec (.collect 0) (line [[0x12, 0xFF, 0xFF, 0xFF, 0x01, 0x02, 0x00, 0xFC]])) =
      some (.failed (.invalidChecksum 0x02 0xFF) 1) := by decide
/-- V-L2-F2: the prefix is split across reads. -/
theorem test_collect_split_prefix :
    resultOf (exec (.collect 0) (line [[0xFF], [0xFF, 0x01, 0x02], [0x00, 0xFC]])) =
      some (.collected 6 0) := by decide
/-- V-L2-C9, V-L2-C5. -/
theorem test_checksum :
    resultOf (exec (.checksum [0x01, 0x07, 0x05, 0x0D, 0x00, 0x00, 0xA0, 0x40]) State.reset) = some (.byte 0x05) ∧
    resultOf (exec (.checksum [0x80, 0x80]) State.reset) = some (.byte 0xFF) := by decide
/-- V-L2-T2. -/
theorem test_ttime : resultOf (exec (.ttime 10) { State.reset with baud := 9600 }) = some (.micros 10417) := by decide
/-- V-L2-B28. -/
theorem test_setBaud_zero : resultOf (exec (.setBaud 0) State.reset) = some (.refused .zeroBaud) := by decide
/-- V-L2-I2. -/
theorem test_decodeIns : resultOf (exec (.decodeIns 0x07) State.reset) = some (.instruction (.unknown 0x07)) := by
  decide
/-- V-L2-B27. -/
theorem test_readReg_unknown :
    resultOf (exec (.readReg [0x4E] 0x01) State.reset) = some (.refused (.unknownRegister (.named [0x4E]))) := by decide
/-- V-L2-B25. -/
theorem test_writeReg_out_of_range :
    resultOf (exec (.writeReg RegDesc.cfg21.name 0x01 0x100) State.reset) =
      some (.refused (.valueOutOfRange RegDesc.cfg21.name 256)) := by decide

/-! ## The hypotheses of each obligation are met

Each theorem is named for its obligation, and gives for each of its clauses a state and operands. -/

theorem witness_DecodeUndoesEncode :
    Params.atReset.opc.distinct ∧ (Instr.writeConfig4 0x01 0x0D 0xFFFFFFFF).wellFormed Params.atReset = true ∧
    (Instr.writeStatus2 0x01 0x31 0x1234).wellFormed Params.atReset = true ∧
    (Instr.mwriteConfig 0x01 [{ addr := 0x0D, val := [0x00] }]).wellFormed Params.atReset = true ∧
    (Instr.response 0x01 []).wellFormed Params.atReset = true := by decide

theorem witness_InstructionDecoderInvertsEncoder :
    Opc.default.distinct ∧ Opc.default.decodeIns 0x05 = .known .writeConfig ∧
    (∀ x, Opc.default.byteOf x ≠ 0x07) := by
  refine ⟨by decide, by decide, fun x => ?_⟩
  cases x <;> decide

theorem witness_StepRunsDecodedInstruction :
    decode State.reset.par { form := .insByte, bytes := [0x12] } = .ok .insBulkComm ∧
    decode State.reset.par { form := .insByte, bytes := [] } = .error .truncated ∧
    decode State.reset.par (tableWord State.reset.par.opc 40 0x010200FFFF) = .ok (.ping 0) ∧
    resultOf (step { viewing with inbox := [.readView 0 4] }) = some (.viewBytes [0xFF, 0xFF, 0xFF, 0x00]) := by decide

theorem witness_WaitingChangesNothing :
    State.reset.inbox = [] ∧ State.reset.seq = .idle ∧
    (waiting.inbox = [] ∧ waiting.seq = .collect ∧ waiting.phase = .read ∧ waiting.reads = []) ∧
    (∃ t, exec (.ping 0x01) State.reset = .next t ∧ t.inbox = [] ∧ t.seq = .reset ∧ t.discards = []) ∧
    (∃ t, exec (.ping 0x01) { State.reset with discards := [.ok] } = .next t ∧ t.inbox = [] ∧ t.seq = .write ∧
      t.writes = []) :=
  ⟨rfl, rfl, ⟨rfl, rfl, rfl, rfl⟩, ⟨_, rfl, rfl, rfl, rfl⟩, ⟨_, rfl, rfl, rfl, rfl⟩⟩

/-- A `PING` that waits at the discard; one that waits at the write, its discard answered; and one that waits at its
second read, the first having brought a part of its reply. -/
theorem witness_YieldingChangesNothing :
    State.reset.inbox = [] ∧ (∀ id body, Instr.ping 0x01 ≠ .response id body) ∧
    (∃ u, exec (.ping 0x01) State.reset = .next u ∧ u.seq = .reset) ∧
    (∃ u, exec (.ping 0x01) { State.reset with discards := [.ok] } = .next u ∧ u.seq = .write) ∧
    (∃ u, exec (.ping 0x01) (line [ack.take 3]) = .next u ∧ u.seq = .collect ∧ u.readLen = 3 ∧
      resultOf (step (moreAnswers u [] [] [.ok (ack.drop 3) 3])) =
        some (.response { motorId := 0x01, warning := none, data := .raw [] } 0)) ∧
    (waiting.inbox = [] ∧ ∃ u, step { waiting with reads := [.ok [] 0] } = .next u ∧ u.seq = .collect) :=
  ⟨rfl, fun _ _ => by simp, ⟨_, rfl, rfl⟩, ⟨_, rfl, rfl⟩, ⟨_, rfl, by decide, by decide, by decide⟩,
    ⟨rfl, _, rfl, by decide⟩⟩

theorem witness_ConcurrentCommandRefused :
    waiting.seq ≠ .idle ∧ (∀ id body, Instr.ping 0x01 ≠ .response id body) := ⟨by decide, fun _ _ => by simp⟩

/-- For `StepKeepsInvariant`, `StepKeepsParameters` and `RefusalFlagIsKept`: states that are idle, that wait and that
show a view, each with a next state. -/
theorem witness_invariants :
    State.reset.Inv ∧ waiting.Inv ∧ viewing.Inv ∧
    ({ waiting with reads := [.ok ack 6] } : State).Inv ∧
    resultOf (step { waiting with reads := [.ok (ack.drop 1) 5] }) =
      some (.response { motorId := 0x01, warning := none, data := .raw [] } 0) ∧
    ((after (step { viewing with inbox := [.readView 0 4], refusal := true })).map (·.refusal)) = some true :=
  ⟨by decide, by decide, by decide, by decide, by decide, by decide⟩

theorem witness_OnlySetBaudChangesBaud :
    (∀ b, Instr.checksum [] ≠ .setBaud b) ∧ (∃ t, exec (.checksum []) State.reset = .next t) ∧
    (waiting.inbox = [] ∧ ∃ t, step { waiting with reads := [.ok [] 0] } = .next t) ∧
    (∃ t, step { viewing with inbox := [.readView 0 4] } = .next t) :=
  ⟨fun _ => by simp, ⟨_, rfl⟩, ⟨rfl, _, rfl⟩, ⟨_, rfl⟩⟩

theorem witness_OnlyEncoderWritesWbuf :
    buildsPacket (.collect 4) = false ∧ (∃ t, exec (.collect 4) (line [ack]) = .next t) ∧
    waiting.inbox = [] ∧ (∃ t, step waiting = .next t) :=
  ⟨rfl, ⟨_, rfl⟩, rfl, ⟨_, rfl⟩⟩

theorem witness_AtMostOneWriteAll :
    sentBy (exec (.ping 0x01) (line [ack])) = some [0xFF, 0xFF, 0x01, 0x02, 0x01, 0xFB] ∧
    (∃ w, exec (.ping 0x01) State.reset = .next w ∧ w.inbox = [] ∧ w.seq = .reset ∧
      sentBy (step { w with discards := [.ok] }) = some [0xFF, 0xFF, 0x01, 0x02, 0x01, 0xFB]) ∧
    (waiting.inbox = [] ∧ waiting.seq ≠ .reset ∧ ∃ t, step waiting = .next t) :=
  ⟨by decide, ⟨_, rfl, rfl, rfl, by decide⟩, ⟨rfl, by decide, ⟨_, rfl⟩⟩⟩

theorem witness_StaleBytesAreUnobservable :
    waiting.Inv ∧ waitingStale.Inv ∧ waiting ≠ waitingStale ∧ SameButStale waiting waitingStale := by
  refine ⟨by decide, by decide, by decide, rfl, ?_⟩
  intro a h
  have : a = 0 := by simpa [waiting] using h
  subst this
  decide

theorem witness_ConstructionFollowsItsChecks :
    checkRegs [rwReg .config 0x40 2 .f32] = some ([0x40], .f32Width) ∧ checkRegs Params.atReset.regs = none ∧
    (1 : Word32) ≠ 0 := by decide

theorem witness_ChecksumLaws : Verifies ack ∧ List.Perm [0x12, 0x34] ([0x34, 0x12] : List Byte) := by decide

theorem witness_LookupFindsTheDescriptor :
    (∀ d ∈ Params.atReset.regs, d.name ≠ [0x4E]) ∧
    (∀ d ∈ Params.atReset.regs, ¬ (d.cls = .status ∧ d.addr = 0x0D)) ∧
    Params.atReset.lookup (.named RegDesc.st22.name) = some RegDesc.st22 ∧
    Params.atReset.lookup (.located .config 0x0D) = some RegDesc.cfg0D ∧
    OnlyMatch Params.atReset (.named RegDesc.cfg21.name) RegDesc.cfg21 ∧
    OnlyMatch Params.atReset (.located .config 0x21) RegDesc.cfg21 ∧ checkRegs Params.atReset.regs = none :=
  ⟨by decide, by decide, by decide, by decide, by simp [OnlyMatch]; decide, by simp [OnlyMatch]; decide, by decide⟩

/-- For `ChecksumCommandAnswers`, `DecodeInsCommandAnswers`, `InstructionByteRowsAreNamed`, `SetBaudSetsBaudOrRefusesZero`
and `TtimeIsLeastSufficientTime`. -/
theorem witness_idle_commands :
    State.reset.seq = .idle ∧ State.reset.par.opc.distinct ∧ State.reset.baud ≠ 0 ∧ (0xFFFFFFFF : Word32) ≠ 0 := by
  decide

theorem witness_CollectStartMakesOneDeadline : State.reset.baud ≠ 0 := by decide

theorem witness_FlagClassification :
    (0x21 &&& Params.atReset.errorMask : Byte) ≠ 0 ∧
    ((0x01 &&& Params.atReset.errorMask : Byte) = 0 ∧ (0x01 &&& warningMask Params.atReset : Byte) ≠ 0) ∧
    ((0x00 &&& Params.atReset.errorMask : Byte) = 0 ∧ (0x00 &&& warningMask Params.atReset : Byte) = 0) ∧
    Params.atReset.errorMask = defaultErrorMask Params.atReset := by decide

/-- V-L2-K1, V-L2-K7, and V-L2-K13's bound. -/
theorem witness_CodecRoundTrip :
    encodeValue RegDesc.cfg0D 0x40A00000 4 = .ok [0x00, 0x00, 0xA0, 0x40] ∧
    encodeValue RegDesc.st22 0x1234 2 = .ok [0x34, 0x12] ∧
    encodeValue RegDesc.cfg21 0xFF 1 = .ok [0xFF] := by decide

/-- V-L2-K12, V-L2-K13, V-L2-K10, and the bounds. -/
theorem witness_CodecEncodesAndDecodes :
    2 < RegDesc.cfg0D.width ∧
    (RegDesc.cfg21.width ≤ 1 ∧ RegDesc.cfg21.kind = .u32 ∧ 2 ^ (8 * RegDesc.cfg21.width) ≤ (0x100 : Word32).toNat) ∧
    (0xFF : Word32).toNat < 2 ^ (8 * RegDesc.cfg21.width) ∧
    (RegDesc.cfg0D.width ≤ 4 ∧ RegDesc.cfg0D.kind = .f32) ∧
    ([0x00, 0x00, 0xA0] : List Byte).length ≠ RegDesc.cfg0D.width ∧
    ([0x00, 0x00, 0xA0, 0x40] : List Byte).length = RegDesc.cfg0D.width ∧
    ([0xFF] : List Byte).length = RegDesc.cfg21.width := by decide

/-- V-L2-E4: exactly full; and V-L2-E6: the longest packet. -/
theorem witness_EncodeCommandBuildsPacket :
    State.reset.seq = .idle ∧ State.reset.wbuf.wf = true ∧
    ([] : List Byte).length + 6 ≤ ({ Params.atReset with capW := 6 } : Params).capW ∧
    (List.replicate 253 (0 : Byte)).length + 6 ≤ ({ Params.atReset with capW := 259 } : Params).capW ∧
    (List.replicate 253 (0 : Byte)).length ≤ 253 :=
  ⟨rfl, rfl, by decide, by rw [List.length_replicate], by rw [List.length_replicate]⟩

/-- V-L2-E5, V-L2-E7, V-L2-E8. -/
theorem witness_EncodeCommandFailures :
    ({ Params.atReset with capW := 6 } : Params).capW < ([0x0D] : List Byte).length + 6 ∧
    ((List.replicate 254 (0 : Byte)).length + 6 ≤ ({ Params.atReset with capW := 260 } : Params).capW ∧
      253 < (List.replicate 254 (0 : Byte)).length) ∧
    ({ Params.atReset with capW := 259 } : Params).capW < (List.replicate 254 (0 : Byte)).length + 6 :=
  ⟨by decide, ⟨by rw [List.length_replicate], by rw [List.length_replicate]; decide⟩,
    by rw [List.length_replicate]; decide⟩

theorem witness_EncodingTwiceIsEncodingOnce :
    State.reset.wbuf.wf = true ∧ ∃ t, encodePacket 0x03 0x99 [0x01, 0x02, 0x03] State.reset = .ok t :=
  ⟨rfl, ⟨_, rfl⟩⟩

theorem witness_EncodeThenCollectRecoversPacket :
    State.reset.seq = .idle ∧ State.reset.wbuf.wf = true ∧ State.reset.rbuf.wf = true ∧ State.reset.readLen = 0 ∧
    State.reset.used = 0 ∧ State.reset.pending = [] ∧ 3 + 6 ≤ State.reset.par.capW ∧ 3 + 6 ≤ State.reset.par.capR ∧
    ∃ t, exec (.encodeRaw 0x03 0x99 [0x01, 0x02, 0x03]) State.reset = .next t :=
  ⟨rfl, rfl, rfl, rfl, rfl, rfl, by decide, by decide, ⟨_, rfl⟩⟩

theorem witness_ResyncPassFindsFirstPrefix :
    viewing.rbuf.wf = true ∧ viewing.used ≤ viewing.readLen ∧ waiting.rbuf.wf = true ∧
    waiting.used ≤ waiting.readLen := by decide

/-- The four clauses, at the bounds: 3 and 4 bytes, and a message of exactly the capacity (V-L2-F15, V-L2-F16). -/
theorem witness_CheckDecidesByLength :
    waiting.readLen < 4 ∧
    (let s : State := { State.reset with
      par := { Params.atReset with capR := 6 }, rbuf := [(0, 0xFF), (1, 0xFF), (2, 1), (3, 3)], readLen := 4 }
     4 ≤ s.readLen ∧ s.par.capR < 4 + (s.rbuf.read 3).toNat) ∧
    (let s : State := { State.reset with
      par := { Params.atReset with capR := 6 }, rbuf := [(0, 0xFF), (1, 0xFF), (2, 1), (3, 2)], readLen := 6 }
     4 ≤ s.readLen ∧ 4 + (s.rbuf.read 3).toNat ≤ s.par.capR ∧ 4 + (s.rbuf.read 3).toNat ≤ s.readLen) ∧
    (let s : State := { State.reset with
      par := { Params.atReset with capR := 6 }, rbuf := [(0, 0xFF), (1, 0xFF), (2, 1), (3, 2)], readLen := 5 }
     4 ≤ s.readLen ∧ 4 + (s.rbuf.read 3).toNat ≤ s.par.capR ∧ s.readLen < 4 + (s.rbuf.read 3).toNat) := by decide

/-- V-L2-F12 (`M = 4`), and V-L2-F9. -/
theorem witness_VerifyConsumesMessage :
    (let s : State := { State.reset with rbuf := Memory.writeBytes [] 0 [0xFF, 0xFF, 0xFF, 0x00] }
     4 + (s.rbuf.read 3).toNat = 4 ∧
     s.rbuf.read (4 - 1) = BitVec.ofNat 8 (255 - sumBytes (s.rbuf.readBytes 2 (4 - 3)) % 256)) ∧
    (let s : State := { State.reset with rbuf := Memory.writeBytes [] 0 [0xFF, 0xFF, 0x01, 0x02, 0x00, 0x00] }
     4 + (s.rbuf.read 3).toNat = 6 ∧
     s.rbuf.read (6 - 1) ≠ BitVec.ofNat 8 (255 - sumBytes (s.rbuf.readBytes 2 (6 - 3)) % 256)) := by decide

/-- A read of exactly the room, and one of a byte more (V-L2-F17). -/
theorem witness_ReadAnswerIsTaken :
    waiting.rbuf.wf = true ∧
    ((waiting.pending ++ List.replicate 63 1).take 63).length ≤ waiting.par.capR - waiting.readLen ∧
    waiting.par.capR - waiting.readLen < ((waiting.pending ++ List.replicate 64 1).take 64).length := by
  refine ⟨by decide, ?_, ?_⟩ <;> simp [waiting, State.reset, Params.atReset]

theorem witness_CollectTakesQueuedMessage :
    viewing.seq = .idle ∧ viewing.rbuf.wf = true ∧ viewing.used ≤ viewing.readLen ∧
    viewing.readLen ≤ viewing.par.capR ∧
    viewing.rbuf.readBytes viewing.used (viewing.readLen - viewing.used) = [0xFF, 0xFF, 0xFF, 0x00] ++ [] ∧
    ([0xFF, 0xFF, 0xFF, 0x00] : List Byte).take 2 = [0xFF, 0xFF] ∧
    ([0xFF, 0xFF, 0xFF, 0x00] : List Byte).length = 4 + (([0xFF, 0xFF, 0xFF, 0x00] : List Byte).getD 3 0).toNat ∧
    Verifies [0xFF, 0xFF, 0xFF, 0x00] := by decide

/-- V-L1-4's garbage and packet, in three reads that cut the prefix, into a buffer of 6 bytes. -/
theorem witness_CollectSkipsExactlyTheGarbage :
    ([[0x12, 0x34], [0x56, 0xFF], [0xFF, 0x01, 0x02, 0x00, 0xFC]] : List (List Byte)).flatten =
      [0x12, 0x34, 0x56] ++ responsePacket 0x01 [0x00, 0xFC] ∧
    (∀ i : Nat, ¬ (([0x12, 0x34, 0x56] : List Byte)[i]? = some 0xFF ∧
      ([0x12, 0x34, 0x56] : List Byte)[i + 1]? = some 0xFF)) ∧
    ([0x12, 0x34, 0x56] : List Byte).getLast? ≠ some 0xFF ∧ Verifies (responsePacket 0x01 [0x00, 0xFC]) ∧
    ([0x00, 0xFC] : List Byte).length + 4 ≤ 6 ∧
    (∀ before c later, ([[0x12, 0x34], [0x56, 0xFF], [0xFF, 0x01, 0x02, 0x00, 0xFC]] : List (List Byte)) =
        before ++ c :: later → c.length + (before.flatten.drop (garbage before.flatten)).length ≤ 6) ∧
    State.reset.seq = .idle ∧ State.reset.rbuf.wf = true ∧ State.reset.pending = [] := by
  refine ⟨by decide, ?_, by decide, by decide, by decide, ?_, rfl, rfl, rfl⟩
  · rintro (_ | _ | _ | i) <;> simp
  · rintro (_ | ⟨a, _ | ⟨b, _ | ⟨c, _ | ⟨d, l⟩⟩⟩⟩) x later h <;> simp at h
    · obtain ⟨rfl, -⟩ := h
      decide
    · obtain ⟨rfl, rfl, -⟩ := h
      decide
    · obtain ⟨rfl, rfl, rfl, -⟩ := h
      decide

theorem witness_ZeroByteReadAsksAgain :
    ({ waiting with reads := [.ok [] 5] } : State).Inv ∧ waiting.inbox = [] ∧ waiting.seq = .collect ∧
    waiting.pending = [] := by decide

/-- V-L2-F16, V-L2-F5, V-L2-F14 and V-L2-F9: each failure of a `COLLECT` from a state of the invariant. -/
theorem witness_CollectFailureStates :
    (∃ t, exec (.collect 0) { line [[0xFF, 0xFF, 0x01, 0x03]] with par := { Params.atReset with capR := 6 } } = .next t ∧
      t.result = some (.failed (.bufferTooSmall 7 6 .receive) 0) ∧ t.exchange = none) ∧
    (∃ t, exec (.collect 0) { State.reset with reads := [.ok [0x01, 0x02, 0x03] 3, .err { value := 1 } true] } = .next t ∧
      t.result = some (.failed .timeout 3) ∧ t.exchange = none) ∧
    (∃ t, exec (.collect 0) { State.reset with reads := [.err { value := 1 } false] } = .next t ∧
      t.result = some (.failed (.readFailed { value := 1 }) 0) ∧ t.exchange = none) ∧
    (∃ t, exec (.collect 0) (line [[0xFF, 0xFF, 0x01, 0x02, 0x00, 0x00]]) = .next t ∧
      t.result = some (.failed (.invalidChecksum 0x00 0xFC) 0) ∧ t.exchange = none) ∧
    State.reset.Inv := by
  refine ⟨⟨_, rfl, ?_, ?_⟩, ⟨_, rfl, ?_, ?_⟩, ⟨_, rfl, ?_, ?_⟩, ⟨_, rfl, ?_, ?_⟩, ?_⟩ <;> decide

theorem witness_CommandsEndOnceReadsFail :
    let s : State := { line [] with reads := [.ok [0xFF] 1, .err { value := 1 } true] }
    s.Inv ∧ s.seq = .idle ∧ s.discards ≠ [] ∧ s.writes ≠ [] ∧ ReadAnswer.err { value := 1 } true ∈ s.reads ∧
    resultOf (exec (.ping 0x01) s) = some (.failed .timeout 0) :=
  ⟨by decide, by decide, by decide, by decide, by decide, by decide⟩

/-- V-L3-4. -/
theorem witness_ReceiveCapacityFailureIsSticky :
    let s : State := { State.reset with
      par := { Params.atReset with capR := 16 }
      rbuf := [(0, 0xFF), (1, 0xFF), (2, 0x01), (3, 0x14)]
      readLen := 4 }
    s.seq = .idle ∧ s.rbuf.wf = true ∧ s.used = 0 ∧ 4 ≤ s.readLen ∧ s.rbuf.read 0 = 0xFF ∧ s.rbuf.read 1 = 0xFF ∧
    s.par.capR < 4 + (s.rbuf.read 3).toNat := by decide

/-- For `PingExchange`, `SaveExchange` and the bounds they share: a reply of exactly the capacity. -/
theorem witness_PingExchange :
    Ready { line [ack] with par := { Params.atReset with capW := 6, capR := 6 } }
      (responsePacket 0x01 [0x00, 0xFC]) 6 [] [] [] ∧
    6 ≤ ({ Params.atReset with capW := 6, capR := 6 } : Params).capW ∧ Verifies (responsePacket 0x01 [0x00, 0xFC]) := by
  decide

theorem witness_ReadExchange :
    Ready (line [ack]) (responsePacket 0x01 [0x00, 0xFC]) 6 [] [] [] ∧ 7 ≤ (line [ack]).par.capW ∧
    (line [ack]).par.lookup (.located .status 0x22) = some RegDesc.st22 ∧
    (line [ack]).par.lookup (.located .config 0x0D) = some RegDesc.cfg0D ∧
    (line [ack]).par.lookup (.named RegDesc.cfg21.name) = some RegDesc.cfg21 := by decide

/-- Each row, at the greatest value of its width. -/
theorem witness_WriteExchange :
    Ready (lineWith allRows [ack]) (responsePacket 0x01 [0x00, 0xFC]) 6 [] [] [] ∧ 4 + 7 ≤ allRows.capW ∧
    (allRows.lookup (.located .status 1) = some (rwReg .status 1 1 .u32) ∧
      Writable (rwReg .status 1 1 .u32) .writeStatus ((0xFF : BitVec 8).setWidth 32)) ∧
    (allRows.lookup (.located .status 2) = some (rwReg .status 2 2 .u32) ∧
      Writable (rwReg .status 2 2 .u32) .writeStatus ((0xFFFF : BitVec 16).setWidth 32)) ∧
    (allRows.lookup (.located .status 4) = some (rwReg .status 4 4 .u32) ∧
      Writable (rwReg .status 4 4 .u32) .writeStatus 0xFFFFFFFF) ∧
    (allRows.lookup (.located .config 1) = some (rwReg .config 1 1 .u32) ∧
      Writable (rwReg .config 1 1 .u32) .writeConfig ((0xFF : BitVec 8).setWidth 32)) ∧
    (allRows.lookup (.located .config 2) = some (rwReg .config 2 2 .u32) ∧
      Writable (rwReg .config 2 2 .u32) .writeConfig ((0xFFFF : BitVec 16).setWidth 32)) ∧
    (allRows.lookup (.located .config 4) = some (rwReg .config 4 4 .f32) ∧
      Writable (rwReg .config 4 4 .f32) .writeConfig 0x80000000) ∧
    (Params.atReset.lookup (.named RegDesc.cfg0D.name) = some RegDesc.cfg0D ∧
      Writable RegDesc.cfg0D .writeConfig 0x40A00000) :=
  ⟨by decide, by decide, by decide, by decide, by decide, by decide, by decide, by decide, by decide⟩

/-- One entry with room for no more, and none. -/
theorem witness_MwriteExchange :
    Ready { line [ack] with par := { Params.atReset with capW := 11 } } (responsePacket 0x01 [0x00, 0xFC]) 6 [] [] [] ∧
    (∀ e ∈ [({ addr := 0x0D, val := [0x00, 0x00, 0xA0, 0x40] } : Entry)], e.val.length = 4) ∧
    5 * [({ addr := 0x0D, val := [0x00, 0x00, 0xA0, 0x40] } : Entry)].length + 6 ≤ 11 ∧
    5 * ([] : List Entry).length + 6 ≤ 11 := by decide

/-- Each request command sends something: its operands are found, writable and in range. The last one sends 255
parameters, more than a packet holds. -/
theorem witness_Sends :
    Sends Params.atReset 0x01 0x01 [] (.ping 0x01) ∧ Sends Params.atReset 0x01 0x06 [] (.save 0x01) ∧
    Sends Params.atReset 0x01 0x02 [0x22] (.readStatus 0x01 0x22) ∧
    Sends Params.atReset 0x01 0x04 [0x0D] (.readConfig 0x01 0x0D) ∧
    Sends Params.atReset 0x01 0x04 [0x21] (.readReg RegDesc.cfg21.name 0x01) ∧
    Sends allRows 0x01 0x03 [0x01, 0xFF] (.writeStatus1 0x01 0x01 0xFF) ∧
    Sends allRows 0x01 0x03 [0x02, 0x34, 0x12] (.writeStatus2 0x01 0x02 0x1234) ∧
    Sends allRows 0x01 0x03 [0x04, 0x78, 0x56, 0x34, 0x12] (.writeStatus4 0x01 0x04 0x12345678) ∧
    Sends allRows 0x01 0x05 [0x01, 0xFF] (.writeConfig1 0x01 0x01 0xFF) ∧
    Sends allRows 0x01 0x05 [0x02, 0x34, 0x12] (.writeConfig2 0x01 0x02 0x1234) ∧
    Sends allRows 0x01 0x05 [0x04, 0x00, 0x00, 0xA0, 0x40] (.writeConfig4 0x01 0x04 0x40A00000) ∧
    Sends Params.atReset 0x01 0x05 [0x0D, 0x00, 0x00, 0xA0, 0x40] (.writeReg RegDesc.cfg0D.name 0x01 0x40A00000) ∧
    Sends Params.atReset 0x02 0x03 [0x30, 0x01, 0x02, 0x03, 0x04]
      (.mwriteStatus 0x02 [{ addr := 0x30, val := [0x01, 0x02, 0x03, 0x04] }]) ∧
    Sends Params.atReset 0x01 0x05 ((List.replicate 51 ({ addr := 0, val := [0, 0, 0, 0] } : Entry)).flatMap
      fun e => e.addr :: e.val) (.mwriteConfig 0x01 (List.replicate 51 { addr := 0, val := [0, 0, 0, 0] })) := by
  refine ⟨⟨rfl, rfl, rfl⟩, ⟨rfl, rfl, rfl⟩, ⟨rfl, _, rfl, rfl, rfl⟩, ⟨rfl, _, rfl, rfl, rfl⟩, ⟨rfl, _, rfl, rfl, rfl⟩,
    ⟨rfl, rwReg .status 1 1 .u32, .writeStatus, ?_⟩, ⟨rfl, rwReg .status 2 2 .u32, .writeStatus, ?_⟩,
    ⟨rfl, rwReg .status 4 4 .u32, .writeStatus, ?_⟩, ⟨rfl, rwReg .config 1 1 .u32, .writeConfig, ?_⟩,
    ⟨rfl, rwReg .config 2 2 .u32, .writeConfig, ?_⟩, ⟨rfl, rwReg .config 4 4 .f32, .writeConfig, ?_⟩,
    ⟨rfl, RegDesc.cfg0D, .writeConfig, ?_⟩, ⟨rfl, rfl, ?_, rfl⟩, ⟨rfl, rfl, ?_, rfl⟩⟩
  iterate 8 decide
  intro e h
  rw [List.eq_of_mem_replicate h]
  rfl

/-- Beside `witness_Sends`: what each command expects, and requests whose collect times out, rejects a message, and takes
its reply in two reads after garbage. -/
theorem witness_RequestIsCollectThenDecomposition :
    Expects Params.atReset 4 .ping (.ping 0x01) ∧
    Expects Params.atReset 3 (.read RegDesc.st22) (.readStatus 0x01 0x22) ∧
    Expects Params.atReset 5 (.read RegDesc.cfg0D) (.readConfig 0x01 0x0D) ∧
    Expects Params.atReset 2 (.read RegDesc.cfg21) (.readReg RegDesc.cfg21.name 0x01) ∧
    Expects Params.atReset 0 .ack (.save 0x01) ∧
    (line []).discards = .ok :: [] ∧ (line []).writes = .ok :: [] ∧
    resultOf (exec (.ping 0x01) { line [] with reads := [.err { value := 1 } true] }) = some (.failed .timeout 0) ∧
    resultOf (exec (.save 0x01) (line [[0xFF, 0xFF, 0x01, 0x02, 0x00, 0x01]])) =
      some (.failed (.invalidChecksum 0x01 0xFC) 0) ∧
    resultOf (exec (.save 0x01) (line [0x12 :: ack.take 3, ack.drop 3])) =
      some (.response { motorId := 0x01, warning := none, data := .unit } 1) :=
  ⟨⟨rfl, rfl⟩, ⟨_, rfl, rfl, rfl⟩, ⟨_, rfl, rfl, rfl⟩, ⟨_, rfl, rfl, rfl⟩, ⟨rfl, rfl⟩, rfl, rfl, by decide, by decide,
    by decide⟩

/-- Beside `witness_Sends`: a byte too few for a `PING`, a `READ` and a `WRITE` of 4 bytes (V-L2-B15), and 255
parameters in a buffer that could hold them. -/
theorem witness_EncodeFailureMakesNoCall :
    State.reset.seq = .idle ∧ 5 < ([] : List Byte).length + 6 ∧ 6 < ([0x22] : List Byte).length + 6 ∧
    ({ Params.atReset with capW := 10 } : Params).capW < ([0x0D, 0x00, 0x00, 0xA0, 0x40] : List Byte).length + 6 ∧
    5 * 51 + 6 ≤ ({ Params.atReset with capW := 261 } : Params).capW ∧ 253 < 5 * 51 := by decide

/-- Beside `witness_Sends`: V-L2-B7, V-L2-B8, and the same for a `WRITE`. -/
theorem witness_DiscardAndWriteFailures :
    State.reset.seq = .idle ∧ State.reset.wbuf.wf = true ∧ ([] : List Byte).length + 6 ≤ State.reset.par.capW ∧
    resultOf (exec (.ping 0x01) { State.reset with discards := [.err { value := 1 } [0x77]] }) =
      some (.failed (.discardFailed { value := 1 }) 0) ∧
    resultOf (exec (.ping 0x01) { State.reset with discards := [.ok], writes := [.err { value := 2 }] }) =
      some (.failed (.writeFailed { value := 2 }) 0) ∧
    resultOf (exec (.writeConfig1 0x01 0x21 0xAB) { State.reset with discards := [.ok], writes := [.err { value := 2 }] }) =
      some (.failed (.writeFailed { value := 2 }) 0) :=
  ⟨by decide, by decide, by decide, by decide, by decide, by decide⟩

/-- Beside `witness_Sends`: two buffers with different bytes. -/
theorem witness_PrewriteResetIsABarrier :
    (line [ack]).seq = .idle ∧ (line [ack]).rbuf.wf = true ∧ viewing.rbuf.wf = true ∧
    (line [ack]).rbuf ≠ viewing.rbuf ∧ ([0x22] : List Byte).length + 6 ≤ (line [ack]).par.capW ∧
    (line [ack]).discards = .ok :: [] := by decide

/-- V-L2-B24 to V-L2-B27; and a value of `2^8` for a `WRITE` row wider than its register. -/
theorem witness_OperandRefusals :
    State.reset.seq = .idle ∧ (∀ d ∈ State.reset.par.regs, d.name ≠ [0x4E]) ∧
    (∀ d ∈ State.reset.par.regs, ¬ (d.cls = .status ∧ d.addr = 0x0D)) ∧
    (∀ d ∈ State.reset.par.regs, ¬ (d.cls = .config ∧ d.addr = 0x22)) ∧
    (OnlyMatch State.reset.par (.named RegDesc.st22.name) RegDesc.st22 ∧
      OnlyMatch State.reset.par (.located .status 0x22) RegDesc.st22 ∧ RegDesc.st22.access = .ro) ∧
    (OnlyMatch State.reset.par (.named RegDesc.cfg21.name) RegDesc.cfg21 ∧
      OnlyMatch State.reset.par (.located .config 0x21) RegDesc.cfg21 ∧ RegDesc.cfg21.access = .rw ∧
      RegDesc.cfg21.writeOp = some .writeConfig ∧ RegDesc.cfg21.kind = .u32 ∧
      2 ^ (8 * RegDesc.cfg21.width) ≤ (0x100 : BitVec 16).toNat) ∧
    (OnlyMatch allRows (.located .status 1) (rwReg .status 1 1 .u32) ∧
      2 ^ (8 * (rwReg .status 1 1 .u32).width) ≤ (0x100 : Word32).toNat) ∧
    ([0x00, 0x00, 0xA0] : List Byte).length ≠ 4 := by
  refine ⟨by decide, by decide, by decide, by decide, ?_, ?_, ?_, by decide⟩ <;> simp only [OnlyMatch] <;> decide

/-- A read-only Config register, for the clause of `OperandRefusals` on Config rows. -/
theorem witness_OperandRefusals_config :
    let r := { rwReg .config 0x30 4 .u32 with access := .ro, writeOp := none }
    OnlyMatch { Params.atReset with regs := [r] } (.located .config 0x30) r ∧ r.access = .ro := by
  simp only [OnlyMatch]
  decide

theorem witness_PseudoInstructionsExpand :
    (∀ r ∈ allRows.regs.take 3, allRows.lookup (.located r.cls r.addr) = some r ∧ r.cls = .status) ∧
    (∀ r ∈ (allRows.regs.drop 3).take 3, allRows.lookup (.located r.cls r.addr) = some r ∧ r.cls = .config) ∧
    (allRows.regs.map (·.width)).take 6 = [1, 2, 4, 1, 2, 4] ∧
    Params.atReset.lookup (.named RegDesc.cfg21.name) = some RegDesc.cfg21 ∧
    Params.atReset.lookup (.located .config 0x21) = some RegDesc.cfg21 ∧ (0xFF : Word32).toNat < 2 ^ 8 := by decide

theorem witness_UnsolicitedPacketWaits : ¬ (State.reset.seq = .collect ∧ State.reset.phase = .read) := by decide

theorem witness_ArrivingReplyEndsExchange :
    let s : State := { waiting with rbuf := [], readLen := 0, par := { Params.atReset with capR := 6 } }
    s.seq = .collect ∧ s.phase = .read ∧ s.exchange = some (.request 0x01 .ping 4 6) ∧ s.rbuf.wf = true ∧
    s.pending = [] ∧ ([0x00, 0xFC] : List Byte).length + 4 ≤ s.par.capR ∧
    Verifies (responsePacket 0x01 [0x00, 0xFC]) := by decide

theorem witness_ViewReads :
    State.reset.view = none ∧ viewing.view = some 4 ∧ 0 + 4 ≤ 4 ∧ 4 < 1 + 4 := by decide

end Sys2Proof.Tests
end

section
/-! SUPPORT. The invariant of `Sys2Proof/Safety.lean` and how each operation keeps it; `ResetMeetsInvariant` and
`StepKeepsInvariant`. -/

namespace Sys2Proof.Machine

/-! ## The parts of the invariant -/

/-- The invariant but for the control: what also holds between two micro-steps of a command. -/
structure State.Sound (s : State) : Prop where
  par : s.par.ok
  buffers : s.BuffersOk
  cursors : s.CursorsOk
  baud : s.baud ≠ 0
  view : s.viewOk = true

theorem inv_iff {s : State} : s.Inv ↔ s.Sound ∧ s.controlOk = true :=
  ⟨fun ⟨hp, hb, hc, hr, hv, hk⟩ => ⟨⟨hp, hb, hc, hr, hv⟩, hk⟩,
    fun ⟨⟨hp, hb, hc, hr, hv⟩, hk⟩ => ⟨hp, hb, hc, hr, hv, hk⟩⟩

theorem State.viewOk_of_none {s : State} (h : s.view = none) : s.viewOk = true := by rw [State.viewOk, h]

theorem State.viewOk_of_some {s : State} {m : Nat} (h : s.view = some m) :
    s.viewOk = true ↔ 4 ≤ m ∧ m ≤ s.par.capR ∧ m = s.messageLength ∧ m = s.used := by
  rw [State.viewOk, h]
  simp [and_assoc]

theorem State.frontOk_iff {s : State} :
    s.frontOk = true ↔ (1 ≤ s.readLen → s.rbuf.read 0 = Config.hdr) ∧ (2 ≤ s.readLen → s.rbuf.read 1 = Config.hdr) := by
  simp only [State.frontOk, Bool.and_eq_true, Bool.or_eq_true, decide_eq_true_eq, beq_iff_eq, ← Nat.not_le,
    ← imp_iff_not_or]

theorem State.readingOk_iff {s : State} :
    s.readingOk = true ↔ s.used = 0 ∧ s.view = none ∧ s.frontOk = true ∧ s.readLen < s.par.capR ∧
      (s.readLen < 4 ∨ (s.readLen < s.messageLength ∧ s.messageLength ≤ s.par.capR)) := by
  simp [State.readingOk, and_assoc]

theorem State.sendingOk_iff {s : State} {k : Nat} :
    s.sendingOk k = true ↔ s.phase = .idle ∧ s.view = none ∧ s.used = 0 ∧ s.readLen = 0 ∧ 6 ≤ k ∧ k ≤ s.par.capW := by
  simp [State.sendingOk, and_assoc]

/-- Where the block can be between steps (spec 10 R40; 60 R315). -/
theorem State.controlOk_iff {s : State} :
    s.controlOk = true ↔
      (s.seq = .idle ∧ s.exchange = none ∧ s.phase = .idle) ∨
      (s.seq = .reset ∧ ∃ id kd nexp k, s.exchange = some (.request id kd nexp k) ∧ s.sendingOk k = true) ∨
      (s.seq = .write ∧ ∃ id kd nexp k, s.exchange = some (.request id kd nexp k) ∧ s.sendingOk k = true) ∨
      (s.seq = .collect ∧ ∃ x, s.exchange = some x ∧ s.phase = .read ∧ s.readingOk = true) := by
  rw [State.controlOk]
  cases s.seq <;> rcases s.exchange with _ | (_ | _) <;> simp

/-! ## The end and the start of a command -/

theorem inv_of_idle {s : State} (h : s.Sound) (hseq : s.seq = .idle) (hx : s.exchange = none) (hp : s.phase = .idle) :
    s.Inv := inv_iff.mpr ⟨h, State.controlOk_iff.mpr (.inl ⟨hseq, hx, hp⟩)⟩

theorem State.Sound.deliver_inv {s : State} (h : s.Sound) (r : Result) : (s.deliver r).Inv :=
  inv_of_idle ⟨h.par, h.buffers, h.cursors, h.baud, h.view⟩ rfl rfl rfl

theorem State.Sound.raise_inv {s : State} (h : s.Sound) (f : Failure) : (s.raise f).Inv := h.deliver_inv _

theorem State.Sound.refuse_inv {s : State} (h : s.Sound) (r : RefusalInfo) : (s.refuse r).Inv :=
  inv_of_idle ⟨h.par, h.buffers, h.cursors, h.baud, h.view⟩ rfl rfl rfl

/-- A block whose command has just started: no view, and nothing else in progress (44 R231). -/
structure State.Started (s : State) : Prop where
  sound : s.Sound
  seq : s.seq = .idle
  phase : s.phase = .idle
  exchange : s.exchange = none
  view : s.view = none

/-- A command keeps the invariant if its body does from the start of a command. -/
theorem command_inv {body : State → State} (hbody : ∀ t : State, t.Started → (body t).Inv) {s : State} (h : s.Inv) :
    (s.command body).Inv := by
  obtain ⟨hs, hk⟩ := inv_iff.mp h
  rcases command_cases body s with ⟨hseq, e⟩ | ⟨-, e⟩ <;> rw [e]
  · rcases State.controlOk_iff.mp hk with ⟨-, hx, hp⟩ | ⟨h', -⟩ | ⟨h', -⟩ | ⟨h', -⟩
    · exact hbody _ ⟨⟨hs.par, hs.buffers, hs.cursors, hs.baud, State.viewOk_of_none rfl⟩, hseq, hp, hx, rfl⟩
    all_goals exact absurd (hseq.symm.trans h') (by decide)
  · exact hs.refuse_inv _

/-! ## The framer -/

/-- A collect that is about to make a resync pass (42 R160). -/
structure State.Collecting (s : State) : Prop where
  sound : s.Sound
  seq : s.seq = .collect
  exchange : s.exchange ≠ none
  view : s.view = none

/-- A collect that has verified a message, its command not ended yet (42 R168). -/
structure State.Collected (s : State) : Prop where
  sound : s.Sound
  seq : s.seq = .collect
  phase : s.phase = .idle
  exchange : s.exchange ≠ none
  view : s.view ≠ none

/-- What is left after the garbage begins with `FF FF`, or is a lone `FF`, or is empty (42 R163). -/
theorem drop_garbage_front (l : List Byte) :
    (∀ b ∈ (l.drop (garbage l))[0]?, b = Config.hdr) ∧ (∀ b ∈ (l.drop (garbage l))[1]?, b = Config.hdr) := by
  induction l using garbage.induct with
  | case1 => simp
  | case2 => simp [garbage]
  | case3 b hb => simp [garbage, hb]
  | case4 b0 b1 bs h => simp [garbage, h]
  | case5 b0 b1 bs h ih => rwa [garbage, if_neg h, Nat.add_comm, List.drop_succ_cons]

/-- The byte at `i` after a resync pass is the byte `i` after the garbage of the tail. -/
theorem read_resync {s : State} (hwf : s.rbuf.wf = true) {i : Nat} (hi : i < (resync s).readLen) :
    (s.tail.drop (garbage s.tail))[i]? = some ((resync s).rbuf.read i) := by
  rw [resync_readLen] at hi
  rw [resync_rbuf, Memory.read_writeBytes _ _ _ hwf, if_pos (by simpa using hi), Nat.sub_zero,
    Memory.getD_readBytes _ _ _ _ hi, List.getElem?_drop, List.getElem?_eq_getElem (by simp; omega)]
  simp only [State.tail, Memory.getElem_readBytes, Nat.add_assoc]

theorem resync_frontOk {s : State} (hwf : s.rbuf.wf = true) : (resync s).frontOk = true := by
  obtain ⟨h0, h1⟩ := drop_garbage_front s.tail
  exact State.frontOk_iff.mpr ⟨fun h => h0 _ (read_resync hwf h), fun h => h1 _ (read_resync hwf h)⟩

theorem resync_sound {s : State} (h : s.Collecting) : (resync s).Sound := by
  obtain ⟨hww, hrw, hwc, hrc, h0, h1⟩ := h.sound.buffers
  obtain ⟨hu, hl⟩ := h.sound.cursors
  refine ⟨h.sound.par, ⟨hww, Memory.wf_writeBytes _ _ hrw, hwc, Memory.within_writeBytes _ hrc ?_, h0, h1⟩,
    ⟨Nat.zero_le _, ?_⟩, h.sound.baud, State.viewOk_of_none h.view⟩
  · simp only [Memory.length_readBytes, resync_par]; omega
  · simp only [resync_readLen, resync_par]; omega

/-- A verified message becomes the view; one that does not verify ends the command with no view (42 R167). -/
theorem verify_inv {s : State} (h : s.Collecting) (hu : s.used = 0)
    (hm : s.messageLength ≤ s.readLen) (hc : s.messageLength ≤ s.par.capR) :
    (verify s).Inv ∨ (verify s).Collected := by
  obtain ⟨hpar, hbuf, ⟨-, hl⟩, hbaud, -⟩ := h.sound
  have hcur : s.used + s.messageLength ≤ s.readLen := by omega
  rcases verify_cases s with ⟨e, -⟩ | ⟨e, -⟩ <;> rw [e]
  · refine .inr ⟨⟨hpar, hbuf, ⟨hcur, hl⟩, hbaud, (State.viewOk_of_some rfl).mpr ?_⟩, h.seq, rfl, h.exchange, by simp⟩
    exact ⟨Nat.le_add_right _ _, hc, rfl, by simp only; omega⟩
  · have ht : ({ s with used := s.used + s.messageLength, phase := .idle } : State).Sound :=
      ⟨hpar, hbuf, ⟨hcur, hl⟩, hbaud, State.viewOk_of_none h.view⟩
    exact .inl (ht.raise_inv _)

/-- A turn ends in a wait for a read, in the end of the command, or with a verified message (42 R160). -/
theorem turn_inv {s : State} (h : s.Collecting) : (turn s).Inv ∨ (turn s).Collected := by
  have hs := resync_sound h
  rcases turn_cases s with ⟨e, hc⟩ | ⟨e, -⟩ | ⟨e, -, hm, hc⟩ <;> rw [e]
  · have hroom : (resync s).readLen < s.par.capR := by have := h.sound.par.2.1; omega
    have hreading : (issueRead { resync s with phase := .read }).readingOk = true :=
      State.readingOk_iff.mpr ⟨rfl, h.view, resync_frontOk h.sound.buffers.2.1, hroom, hc.imp_right (·.2)⟩
    obtain ⟨x, hx⟩ := Option.ne_none_iff_exists'.mp h.exchange
    exact .inl (inv_iff.mpr ⟨⟨hs.par, hs.buffers, hs.cursors, hs.baud, hs.view⟩,
      State.controlOk_iff.mpr (.inr (.inr (.inr ⟨h.seq, x, hx, rfl, hreading⟩)))⟩)
  · exact .inl (hs.raise_inv _)
  · exact verify_inv ⟨⟨hs.par, hs.buffers, hs.cursors, hs.baud, hs.view⟩, h.seq, h.exchange, h.view⟩ rfl hm hc

/-- A block that waits for a read is in a collect, with no view. -/
theorem collecting_of_reading {s : State} (h : s.Inv) (hp : s.phase = .read) : s.Collecting := by
  obtain ⟨hs, hk⟩ := inv_iff.mp h
  have hp' : s.phase ≠ .idle := by rw [hp]; decide
  rcases State.controlOk_iff.mp hk with ⟨-, -, h'⟩ | ⟨-, _, _, _, _, -, h'⟩ | ⟨-, _, _, _, _, -, h'⟩ |
    ⟨hseq, x, hx, -, h'⟩
  · exact absurd h' hp'
  · exact absurd (State.sendingOk_iff.mp h').1 hp'
  · exact absurd (State.sendingOk_iff.mp h').1 hp'
  · exact ⟨hs, hseq, by simp [hx], (State.readingOk_iff.mp h').2.1⟩

/-- A read's answer is taken into the room there is, or ends the command (42 R166). -/
theorem takeRead_inv (a : ReadAnswer) {s : State} (h : s.Collecting) :
    ((takeRead a s).phase = .resync ∧ (takeRead a s).Collecting) ∨
      ((takeRead a s).phase = .idle ∧ (takeRead a s).Inv) := by
  obtain ⟨hpar, ⟨hww, hrw, hwc, hrc, h0, h1⟩, ⟨hu, hl⟩, hbaud, hview⟩ := h.sound
  have hcall : ∀ c, (s.callTransport c).Sound := fun _ => ⟨hpar, h.sound.buffers, h.sound.cursors, hbaud, hview⟩
  rcases takeRead_cases a s with ⟨bytes, left, e, hroom⟩ | ⟨k, left, e, -⟩ | ⟨e', e⟩ | ⟨e', e⟩ <;> rw [e]
  · have hfit : s.readLen + bytes.length ≤ s.par.capR := by rw [State.room] at hroom; omega
    exact .inl ⟨rfl, ⟨hpar, ⟨hww, Memory.wf_writeBytes _ _ hrw, hwc, Memory.within_writeBytes _ hrc hfit, h0, h1⟩,
      ⟨Nat.le_add_right_of_le hu, hfit⟩, hbaud, State.viewOk_of_none h.view⟩, h.seq, h.exchange, h.view⟩
  · have ht : ({ s with pending := left } : State).Sound := ⟨hpar, h.sound.buffers, h.sound.cursors, hbaud, hview⟩
    exact .inr ⟨rfl, ht.refuse_inv _⟩
  · exact .inr ⟨rfl, (hcall _).raise_inv _⟩
  · exact .inr ⟨rfl, (hcall _).raise_inv _⟩

/-- The loop of a collect ends in a wait for a read, in the end of the command, or with a verified message. -/
theorem awaitReads_inv (as : List ReadAnswer) {s : State} (h : s.Inv ∨ s.Collected) :
    (awaitReads as s).Inv ∨ (awaitReads as s).Collected := by
  induction as generalizing s with
  | nil => exact h
  | cons a as ih =>
    rw [awaitReads]
    split
    · next hp =>
      have hc : s.Collecting := by
        rcases h with h | h
        · exact collecting_of_reading h hp
        · exact absurd (hp.symm.trans h.phase) (by decide)
      have ht := takeRead_inv (s := { s with reads := as }) a
        ⟨⟨hc.sound.par, hc.sound.buffers, hc.sound.cursors, hc.sound.baud, hc.sound.view⟩, hc.seq, hc.exchange, hc.view⟩
      simp only
      split
      · next hr =>
        rcases ht with ⟨-, ht⟩ | ⟨hi, -⟩
        · exact ih (turn_inv ht)
        · exact absurd (hr.symm.trans hi) (by decide)
      · next hr =>
        rcases ht with ⟨hr', -⟩ | ⟨-, ht⟩
        · exact absurd hr' hr
        · exact .inl ht
    · exact h

/-! ## The sequencer -/

theorem finishRequest_inv (m : Nat) (id : Byte) (k : Kind) {s : State} (h : s.Sound) :
    (finishRequest m id k s).Inv := by
  rw [finishRequest]
  split
  · exact h.raise_inv _
  · exact h.deliver_inv _

/-- After its loop a collect waits for a read, or its command has ended. -/
theorem afterCollect_inv {s : State} (h : s.Inv ∨ s.Collected) : (afterCollect s).Inv := by
  rcases h with h | h
  · have hout : ¬ (s.seq = .collect ∧ s.phase = .idle) := by
      rintro ⟨hseq, hp⟩
      have hk := (inv_iff.mp h).2
      rw [State.controlOk, hseq, hp] at hk
      cases hx : s.exchange <;> simp [hx] at hk
    rwa [afterCollect, if_neg hout]
  · obtain ⟨x, hx⟩ := Option.ne_none_iff_exists'.mp h.exchange
    obtain ⟨m, hm⟩ := Option.ne_none_iff_exists'.mp h.view
    rw [afterCollect, if_pos ⟨h.seq, h.phase⟩, hx, hm]
    cases x with
    | request id k nexp len => exact finishRequest_inv m id k h.sound
    | collect nexp => exact h.sound.deliver_inv _

theorem goOnReading_inv {s : State} (h : s.Inv ∨ s.Collected) : (goOnReading s).Inv :=
  afterCollect_inv (awaitReads_inv s.reads h)

theorem beginCollect_inv (nexp : Nat) {s : State} (h : s.Sound) (hx : s.exchange ≠ none) (hv : s.view = none) :
    (beginCollect nexp s).Inv :=
  goOnReading_inv (turn_inv ⟨⟨h.par, h.buffers, h.cursors, h.baud, h.view⟩, rfl, hx, hv⟩)

/-- A request between its encode and its collect (44 R235, R236). -/
structure State.Sending (s : State) (k : Nat) : Prop where
  sound : s.Sound
  exchange : ∃ id kd nexp, s.exchange = some (.request id kd nexp k)
  sending : s.sendingOk k = true

theorem State.Sending.exchange_ne_none {s : State} {k : Nat} (h : s.Sending k) : s.exchange ≠ none := by
  obtain ⟨id, kd, nexp, hx⟩ := h.exchange
  simp [hx]

theorem takeWrite_inv (nexp : Nat) {k : Nat} {s : State} (h : s.Sending k) (hseq : s.seq = .write) :
    (takeWrite nexp s).Inv := by
  have hs := h.sound
  rw [takeWrite]
  split
  · obtain ⟨id, kd, n, hx⟩ := h.exchange
    exact inv_iff.mpr ⟨hs, State.controlOk_iff.mpr (.inr (.inr (.inl ⟨hseq, id, kd, n, k, hx, h.sending⟩)))⟩
  · exact beginCollect_inv nexp ⟨hs.par, hs.buffers, hs.cursors, hs.baud, hs.view⟩ h.exchange_ne_none
      (State.sendingOk_iff.mp h.sending).2.1
  · next e ws _ =>
    have ht : ({ s with writes := ws } : State).Sound := ⟨hs.par, hs.buffers, hs.cursors, hs.baud, hs.view⟩
    exact ht.raise_inv _

theorem beginWrite_inv (nexp k : Nat) {s : State} (h : s.Sending k) : (beginWrite nexp k s).Inv :=
  takeWrite_inv nexp (k := k) ⟨⟨h.sound.par, h.sound.buffers, h.sound.cursors, h.sound.baud, h.sound.view⟩,
    h.exchange, h.sending⟩ rfl

theorem takeDiscard_inv (nexp : Nat) {k : Nat} {s : State} (h : s.Sending k) (hseq : s.seq = .reset) :
    (takeDiscard nexp k s).Inv := by
  have hs := h.sound
  rw [takeDiscard]
  split
  · obtain ⟨id, kd, n, hx⟩ := h.exchange
    exact inv_iff.mpr ⟨hs, State.controlOk_iff.mpr (.inr (.inl ⟨hseq, id, kd, n, k, hx, h.sending⟩))⟩
  · exact beginWrite_inv nexp k ⟨⟨hs.par, hs.buffers, hs.cursors, hs.baud, hs.view⟩, h.exchange, h.sending⟩
  · next e left ds _ =>
    have ht : ({ s with discards := ds, pending := left } : State).Sound :=
      ⟨hs.par, hs.buffers, hs.cursors, hs.baud, hs.view⟩
    exact ht.raise_inv _

/-- An encode keeps what is sound, and leaves `FF FF` at the front of `WBUF` (10 R31; 41 R142). -/
theorem sound_of_encodePacket {id ins : Byte} {params : List Byte} {s : State} {w : Memory} (h : s.Sound)
    (e : encodePacket id ins params s = .ok { s with wbuf := w }) :
    ({ s with wbuf := w } : State).Sound ∧ params.length + 6 ≤ s.par.capW := by
  obtain ⟨hww, hrw, hwc, hrc, -, -⟩ := h.buffers
  rcases encodePacket_cases id ins params s with ⟨-, e'⟩ | ⟨-, -, e'⟩ | ⟨hcap, -, w', e', hread, hin⟩ <;> rw [e'] at e
  · cases e
  · cases e
  · obtain rfl : w' = w := congrArg State.wbuf (Except.ok.inj e)
    obtain ⟨hwf, hbytes⟩ := hread hww
    have h0 : w'.read 0 = Config.hdr := by rw [hbytes, if_pos (by omega)]; rfl
    have h1 : w'.read 1 = Config.hdr := by rw [hbytes, if_pos (by omega)]; rfl
    exact ⟨⟨h.par, ⟨hwf, hrw, hin hwc, hrc, h0, h1⟩, h.cursors, h.baud, h.view⟩, hcap⟩

theorem requestBody_inv (id ins : Byte) (params : List Byte) (nexp : Nat) (k : Kind) {s : State} (h : s.Started) :
    (requestBody id ins params nexp k s).Inv := by
  rcases requestBody_cases id ins params nexp k s with ⟨f, -, e⟩ | ⟨w, he, e⟩ <;> rw [e]
  · exact h.sound.raise_inv f
  · obtain ⟨hw, hcap⟩ := sound_of_encodePacket h.sound he
    exact takeDiscard_inv nexp ⟨⟨hw.par, hw.buffers, ⟨le_rfl, Nat.zero_le _⟩, hw.baud, State.viewOk_of_none h.view⟩,
      ⟨id, k, nexp, rfl⟩, State.sendingOk_iff.mpr ⟨h.phase, h.view, rfl, rfl, Nat.le_add_left _ _, hcap⟩⟩ rfl

/-! ## The commands -/

theorem readCommand_inv (ref : RegRef) (id : Byte) {s : State} (h : s.Inv) : (readCommand ref id s).Inv := by
  refine command_inv (fun t ht => ?_) h
  split
  · exact ht.sound.refuse_inv _
  · exact requestBody_inv _ _ _ _ _ ht

theorem writeValue_inv (r : RegDesc) (op : InsName) (id : Byte) (v : Word32) {s : State} (h : s.Started) :
    (writeValue r op id v s).Inv := by
  rw [writeValue]
  split
  · exact h.sound.refuse_inv _
  · exact h.sound.raise_inv _
  · exact requestBody_inv _ _ _ _ _ h

theorem writeCommand_inv (ref : RegRef) (id : Byte) (v : Word32) {s : State} (h : s.Inv) :
    (writeCommand ref id v s).Inv := by
  refine command_inv (fun t ht => ?_) h
  split
  · exact ht.sound.refuse_inv _
  · split
    · exact writeValue_inv _ _ _ _ ht
    · exact ht.sound.refuse_inv _

theorem mwriteCommand_inv (cls : RegClass) (id : Byte) (es : List Entry) {s : State} (h : s.Inv) :
    (mwriteCommand cls id es s).Inv := by
  refine command_inv (fun t ht => ?_) h
  split
  · exact ht.sound.refuse_inv _
  · exact requestBody_inv _ _ _ _ _ ht

theorem request_inv (id : Byte) (x : InsName) (params : List Byte) (nexp : Nat) (k : Kind) {s : State} (h : s.Inv) :
    (request id x params nexp k s).Inv := command_inv (fun _ ht => requestBody_inv _ _ _ _ _ ht) h

theorem collectCommand_inv (nexp : Nat) {s : State} (h : s.Inv) : (collectCommand nexp s).Inv := by
  refine command_inv (fun t ht => ?_) h
  have hs := ht.sound
  exact beginCollect_inv nexp ⟨hs.par, hs.buffers, hs.cursors, hs.baud, hs.view⟩ (by simp) ht.view

theorem encodeBody_inv (id ins : Byte) (params : List Byte) {s : State} (h : s.Started) :
    (encodeBody id ins params s).Inv := by
  rw [encodeBody]
  rcases encodePacket_cases id ins params s with ⟨-, e⟩ | ⟨-, -, e⟩ | ⟨-, -, w, e, -⟩
  · rw [e]; exact h.sound.raise_inv _
  · rw [e]; exact h.sound.raise_inv _
  · have hw := (sound_of_encodePacket h.sound e).1
    rw [e]; exact hw.deliver_inv _

/-- A command that only gives a result. -/
theorem answer_inv (r : State → Result) {s : State} (h : s.Inv) : (s.command fun t => t.deliver (r t)).Inv :=
  command_inv (fun _ ht => ht.sound.deliver_inv _) h

theorem setBaudBody_inv (b : Word32) {s : State} (h : s.Started) : (setBaudBody b s).Inv := by
  have hs := h.sound
  rw [setBaudBody]
  split
  · exact hs.refuse_inv _
  · next hb =>
    have ht : ({ s.callTransport (.setBaudRate b) with baud := b } : State).Sound :=
      ⟨hs.par, hs.buffers, hs.cursors, hb, hs.view⟩
    exact ht.deliver_inv _

/-! ## The step -/

theorem resume_inv {s : State} (h : s.Inv) : (resume s).Inv := by
  obtain ⟨hs, hk⟩ := inv_iff.mp h
  rcases State.controlOk_iff.mp hk with ⟨hseq, -, -⟩ | ⟨hseq, id, kd, nexp, k, hx, hsend⟩ |
    ⟨hseq, id, kd, nexp, k, hx, hsend⟩ | ⟨hseq, x, hx, -, -⟩
  · rwa [resume, hseq]
  · rw [resume, hseq, hx]
    exact takeDiscard_inv nexp ⟨hs, ⟨id, kd, nexp, hx⟩, hsend⟩ hseq
  · rw [resume, hseq, hx]
    exact takeWrite_inv nexp ⟨hs, ⟨id, kd, nexp, hx⟩, hsend⟩ hseq
  · rw [resume, hseq, hx]
    exact goOnReading_inv (.inl h)

/-- The invariant does not speak of the transport's pending input and answers, so an arrival keeps it. -/
theorem receive_inv (bytes : List Byte) {s : State} (h : s.Inv) : (receive bytes s).Inv := by
  rw [receive]
  simp only
  split
  · exact resume_inv h
  · exact h

theorem exec_inv {i : Instr} {s t : State} (e : exec i s = .next t) (h : s.Inv) : t.Inv := by
  cases i <;> cases e
  case insPing | insReadStatus | insWriteStatus | insReadConfig | insWriteConfig | insSaveConfig | insBulkComm |
    decodeIns => exact answer_inv (fun t => .instruction (t.par.opc.decodeIns _)) h
  case ping | save => exact request_inv _ _ _ _ _ h
  case readStatus | readConfig | readReg => exact readCommand_inv _ _ h
  case writeStatus1 | writeStatus2 | writeStatus4 | writeConfig1 | writeConfig2 | writeConfig4 | writeReg =>
    exact writeCommand_inv _ _ _ h
  case mwriteConfig | mwriteStatus => exact mwriteCommand_inv _ _ _ h
  case encodeRaw => exact command_inv (fun _ ht => encodeBody_inv _ _ _ ht) h
  case response => exact receive_inv _ h
  case collect => exact collectCommand_inv _ h
  case checksum d => exact answer_inv (fun _ => .byte (Sys2Proof.checksum d)) h
  case ttime size => exact answer_inv (fun t => .micros (transferTime t.baud size)) h
  case setBaud => exact command_inv (fun _ ht => setBaudBody_inv _ ht) h

theorem readView_inv {a n : Nat} {s t : State} (e : s.readView a n = .next t) (h : s.Inv) : t.Inv := by
  rw [State.readView] at e
  split at e
  · cases e; exact (inv_iff.mp h).1.refuse_inv _
  · split at e
    · cases e; exact h
    · cases e

/-- Settles O9: between steps the block is idle or waits at one transport call, and each operation that a step runs
leads from there, or from the start of a command, back there. -/
theorem stepKeepsInvariant : Obligations.StepKeepsInvariant := by
  intro s t h e
  rcases step_cases s with ⟨-, h'⟩ | ⟨w, rest, i, -, -, h'⟩ | ⟨w, rest, d, -, -, h'⟩ | ⟨a, n, rest, -, h'⟩ <;>
    rw [h'] at e
  · cases e; exact resume_inv h
  · exact exec_inv e h
  · cases e
  · exact readView_inv e h

/-- Settles O8. -/
theorem resetMeetsInvariant : Obligations.ResetMeetsInvariant := by
  obtain ⟨hw, hr⟩ := reset_memories_wf
  have hpar : State.reset.par.ok := by decide
  have hbuf : State.reset.BuffersOk := ⟨hw, hr, rfl, rfl, rfl, rfl⟩
  exact inv_of_idle ⟨hpar, hbuf, ⟨le_rfl, Nat.zero_le _⟩, by decide, State.viewOk_of_none rfl⟩ rfl rfl rfl

end Sys2Proof.Machine
end

section
/-! SUPPORT. How a step serves the host's requests, and how a command that waits goes on;
`StepRunsDecodedInstruction` and `YieldingChangesNothing`. -/

namespace Sys2Proof.Machine

open Sys2Proof.Claims

/-! ## The host's requests -/

theorem step_of_issue {s : State} {w : CommandWord} {rest : List HostRequest} {i : Instr}
    (hq : s.inbox = .issue w :: rest) (hd : decode s.par w = .ok i) : step s = exec i { s with inbox := rest } := by
  simp only [step, advance, hq, serve, hd]

theorem step_of_undecodable {s : State} {w : CommandWord} {rest : List HostRequest} {e : DecodeError}
    (hq : s.inbox = .issue w :: rest) (hd : decode s.par w = .error e) : step s = .refused (.noSuchCommand e) := by
  simp only [step, advance, hq, serve, hd]

theorem step_of_readView {s : State} {a n : Nat} {rest : List HostRequest} (hq : s.inbox = .readView a n :: rest) :
    step s = { s with inbox := rest }.readView a n := by
  simp only [step, advance, hq, serve]

theorem step_of_inbox_nil {s : State} (hq : s.inbox = []) : step s = .next (resume s) := by
  simp only [step, advance, hq]

/-- Settles O4: a step serves the first request of the inbox, and `withFetchWord` puts a word there. -/
theorem stepRunsDecodedInstruction : Obligations.StepRunsDecodedInstruction :=
  ⟨fun _ _ _ _ => step_of_issue, fun _ _ _ _ => step_of_undecodable, fun _ _ _ _ => step_of_readView,
    fun s nbits w _ hd => step_of_issue (s.withFetchWord_inbox nbits w) hd⟩

/-! ## Going on with a command -/

theorem resume_of_idle {s : State} (h : s.seq = .idle) : resume s = s := by rw [resume, h]

theorem resume_of_reset {s : State} {id : Byte} {kd : Kind} {nexp k : Nat} (h : s.seq = .reset)
    (hx : s.exchange = some (.request id kd nexp k)) : resume s = takeDiscard nexp k s := by rw [resume, h, hx]

theorem resume_of_write {s : State} {id : Byte} {kd : Kind} {nexp k : Nat} (h : s.seq = .write)
    (hx : s.exchange = some (.request id kd nexp k)) : resume s = takeWrite nexp s := by rw [resume, h, hx]

theorem resume_of_collect {s : State} {x : Exchange} (h : s.seq = .collect) (hx : s.exchange = some x) :
    resume s = goOnReading s := by rw [resume, h, hx]

/-- A command waits for one of three calls, or there is nothing to go on with. -/
theorem resume_cases (s : State) :
    (∃ id kd nexp k, s.seq = .reset ∧ s.exchange = some (.request id kd nexp k)) ∨
    (∃ id kd nexp k, s.seq = .write ∧ s.exchange = some (.request id kd nexp k)) ∨
    (∃ x, s.seq = .collect ∧ s.exchange = some x) ∨
    (∀ t : State, t.seq = s.seq → t.exchange = s.exchange → resume t = t) := by
  cases hs : s.seq with
  | idle | encode | decompose => exact .inr (.inr (.inr fun t ht _ => by rw [resume, ht]))
  | reset =>
    rcases hx : s.exchange with _ | (⟨id, kd, nexp, k⟩ | nexp)
    · exact .inr (.inr (.inr fun t ht he => by rw [resume, ht, he]))
    · exact .inl ⟨id, kd, nexp, k, rfl, rfl⟩
    · exact .inr (.inr (.inr fun t ht he => by rw [resume, ht, he]))
  | write =>
    rcases hx : s.exchange with _ | (⟨id, kd, nexp, k⟩ | nexp)
    · exact .inr (.inr (.inr fun t ht he => by rw [resume, ht, he]))
    · exact .inr (.inl ⟨id, kd, nexp, k, rfl, rfl⟩)
    · exact .inr (.inr (.inr fun t ht he => by rw [resume, ht, he]))
  | collect =>
    rcases hx : s.exchange with _ | x
    · exact .inr (.inr (.inr fun t ht he => by rw [resume, ht, he]))
    · exact .inr (.inr (.inl ⟨x, rfl, rfl⟩))

/-! What a request does, from the outcome of the encoder. -/

theorem requestBody_of_error {id ins : Byte} {params : List Byte} {nexp : Nat} {k : Kind} {s : State} {f : Failure}
    (h : encodePacket id ins params s = .error f) : requestBody id ins params nexp k s = s.raise f := by
  rcases requestBody_cases id ins params nexp k s with ⟨f', he, e⟩ | ⟨w, he, -⟩
  · rw [e, Except.error.inj (he.symm.trans h)]
  · cases he.symm.trans h

theorem requestBody_of_ok {id ins : Byte} {params : List Byte} {nexp : Nat} {k : Kind} {s : State} {w : Memory}
    (h : encodePacket id ins params s = .ok { s with wbuf := w }) :
    requestBody id ins params nexp k s = prewriteReset nexp (params.length + 6)
      { s with wbuf := w, seq := .encode, exchange := some (.request id k nexp (params.length + 6)) } := by
  rcases requestBody_cases id ins params nexp k s with ⟨f, he, -⟩ | ⟨w', he, e⟩
  · cases he.symm.trans h
  · obtain rfl : w' = w := congrArg State.wbuf (Except.ok.inj (he.symm.trans h))
    exact e

theorem command_of_idle {body : State → State} {s : State} (h : s.seq = .idle) :
    s.command body = body { s with view := none } := by rw [State.command, if_pos h]

theorem command_of_busy (body : State → State) {s : State} (h : s.seq ≠ .idle) :
    s.command body = s.refuse .concurrentCommand := by rw [State.command, if_neg h]

theorem takeWrite_nil {nexp : Nat} {s : State} (h : s.writes = []) : takeWrite nexp s = s := by rw [takeWrite, h]

theorem takeWrite_ok {nexp : Nat} {s : State} {ws : List WriteAnswer} (h : s.writes = .ok :: ws) :
    takeWrite nexp s = beginCollect nexp { s with writes := ws } := by rw [takeWrite, h]

theorem takeWrite_err {nexp : Nat} {s : State} {e : TransportError} {ws : List WriteAnswer}
    (h : s.writes = .err e :: ws) : takeWrite nexp s = { s with writes := ws }.raise (.writeFailed e) := by
  rw [takeWrite, h]

theorem takeDiscard_nil {nexp k : Nat} {s : State} (h : s.discards = []) : takeDiscard nexp k s = s := by
  rw [takeDiscard, h]

theorem takeDiscard_ok {nexp k : Nat} {s : State} {ds : List DiscardAnswer} (h : s.discards = .ok :: ds) :
    takeDiscard nexp k s = beginWrite nexp k { s with discards := ds, pending := [] } := by rw [takeDiscard, h]

theorem takeDiscard_err {nexp k : Nat} {s : State} {e : TransportError} {left : List Byte} {ds : List DiscardAnswer}
    (h : s.discards = .err e left :: ds) :
    takeDiscard nexp k s = { s with discards := ds, pending := left }.raise (.discardFailed e) := by
  rw [takeDiscard, h]

theorem awaitReads_of_phase_ne_read {as : List ReadAnswer} {s : State} (h : s.phase ≠ .read) : awaitReads as s = s := by
  cases as with
  | nil => rfl
  | cons a as => rw [awaitReads, if_neg h]

theorem awaitReads_cons_of_resync {a : ReadAnswer} {as : List ReadAnswer} {s : State} (hp : s.phase = .read)
    (hr : (takeRead a { s with reads := as }).phase = .resync) :
    awaitReads (a :: as) s = awaitReads as (turn (takeRead a { s with reads := as })) := by
  rw [awaitReads, if_pos hp]
  exact if_pos hr

theorem awaitReads_cons_of_ended {a : ReadAnswer} {as : List ReadAnswer} {s : State} (hp : s.phase = .read)
    (hr : (takeRead a { s with reads := as }).phase ≠ .resync) :
    awaitReads (a :: as) s = takeRead a { s with reads := as } := by
  rw [awaitReads, if_pos hp]
  exact if_neg hr

theorem takeRead_phase (a : ReadAnswer) (s : State) :
    (takeRead a s).phase = .resync ∨ (takeRead a s).phase = .idle := by
  rcases takeRead_cases a s with ⟨_, _, e, -⟩ | ⟨_, _, e, -⟩ | ⟨_, e⟩ | ⟨_, e⟩ <;> simp [e]

@[simp] theorem takeRead_reads (a : ReadAnswer) (s : State) : (takeRead a s).reads = s.reads := by
  rcases takeRead_cases a s with ⟨_, _, e, -⟩ | ⟨_, _, e, -⟩ | ⟨_, e⟩ | ⟨_, e⟩ <;> rw [e] <;> rfl

@[simp] theorem verify_reads (s : State) : (verify s).reads = s.reads := by
  rcases verify_cases s with ⟨e, -⟩ | ⟨e, -⟩ <;> simp [e]

@[simp] theorem turn_reads (s : State) : (turn s).reads = s.reads := by
  rcases turn_cases s with ⟨e, -⟩ | ⟨e, -⟩ | ⟨e, -⟩ <;> rw [e]
  · rfl
  · rfl
  · exact verify_reads _

/-- After a collect the command has ended with the message it verified, or nothing has changed. -/
theorem afterCollect_cases (s : State) :
    afterCollect s = s ∨
      ((afterCollect s).seq = .idle ∧ (afterCollect s).inbox = s.inbox ∧ s.seq = .collect ∧ s.phase = .idle) := by
  rw [afterCollect]
  split
  · next hc =>
    split
    · right
      rw [finishRequest]
      split <;> exact ⟨rfl, rfl, hc⟩
    · exact .inr ⟨rfl, rfl, hc⟩
    · exact .inl rfl
  · exact .inl rfl

/-! ## Further answers

No operation but the three that take an answer looks at the answers that the transport has given, so each gives the
same with further answers behind them. -/

section
variable (s : State) (ds : List DiscardAnswer) (ws : List WriteAnswer) (rs : List ReadAnswer)

@[simp] theorem moreAnswers_phase : (moreAnswers s ds ws rs).phase = s.phase := rfl
@[simp] theorem moreAnswers_view : (moreAnswers s ds ws rs).view = s.view := rfl
@[simp] theorem moreAnswers_exchange : (moreAnswers s ds ws rs).exchange = s.exchange := rfl
@[simp] theorem moreAnswers_discards : (moreAnswers s ds ws rs).discards = s.discards ++ ds := rfl
@[simp] theorem moreAnswers_writes : (moreAnswers s ds ws rs).writes = s.writes ++ ws := rfl
@[simp] theorem moreAnswers_reads : (moreAnswers s ds ws rs).reads = s.reads ++ rs := rfl

theorem check_moreAnswers : check (moreAnswers s ds ws rs) = moreAnswers (check s) ds ws rs := by
  simp only [check, apply_ite (fun t => moreAnswers t ds ws rs)]
  rfl

theorem verify_moreAnswers : verify (moreAnswers s ds ws rs) = moreAnswers (verify s) ds ws rs := by
  simp only [verify, apply_ite (fun t => moreAnswers t ds ws rs)]
  rfl

theorem resync_moreAnswers : resync (moreAnswers s ds ws rs) = moreAnswers (resync s) ds ws rs := rfl

theorem turn_moreAnswers : turn (moreAnswers s ds ws rs) = moreAnswers (turn s) ds ws rs := by
  simp only [turn, resync_moreAnswers, check_moreAnswers, moreAnswers_phase]
  split
  · exact verify_moreAnswers _ ds ws rs
  · rfl
  · rfl

theorem takeRead_moreAnswers (a : ReadAnswer) :
    takeRead a (moreAnswers s ds ws rs) = moreAnswers (takeRead a s) ds ws rs := by
  cases a with
  | ok arrived limit =>
    simp only [takeRead, apply_ite (fun t => moreAnswers t ds ws rs)]
    rfl
  | err e timedOut => cases timedOut <;> rfl

theorem finishRequest_moreAnswers (m : Nat) (id : Byte) (k : Kind) :
    finishRequest m id k (moreAnswers s ds ws rs) = moreAnswers (finishRequest m id k s) ds ws rs := by
  have hdec : decompose m id k { moreAnswers s ds ws rs with seq := .decompose } =
    decompose m id k { s with seq := .decompose } := rfl
  rw [finishRequest, finishRequest, hdec]
  split <;> rfl

theorem afterCollect_moreAnswers : afterCollect (moreAnswers s ds ws rs) = moreAnswers (afterCollect s) ds ws rs := by
  by_cases hc : s.seq = .collect ∧ s.phase = .idle
  · rw [afterCollect, afterCollect, if_pos hc, if_pos (by exact hc)]
    simp only [moreAnswers_view, moreAnswers_exchange]
    split
    · exact finishRequest_moreAnswers _ ds ws rs _ _ _
    · rfl
    · rfl
  · rw [afterCollect, afterCollect, if_neg hc, if_neg (by exact hc)]

/-- The encoder answers alike with further answers of the transport at hand. -/
theorem encodePacket_moreAnswers (id ins : Byte) (params : List Byte) :
    encodePacket id ins params (moreAnswers s ds ws rs) =
      (encodePacket id ins params s).map (moreAnswers · ds ws rs) := by
  simp only [encodePacket, apply_ite (Except.map (moreAnswers · ds ws rs))]
  rfl

/-- The loop of a collect over more answers is the loop over the first of them and then over the rest. -/
theorem awaitReads_moreAnswers {as : List ReadAnswer} {s : State} (h : s.reads = as) :
    awaitReads (as ++ rs) (moreAnswers s ds ws rs) =
      awaitReads ((awaitReads as s).reads ++ rs) (moreAnswers (awaitReads as s) ds ws rs) := by
  induction as generalizing s with
  | nil => rw [awaitReads, h]
  | cons a as ih =>
    by_cases hp : s.phase = .read
    · have hp' : (moreAnswers s ds ws rs).phase = .read := hp
      have htake : takeRead a { moreAnswers s ds ws rs with reads := as ++ rs } =
          moreAnswers (takeRead a { s with reads := as }) ds ws rs :=
        takeRead_moreAnswers { s with reads := as } ds ws rs a
      rw [List.cons_append]
      by_cases hr : (takeRead a { s with reads := as }).phase = .resync
      · rw [awaitReads_cons_of_resync hp hr, awaitReads_cons_of_resync hp' (by rw [htake]; exact hr), htake,
          turn_moreAnswers]
        exact ih (by rw [turn_reads, takeRead_reads])
      · have hi := (takeRead_phase a { s with reads := as }).resolve_left hr
        rw [awaitReads_cons_of_ended hp hr, awaitReads_cons_of_ended hp' (by rw [htake]; exact hr), htake,
          awaitReads_of_phase_ne_read (by simp [hi])]
    · rw [awaitReads_of_phase_ne_read (s := s) hp, awaitReads_of_phase_ne_read (s := moreAnswers s ds ws rs) hp,
        awaitReads_of_phase_ne_read (s := moreAnswers s ds ws rs) hp]

end

/-! ## Answers in instalments -/

/-- From the state `s`, the operation `f` leaves the inbox alone, and with further answers at hand it comes to what its
outcome comes to when these answers arrive only then (20 R74). -/
structure Yields (f : State → State) (s : State) : Prop where
  inbox : (f s).inbox = s.inbox
  resumes : ∀ ds ws rs, resume (moreAnswers (f s) ds ws rs) = f (moreAnswers s ds ws rs)

/-- An operation that ends its command, whatever the answers at hand. -/
theorem yields_of_ended {f : State → State} {s : State} (hin : (f s).inbox = s.inbox) (hseq : (f s).seq = .idle)
    (hmore : ∀ ds ws rs, f (moreAnswers s ds ws rs) = moreAnswers (f s) ds ws rs) : Yields f s :=
  ⟨hin, fun ds ws rs => by rw [hmore, resume_of_idle (by exact hseq)]⟩

/-- Two operations that agree where the parameters and the control are those of `s`. -/
theorem Yields.of_eq {f g : State → State} {s : State} (h : Yields g s)
    (heq : ∀ t : State, t.par = s.par → t.seq = s.seq → t.exchange = s.exchange → f t = g t) : Yields f s := by
  have hs := heq s rfl rfl rfl
  refine ⟨by rw [hs, h.inbox], fun ds ws rs => ?_⟩
  rw [hs, heq (moreAnswers s ds ws rs) rfl rfl rfl, h.resumes]

/-- A command may be answered in instalments if its body may. -/
theorem command_yields {body : State → State} {s : State} (h : Yields body { s with view := none }) :
    Yields (State.command body) s := by
  by_cases hseq : s.seq = .idle
  · refine ⟨by rw [command_of_idle hseq, h.inbox], fun ds ws rs => ?_⟩
    rw [command_of_idle hseq, command_of_idle (s := moreAnswers s ds ws rs) hseq]
    exact h.resumes ds ws rs
  · have href := command_of_busy body hseq
    refine yields_of_ended (by rw [href]; rfl) (by rw [href]; rfl) fun ds ws rs => ?_
    rw [href, command_of_busy (s := moreAnswers s ds ws rs) body hseq]
    rfl

/-- A collect of the command `x` that goes on, or has ended, with this inbox. -/
def CollectRuns (q : List HostRequest) (x : Exchange) (t : State) : Prop :=
  t.inbox = q ∧ ((t.seq = .idle ∧ t.phase = .idle) ∨ (t.seq = .collect ∧ t.exchange = some x))

theorem takeRead_runs {q : List HostRequest} {x : Exchange} (a : ReadAnswer) {t : State} (hq : t.inbox = q)
    (hseq : t.seq = .collect) (hx : t.exchange = some x) : CollectRuns q x (takeRead a t) := by
  rcases takeRead_cases a t with ⟨_, _, e, -⟩ | ⟨_, _, e, -⟩ | ⟨_, e⟩ | ⟨_, e⟩ <;> rw [e]
  · exact ⟨hq, .inr ⟨hseq, hx⟩⟩
  · exact ⟨hq, .inl ⟨rfl, rfl⟩⟩
  · exact ⟨hq, .inl ⟨rfl, rfl⟩⟩
  · exact ⟨hq, .inl ⟨rfl, rfl⟩⟩

theorem turn_runs {q : List HostRequest} {x : Exchange} {t : State} (hq : t.inbox = q) (hseq : t.seq = .collect)
    (hx : t.exchange = some x) : CollectRuns q x (turn t) := by
  rcases turn_cases t with ⟨e, -⟩ | ⟨e, -⟩ | ⟨e, -⟩ <;> rw [e]
  · exact ⟨hq, .inr ⟨hseq, hx⟩⟩
  · exact ⟨hq, .inl ⟨rfl, rfl⟩⟩
  · rcases verify_cases { resync t with phase := .verify } with ⟨e', -⟩ | ⟨e', -⟩ <;> rw [e']
    · exact ⟨hq, .inr ⟨hseq, hx⟩⟩
    · exact ⟨hq, .inl ⟨rfl, rfl⟩⟩

theorem awaitReads_runs {q : List HostRequest} {x : Exchange} (as : List ReadAnswer) {t : State}
    (h : CollectRuns q x t) : CollectRuns q x (awaitReads as t) := by
  refine awaitReads_keeps ?_ ?_ as h
  · rintro a as t hp ⟨hq, ⟨-, hi⟩ | ⟨hseq, hx⟩⟩
    · exact absurd (hp.symm.trans hi) (by decide)
    · exact takeRead_runs a hq hseq hx
  · rintro t hp ⟨hq, ⟨-, hi⟩ | ⟨hseq, hx⟩⟩
    · exact absurd (hp.symm.trans hi) (by decide)
    · exact turn_runs hq hseq hx

/-- A step goes on with a collect that runs by its reads, and leaves one that has ended as it is. -/
theorem resume_of_runs {q : List HostRequest} {x : Exchange} {t : State} (h : CollectRuns q x t) :
    resume t = goOnReading t := by
  obtain ⟨-, ⟨hseq, hp⟩ | ⟨hseq, hx⟩⟩ := h
  · have hread : awaitReads t.reads t = t := awaitReads_of_phase_ne_read (by simp [hp])
    rw [resume_of_idle hseq, goOnReading, hread, afterCollect, if_neg (by simp [hseq])]
  · exact resume_of_collect hseq hx

/-- The reads of a collect may be answered in instalments. -/
theorem goOnReading_yields {q : List HostRequest} {x : Exchange} {s : State} (h : CollectRuns q x s) :
    Yields goOnReading s := by
  have hend := awaitReads_runs s.reads h
  have hin : (awaitReads s.reads s).inbox = s.inbox := hend.1.trans h.1.symm
  have hgo : ∀ ds ws rs,
      goOnReading (moreAnswers s ds ws rs) = goOnReading (moreAnswers (awaitReads s.reads s) ds ws rs) :=
    fun ds ws rs => congrArg afterCollect (awaitReads_moreAnswers ds ws rs rfl)
  have hafter : goOnReading s = afterCollect (awaitReads s.reads s) := rfl
  generalize awaitReads s.reads s = t at hend hin hgo hafter
  rcases afterCollect_cases t with hw | ⟨hseq, hin', -, hp⟩
  · rw [hw] at hafter
    refine ⟨by rw [hafter, hin], fun ds ws rs => ?_⟩
    rw [hafter, hgo, resume_of_runs (t := moreAnswers t ds ws rs) hend]
  · refine ⟨by rw [hafter, hin', hin], fun ds ws rs => ?_⟩
    have hread : awaitReads (t.reads ++ rs) (moreAnswers t ds ws rs) = moreAnswers t ds ws rs :=
      awaitReads_of_phase_ne_read (by simp [hp])
    rw [hafter, hgo, resume_of_idle (by exact hseq), goOnReading, moreAnswers_reads, hread, afterCollect_moreAnswers]

theorem beginCollect_yields (nexp : Nat) {s : State} {x : Exchange} (hx : s.exchange = some x) :
    Yields (beginCollect nexp) s := by
  have hruns : CollectRuns s.inbox x (turn (collectStart nexp { s with seq := .collect })) := turn_runs rfl rfl hx
  have h := goOnReading_yields hruns
  refine ⟨h.inbox.trans hruns.1, fun ds ws rs => (h.resumes ds ws rs).trans ?_⟩
  rw [← turn_moreAnswers]
  rfl

theorem takeWrite_yields {nexp k : Nat} {s : State} {id : Byte} {kd : Kind} (hseq : s.seq = .write)
    (hx : s.exchange = some (.request id kd nexp k)) : Yields (takeWrite nexp) s := by
  rcases hw : s.writes with _ | ⟨_ | e, ws'⟩
  · refine ⟨by rw [takeWrite_nil hw], fun ds ws rs => ?_⟩
    rw [takeWrite_nil hw, resume_of_write (s := moreAnswers s ds ws rs) hseq hx]
  · have h := beginCollect_yields nexp (s := { s with writes := ws' }) hx
    refine ⟨by rw [takeWrite_ok hw, h.inbox], fun ds ws rs => ?_⟩
    rw [takeWrite_ok hw, h.resumes, takeWrite_ok (s := moreAnswers s ds ws rs) (ws := ws' ++ ws) (by simp [hw])]
    rfl
  · refine yields_of_ended (by rw [takeWrite_err hw]; rfl) (by rw [takeWrite_err hw]; rfl) fun ds ws rs => ?_
    rw [takeWrite_err hw, takeWrite_err (s := moreAnswers s ds ws rs) (e := e) (ws := ws' ++ ws) (by simp [hw])]
    rfl

theorem beginWrite_yields {nexp k : Nat} {s : State} {id : Byte} {kd : Kind}
    (hx : s.exchange = some (.request id kd nexp k)) : Yields (beginWrite nexp k) s := by
  have h := takeWrite_yields (nexp := nexp) (k := k) (kd := kd)
    (s := { s with seq := .write }.callTransport (.writeAll (s.wbuf.readBytes 0 k))) rfl hx
  exact ⟨h.inbox, h.resumes⟩

theorem takeDiscard_yields {nexp k : Nat} {s : State} {id : Byte} {kd : Kind} (hseq : s.seq = .reset)
    (hx : s.exchange = some (.request id kd nexp k)) : Yields (takeDiscard nexp k) s := by
  rcases hd : s.discards with _ | ⟨_ | ⟨e, left⟩, ds'⟩
  · refine ⟨by rw [takeDiscard_nil hd], fun ds ws rs => ?_⟩
    rw [takeDiscard_nil hd, resume_of_reset (s := moreAnswers s ds ws rs) hseq hx]
  · have h := beginWrite_yields (s := { s with discards := ds', pending := [] }) hx
    refine ⟨by rw [takeDiscard_ok hd, h.inbox], fun ds ws rs => ?_⟩
    rw [takeDiscard_ok hd, h.resumes,
      takeDiscard_ok (s := moreAnswers s ds ws rs) (ds := ds' ++ ds) (by simp [hd])]
    rfl
  · refine yields_of_ended (by rw [takeDiscard_err hd]; rfl) (by rw [takeDiscard_err hd]; rfl) fun ds ws rs => ?_
    rw [takeDiscard_err hd,
      takeDiscard_err (s := moreAnswers s ds ws rs) (e := e) (left := left) (ds := ds' ++ ds) (by simp [hd])]
    rfl

theorem prewriteReset_yields {nexp k : Nat} {s : State} {id : Byte} {kd : Kind}
    (hx : s.exchange = some (.request id kd nexp k)) : Yields (prewriteReset nexp k) s := by
  have h := takeDiscard_yields (nexp := nexp) (k := k) (kd := kd)
    (s := { s with seq := .reset, readLen := 0, used := 0 }.callTransport .discardInput) rfl hx
  exact ⟨h.inbox, h.resumes⟩

/-- A step in which the host asks for nothing may be answered in instalments. -/
theorem resume_yields (s : State) : Yields resume s := by
  rcases resume_cases s with ⟨id, kd, nexp, k, hseq, hx⟩ | ⟨id, kd, nexp, k, hseq, hx⟩ | ⟨x, hseq, hx⟩ | hrest
  · exact (takeDiscard_yields hseq hx).of_eq fun t _ ht he => resume_of_reset (ht.trans hseq) (he.trans hx)
  · exact (takeWrite_yields hseq hx).of_eq fun t _ ht he => resume_of_write (ht.trans hseq) (he.trans hx)
  · have hruns : CollectRuns s.inbox x s := ⟨rfl, .inr ⟨hseq, hx⟩⟩
    exact (goOnReading_yields hruns).of_eq fun t _ ht he => resume_of_collect (ht.trans hseq) (he.trans hx)
  · have hs := hrest s rfl rfl
    exact ⟨by rw [hs], fun ds ws rs => by rw [hs]⟩

/-! ## The commands -/

theorem deliver_yields (r : Result) (s : State) : Yields (State.deliver r) s := yields_of_ended rfl rfl fun _ _ _ => rfl

theorem raise_yields (f : Failure) (s : State) : Yields (State.raise f) s := yields_of_ended rfl rfl fun _ _ _ => rfl

theorem refuse_yields (r : RefusalInfo) (s : State) : Yields (State.refuse r) s :=
  yields_of_ended rfl rfl fun _ _ _ => rfl

theorem requestBody_yields (id ins : Byte) (params : List Byte) (nexp : Nat) (k : Kind) (s : State) :
    Yields (requestBody id ins params nexp k) s := by
  have hmore := fun ds ws rs => encodePacket_moreAnswers s ds ws rs id ins params
  rcases requestBody_cases id ins params nexp k s with ⟨f, he, e⟩ | ⟨w, he, e⟩
  · have e' := fun ds ws rs => requestBody_of_error (nexp := nexp) (k := k) (s := moreAnswers s ds ws rs) (f := f)
      (by rw [hmore, he]; rfl)
    exact ⟨by rw [e]; rfl, fun ds ws rs => by rw [e, e', (raise_yields f s).resumes]⟩
  · have e' := fun ds ws rs => requestBody_of_ok (id := id) (ins := ins) (params := params) (nexp := nexp) (k := k)
      (s := moreAnswers s ds ws rs) (w := w) (by rw [hmore, he]; rfl)
    have h := prewriteReset_yields (nexp := nexp) (k := params.length + 6) (kd := k) (id := id)
      (s := { s with wbuf := w, seq := .encode, exchange := some (.request id k nexp (params.length + 6)) }) rfl
    exact ⟨by rw [e, h.inbox], fun ds ws rs => by rw [e, e', h.resumes]; rfl⟩

theorem encodeBody_yields (id ins : Byte) (params : List Byte) (s : State) : Yields (encodeBody id ins params) s := by
  have hmore := fun ds ws rs => encodePacket_moreAnswers s ds ws rs id ins params
  have ended : ∀ f, encodePacket id ins params s = .error f → Yields (encodeBody id ins params) s := fun f he =>
    yields_of_ended (by rw [encodeBody, he]; rfl) (by rw [encodeBody, he]; rfl)
      fun ds ws rs => by rw [encodeBody, encodeBody, hmore, he]; rfl
  rcases encodePacket_cases id ins params s with ⟨-, he⟩ | ⟨-, -, he⟩ | ⟨-, -, w, he, -⟩
  · exact ended _ he
  · exact ended _ he
  · exact yields_of_ended (by rw [encodeBody, he]; rfl) (by rw [encodeBody, he]; rfl)
      fun ds ws rs => by rw [encodeBody, encodeBody, hmore, he]; rfl

theorem readCommand_yields (ref : RegRef) (id : Byte) (s : State) : Yields (readCommand ref id) s := by
  refine (command_yields ?_).of_eq fun _ _ _ _ => rfl
  rcases hl : s.par.lookup ref with _ | r
  · exact (refuse_yields (.unknownRegister ref) _).of_eq fun t ht _ _ => by simp only [ht, hl]
  · exact (requestBody_yields id (s.par.opc.byteOf r.readOp) [r.addr] (readNexp r) (.read r) _).of_eq
      fun t ht _ _ => by simp only [ht, hl]

theorem writeValue_yields (r : RegDesc) (op : InsName) (id : Byte) (v : Word32) (s : State) :
    Yields (writeValue r op id v) s := by
  rcases hv : encodeValue r v r.width with (f | e) | val
  · exact (raise_yields f s).of_eq fun t _ _ _ => by rw [writeValue, hv]
  · exact (refuse_yields e s).of_eq fun t _ _ _ => by rw [writeValue, hv]
  · exact (requestBody_yields id (s.par.opc.byteOf op) (r.addr :: val) ackNexp .ack s).of_eq
      fun t ht _ _ => by rw [writeValue, hv, ht]

theorem writeCommand_yields (ref : RegRef) (id : Byte) (v : Word32) (s : State) : Yields (writeCommand ref id v) s := by
  refine (command_yields ?_).of_eq fun _ _ _ _ => rfl
  rcases hl : s.par.lookup ref with _ | r
  · exact (refuse_yields (.unknownRegister ref) _).of_eq fun t ht _ _ => by simp only [ht, hl]
  · rcases ha : r.access with _ | _
    · exact (refuse_yields (.notWritable r.name) _).of_eq fun t ht _ _ => by simp only [ht, hl, ha]
    · rcases hw : r.writeOp with _ | op
      · exact (refuse_yields (.notWritable r.name) _).of_eq fun t ht _ _ => by simp only [ht, hl, ha, hw]
      · exact (writeValue_yields r op id v _).of_eq fun t ht _ _ => by simp only [ht, hl, ha, hw]

theorem mwriteCommand_yields (cls : RegClass) (id : Byte) (es : List Entry) (s : State) :
    Yields (mwriteCommand cls id es) s := by
  refine (command_yields ?_).of_eq fun _ _ _ _ => rfl
  rcases hb : badEntry es with _ | n
  · exact (requestBody_yields id (s.par.opc.byteOf cls.writeOp) (entriesBytes es) ackNexp .ack _).of_eq
      fun t ht _ _ => by simp only [ht]
  · exact (refuse_yields (.badEntry n) _).of_eq fun t _ _ _ => rfl

theorem request_yields (id : Byte) (x : InsName) (params : List Byte) (nexp : Nat) (k : Kind) (s : State) :
    Yields (request id x params nexp k) s := by
  refine (command_yields ?_).of_eq fun _ _ _ _ => rfl
  exact (requestBody_yields id (s.par.opc.byteOf x) params nexp k _).of_eq fun t ht _ _ => by rw [ht]

theorem collectCommand_yields (nexp : Nat) (s : State) : Yields (collectCommand nexp) s := by
  refine (command_yields ?_).of_eq fun _ _ _ _ => rfl
  have h := beginCollect_yields nexp (s := { s with view := none, exchange := some (.collect nexp) }) rfl
  exact ⟨h.inbox, h.resumes⟩

theorem setBaudBody_yields (b : Word32) (s : State) : Yields (setBaudBody b) s := by
  by_cases hb : b = 0
  · exact (refuse_yields .zeroBaud s).of_eq fun t _ _ _ => by rw [setBaudBody, if_pos hb]
  · have h : ∀ t, setBaudBody b t = { t.callTransport (.setBaudRate b) with baud := b }.deliver .done :=
      fun t => by rw [setBaudBody, if_neg hb]
    exact yields_of_ended (by rw [h]; rfl) (by rw [h]; rfl) fun ds ws rs => by rw [h, h]; rfl

/-- A command that only gives a result, which does not depend on the transport's answers. -/
theorem answer_yields {r : State → Result} (hr : ∀ t ds ws rs, r (moreAnswers t ds ws rs) = r t) (s : State) :
    Yields (State.command fun t => t.deliver (r t)) s :=
  command_yields (yields_of_ended rfl rfl fun ds ws rs => by rw [hr]; rfl)

theorem decodeByte_yields (b : Byte) (s : State) : Yields (decodeByte b) s :=
  answer_yields (r := fun t => .instruction (t.par.opc.decodeIns b)) (fun _ _ _ _ => rfl) s

theorem decodeName_yields (x : InsName) (s : State) : Yields (decodeName x) s :=
  (decodeByte_yields (s.par.opc.byteOf x) s).of_eq fun t ht _ _ => by rw [decodeName, ht]

/-- Every instruction but a received packet may be answered in instalments. -/
theorem exec_yields {i : Instr} (hi : ∀ id body, i ≠ .response id body) (s : State) :
    ∃ f, (∀ t, exec i t = .next (f t)) ∧ Yields f s := by
  cases i
  case response id body => exact absurd rfl (hi id body)
  case insPing | insReadStatus | insWriteStatus | insReadConfig | insWriteConfig | insSaveConfig | insBulkComm =>
    exact ⟨_, fun _ => rfl, decodeName_yields _ s⟩
  case ping | save => exact ⟨_, fun _ => rfl, request_yields _ _ _ _ _ s⟩
  case readStatus | readConfig | readReg => exact ⟨_, fun _ => rfl, readCommand_yields _ _ s⟩
  case writeStatus1 | writeStatus2 | writeStatus4 | writeConfig1 | writeConfig2 | writeConfig4 | writeReg =>
    exact ⟨_, fun _ => rfl, writeCommand_yields _ _ _ s⟩
  case mwriteConfig | mwriteStatus => exact ⟨_, fun _ => rfl, mwriteCommand_yields _ _ _ s⟩
  case encodeRaw => exact ⟨_, fun _ => rfl, command_yields (encodeBody_yields _ _ _ _)⟩
  case collect => exact ⟨_, fun _ => rfl, collectCommand_yields _ s⟩
  case checksum => exact ⟨_, fun _ => rfl, answer_yields (fun _ _ _ _ => rfl) s⟩
  case ttime => exact ⟨_, fun _ => rfl, answer_yields (fun _ _ _ _ => rfl) s⟩
  case setBaud => exact ⟨_, fun _ => rfl, command_yields (setBaudBody_yields _ _)⟩
  case decodeIns => exact ⟨_, fun _ => rfl, decodeByte_yields _ s⟩

/-- Settles O6: an operation that waits goes on from its wait, and one that has ended is left as it is, as each comes to
with all the answers at once. -/
theorem yieldingChangesNothing : Obligations.YieldingChangesNothing := by
  refine ⟨fun s u i ds ws rs hq hi e => ?_, fun s u ds ws rs hq e => ?_⟩
  · obtain ⟨f, hf, hy⟩ := exec_yields hi s
    obtain rfl : f s = u := Host.Outcome.next.inj ((hf s).symm.trans e)
    rw [hf, step_of_inbox_nil (by exact hy.inbox.trans hq), hy.resumes]
  · have hy := resume_yields s
    obtain rfl : resume s = u := Host.Outcome.next.inj ((step_of_inbox_nil hq).symm.trans e)
    rw [step_of_inbox_nil (by exact hy.inbox.trans hq), step_of_inbox_nil (by exact hq), hy.resumes]

end Sys2Proof.Machine
end

section
/-! SUPPORT. What no step changes, and what the single operations leave unchanged; `StepKeepsParameters`,
`OnlySetBaudChangesBaud`, `OnlyEncoderWritesWbuf`, `ResetValues`, `UnsolicitedPacketWaits` and `ViewReads`. -/

namespace Sys2Proof.Machine

open Sys2Proof.Claims

/-! ## Reset, the line and the view -/

/-- Settles O16. -/
theorem resetValues : Obligations.ResetValues := ⟨rfl, rfl, rfl, rfl, rfl, rfl, rfl, rfl, rfl⟩

theorem receive_of_not_reading (bytes : List Byte) {s : State} (h : ¬ (s.seq = .collect ∧ s.phase = .read)) :
    receive bytes s = { s with pending := s.pending ++ bytes } := if_neg h

/-- Settles O56. -/
theorem unsolicitedPacketWaits : Obligations.UnsolicitedPacketWaits := fun _ id body h =>
  congrArg Host.Outcome.next (receive_of_not_reading (responsePacket id body) h)

theorem readView_of_none {s : State} (a n : Nat) (h : s.view = none) :
    s.readView a n = .next (s.refuse .staleView) := by rw [State.readView, h]

theorem readView_of_inside {s : State} {a n m : Nat} (h : s.view = some m) (hm : a + n ≤ m) :
    s.readView a n = .next { s with result := some (.viewBytes (s.rbuf.readBytes a n)) } := by
  rw [State.readView, h]
  exact if_pos hm

theorem readView_of_outside {s : State} {a n m : Nat} (h : s.view = some m) (hm : m < a + n) :
    s.readView a n = .fault (.viewOutOfRange a n m) := by
  rw [State.readView, h]
  exact if_neg (Nat.not_le.mpr hm)

/-- Settles O58. -/
theorem viewReads : Obligations.ViewReads := fun _ a n =>
  ⟨readView_of_none a n, fun _ => readView_of_inside, fun _ => readView_of_outside⟩

/-! ## The parameters and the baud rate -/

/-- Of the updates of a state, only that of `BAUD` changes its parameters or its baud rate. -/
theorem stable_of_par_baud (Q : Params → Word32 → Prop) : Stable fun t => Q t.par t.baud where
  deliver _ _ h := h
  refuse _ _ h := h
  call _ _ h := h
  control _ _ _ _ _ h := h
  cursors _ _ _ h := h
  wbuf _ _ h := h
  rbuf _ _ h := h
  transport _ _ _ _ _ h := h
  collect _ _ _ _ h := h
  result _ _ h := h
  inbox _ _ h := h

/-- Settles O10. -/
theorem stepKeepsParameters : Obligations.StepKeepsParameters := fun s _ e =>
  (stable_of_par_baud fun p _ => p = s.par).step (fun _ _ h => h) e rfl

/-- A host's read of the view changes the result, or refuses. -/
theorem Stable.readView {P : State → Prop} (hP : Stable P) {a n : Nat} {s t : State} (e : s.readView a n = .next t)
    (h : P s) : P t := by
  rcases hv : s.view with _ | m
  · rw [readView_of_none a n hv] at e
    cases e; exact hP.refuse _ _ h
  · rcases Nat.lt_or_ge m (a + n) with hm | hm
    · rw [readView_of_outside hv hm] at e
      cases e
    · rw [readView_of_inside hv hm] at e
      cases e; exact hP.result _ _ h

/-- Settles O12: all updates but that of `BAUD` keep its value, and only `SETBAUD` makes that one. -/
theorem onlySetBaudChangesBaud : Obligations.OnlySetBaudChangesBaud := by
  have stable : ∀ b, Stable fun t => t.baud = b := fun b => stable_of_par_baud fun _ b' => b' = b
  refine ⟨fun s t i hi e => (stable s.baud).exec hi e rfl, fun s t hq e => ?_, fun s t a n rest hq e => ?_⟩
  · rw [step_of_inbox_nil hq] at e
    cases e; exact (stable s.baud).resume s rfl
  · rw [step_of_readView hq] at e
    exact (stable s.baud).readView e rfl

/-! ## `WBUF`

Every operation after the encoder leaves it alone (10 R31). -/

@[simp] theorem takeRead_wbuf (a : ReadAnswer) (s : State) : (takeRead a s).wbuf = s.wbuf := by
  rcases takeRead_cases a s with ⟨_, _, e, -⟩ | ⟨_, _, e, -⟩ | ⟨_, e⟩ | ⟨_, e⟩ <;> rw [e] <;> rfl

@[simp] theorem verify_wbuf (s : State) : (verify s).wbuf = s.wbuf := by
  rcases verify_cases s with ⟨e, -⟩ | ⟨e, -⟩ <;> simp [e]

@[simp] theorem turn_wbuf (s : State) : (turn s).wbuf = s.wbuf := by
  rcases turn_cases s with ⟨e, -⟩ | ⟨e, -⟩ | ⟨e, -⟩ <;> simp [e]

@[simp] theorem awaitReads_wbuf (as : List ReadAnswer) (s : State) : (awaitReads as s).wbuf = s.wbuf :=
  awaitReads_keeps (P := fun t => t.wbuf = s.wbuf) (fun a _ _ _ h => (takeRead_wbuf a _).trans h)
    (fun t _ h => (turn_wbuf t).trans h) as rfl

@[simp] theorem finishRequest_wbuf (m : Nat) (id : Byte) (k : Kind) (s : State) :
    (finishRequest m id k s).wbuf = s.wbuf := by
  rw [finishRequest]
  split <;> rfl

@[simp] theorem afterCollect_wbuf (s : State) : (afterCollect s).wbuf = s.wbuf := by
  rw [afterCollect]
  split
  · split
    · exact finishRequest_wbuf _ _ _ s
    · rfl
    · rfl
  · rfl

@[simp] theorem goOnReading_wbuf (s : State) : (goOnReading s).wbuf = s.wbuf := by simp [goOnReading]

@[simp] theorem beginCollect_wbuf (nexp : Nat) (s : State) : (beginCollect nexp s).wbuf = s.wbuf := by
  simp [beginCollect]

@[simp] theorem takeWrite_wbuf (nexp : Nat) (s : State) : (takeWrite nexp s).wbuf = s.wbuf := by
  rcases hw : s.writes with _ | ⟨_ | e, ws⟩
  · rw [takeWrite_nil hw]
  · simp [takeWrite_ok hw]
  · simp [takeWrite_err hw]

@[simp] theorem beginWrite_wbuf (nexp k : Nat) (s : State) : (beginWrite nexp k s).wbuf = s.wbuf := by
  simp [beginWrite]

@[simp] theorem takeDiscard_wbuf (nexp k : Nat) (s : State) : (takeDiscard nexp k s).wbuf = s.wbuf := by
  rcases hd : s.discards with _ | ⟨_ | ⟨e, left⟩, ds⟩
  · rw [takeDiscard_nil hd]
  · simp [takeDiscard_ok hd]
  · simp [takeDiscard_err hd]

@[simp] theorem resume_wbuf (s : State) : (resume s).wbuf = s.wbuf := by
  rcases resume_cases s with ⟨id, kd, nexp, k, hseq, hx⟩ | ⟨id, kd, nexp, k, hseq, hx⟩ | ⟨x, hseq, hx⟩ | hrest
  · rw [resume_of_reset hseq hx, takeDiscard_wbuf]
  · rw [resume_of_write hseq hx, takeWrite_wbuf]
  · rw [resume_of_collect hseq hx, goOnReading_wbuf]
  · rw [hrest s rfl rfl]

@[simp] theorem receive_wbuf (bytes : List Byte) (s : State) : (receive bytes s).wbuf = s.wbuf := by
  by_cases h : s.seq = .collect ∧ s.phase = .read
  · simp [receive, h]
  · rw [receive_of_not_reading bytes h]

theorem command_wbuf {body : State → State} (hbody : ∀ t, (body t).wbuf = t.wbuf) (s : State) :
    (s.command body).wbuf = s.wbuf := by
  rcases command_cases body s with ⟨-, e⟩ | ⟨-, e⟩ <;> rw [e]
  · exact hbody _
  · rfl

/-- A command that only gives a result. -/
theorem answer_wbuf (r : State → Result) (s : State) : (s.command fun t => t.deliver (r t)).wbuf = s.wbuf :=
  command_wbuf (fun t => t.deliver_wbuf (r t)) s

theorem decodeByte_wbuf (b : Byte) (s : State) : (decodeByte b s).wbuf = s.wbuf :=
  answer_wbuf (fun t => .instruction (t.par.opc.decodeIns b)) s

theorem collectCommand_wbuf (nexp : Nat) (s : State) : (collectCommand nexp s).wbuf = s.wbuf :=
  command_wbuf (fun t => beginCollect_wbuf nexp { t with exchange := some (.collect nexp) }) s

theorem setBaudBody_wbuf (b : Word32) (s : State) : (setBaudBody b s).wbuf = s.wbuf := by
  rw [setBaudBody]
  split <;> rfl

/-- An instruction that builds no packet decodes a byte, takes a packet, collects, or gives a result. -/
theorem exec_wbuf {i : Instr} {s t : State} (hi : buildsPacket i = false) (e : exec i s = .next t) :
    t.wbuf = s.wbuf := by
  cases i <;> cases e
  case insPing | insReadStatus | insWriteStatus | insReadConfig | insWriteConfig | insSaveConfig | insBulkComm |
    decodeIns => exact decodeByte_wbuf _ s
  case response => exact receive_wbuf _ s
  case collect => exact collectCommand_wbuf _ s
  case checksum d => exact answer_wbuf (fun _ => .byte (Sys2Proof.checksum d)) s
  case ttime size => exact answer_wbuf (fun t => .micros (transferTime t.baud size)) s
  case setBaud => exact command_wbuf (setBaudBody_wbuf _) s
  all_goals cases hi

/-- Settles O13. -/
theorem onlyEncoderWritesWbuf : Obligations.OnlyEncoderWritesWbuf := by
  refine ⟨fun s t i => exec_wbuf, fun s t hq e => ?_⟩
  rw [step_of_inbox_nil hq] at e
  cases e; exact resume_wbuf s

end Sys2Proof.Machine
end

section
/-! SUPPORT. Two runs that differ only in bytes of `RBUF` at or above `READ_LEN`, operation by operation;
`StaleBytesAreUnobservable` and `PrewriteResetIsABarrier`. -/

namespace Sys2Proof.Machine

open Sys2Proof.Claims

/-! ## States that differ only in stale bytes -/

/-- The states differ only in bytes of `RBUF` at or above `READ_LEN`, and a write to either `RBUF` is read back. -/
structure Alike (s s' : State) : Prop where
  same : SameButStale s s'
  wf : s.rbuf.wf = true
  wf' : s'.rbuf.wf = true

section
variable {s s' : State}

theorem Alike.eq (h : Alike s s') : s' = { s with rbuf := s'.rbuf } := h.same.1

theorem Alike.par (h : Alike s s') : s'.par = s.par := by rw [h.eq]
theorem Alike.wbuf (h : Alike s s') : s'.wbuf = s.wbuf := by rw [h.eq]
theorem Alike.readLen (h : Alike s s') : s'.readLen = s.readLen := by rw [h.eq]
theorem Alike.used (h : Alike s s') : s'.used = s.used := by rw [h.eq]
theorem Alike.phase (h : Alike s s') : s'.phase = s.phase := by rw [h.eq]
theorem Alike.seq (h : Alike s s') : s'.seq = s.seq := by rw [h.eq]
theorem Alike.view (h : Alike s s') : s'.view = s.view := by rw [h.eq]
theorem Alike.exchange (h : Alike s s') : s'.exchange = s.exchange := by rw [h.eq]
theorem Alike.inbox (h : Alike s s') : s'.inbox = s.inbox := by rw [h.eq]
theorem Alike.pending (h : Alike s s') : s'.pending = s.pending := by rw [h.eq]
theorem Alike.discards (h : Alike s s') : s'.discards = s.discards := by rw [h.eq]
theorem Alike.writes (h : Alike s s') : s'.writes = s.writes := by rw [h.eq]
theorem Alike.reads (h : Alike s s') : s'.reads = s.reads := by rw [h.eq]

theorem Alike.room (h : Alike s s') : s'.room = s.room := by rw [State.room, State.room, h.par, h.readLen]

theorem Alike.read (h : Alike s s') {a : Nat} (ha : a < s.readLen) : s'.rbuf.read a = s.rbuf.read a := h.same.2 a ha

theorem Alike.readBytes (h : Alike s s') {a n : Nat} (han : a + n ≤ s.readLen) :
    s'.rbuf.readBytes a n = s.rbuf.readBytes a n :=
  Memory.readBytes_congr fun _ hi => h.read (by omega)

theorem Alike.messageLength (h : Alike s s') (h4 : 4 ≤ s.readLen) : s'.messageLength = s.messageLength := by
  rw [State.messageLength, State.messageLength, h.read (by omega)]

theorem Alike.tail (h : Alike s s') : s'.tail = s.tail := by
  rw [State.tail, State.tail, h.used, h.readLen]
  exact Memory.readBytes_congr fun _ hi => h.read (by omega)

/-- An update that neither looks at `RBUF` nor raises `READ_LEN` keeps two states alike. -/
theorem Alike.map {f : State → State} (h : Alike s s')
    (hf : ∀ t m, f { t with rbuf := m } = { f t with rbuf := m }) (hl : (f s).readLen ≤ s.readLen) :
    Alike (f s) (f s') := by
  have e : f s = { f s with rbuf := s.rbuf } := hf s s.rbuf
  have e' : f s' = { f s with rbuf := s'.rbuf } := (congrArg f h.eq).trans (hf s _)
  have hr : (f s).rbuf = s.rbuf := by rw [e]
  have hr' : (f s').rbuf = s'.rbuf := by rw [e']
  refine ⟨⟨by rwa [hr'], fun a ha => ?_⟩, by rw [hr]; exact h.wf, by rw [hr']; exact h.wf'⟩
  rw [hr, hr', h.read (by omega)]

theorem Alike.deliver (h : Alike s s') (r : Result) : Alike (s.deliver r) (s'.deliver r) :=
  h.map (f := State.deliver r) (fun _ _ => rfl) le_rfl

theorem Alike.raise (h : Alike s s') (f : Failure) : Alike (s.raise f) (s'.raise f) :=
  h.map (f := State.raise f) (fun _ _ => rfl) le_rfl

theorem Alike.refuse (h : Alike s s') (r : RefusalInfo) : Alike (s.refuse r) (s'.refuse r) :=
  h.map (f := State.refuse r) (fun _ _ => rfl) le_rfl

/-! ## The framer -/

theorem resync_alike (h : Alike s s') : Alike (resync s) (resync s') := by
  refine ⟨⟨?_, fun a ha => ?_⟩, Memory.wf_writeBytes _ _ h.wf, Memory.wf_writeBytes _ _ h.wf'⟩
  · have htail := h.tail
    obtain ⟨m, rfl⟩ : ∃ m, s' = { s with rbuf := m } := ⟨_, h.eq⟩
    simp only [resync, htail]
  · rw [resync_readLen] at ha
    rw [resync_rbuf, resync_rbuf, Memory.read_writeBytes _ _ _ h.wf, Memory.read_writeBytes _ _ _ h.wf', h.tail, h.used,
      h.readLen, h.readBytes (by omega), if_pos (by simpa using ha), if_pos (by simpa using ha)]

theorem verify_alike (h : Alike s s') (h4 : 4 ≤ s.readLen) (hm : s.messageLength ≤ s.readLen) :
    Alike (verify s) (verify s') := by
  have hlen : 4 ≤ s.messageLength := Nat.le_add_right _ _
  simp only [verify, h.messageLength h4, h.read (a := s.messageLength - 1) (by omega),
    h.readBytes (a := 2) (n := s.messageLength - 3) (by omega)]
  generalize s.messageLength = m
  have consumed : Alike { s with used := s.used + m, phase := .idle } { s' with used := s'.used + m, phase := .idle } :=
    h.map (f := fun t => { t with used := t.used + m, phase := .idle }) (fun _ _ => rfl) le_rfl
  split
  · exact consumed.map (f := fun t => { t with view := some m }) (fun _ _ => rfl) le_rfl
  · exact consumed.raise _

/-- What follows a resync pass, by the length of what is buffered (42 R164, R165). -/
theorem turn_eq (s : State) :
    turn s =
      if (resync s).readLen < 4 then issueRead { resync s with phase := .read }
      else if s.par.capR < (resync s).messageLength then
        (resync s).raise (.bufferTooSmall (resync s).messageLength s.par.capR .receive)
      else if (resync s).messageLength ≤ (resync s).readLen then verify { resync s with phase := .verify }
      else issueRead { resync s with phase := .read } := by
  rcases turn_cases s with ⟨e, h⟩ | ⟨e, h4, h⟩ | ⟨e, h4, hm, h⟩
  · rcases h with h | ⟨h4, hm, h⟩
    · rw [if_pos h, e]
    · rw [if_neg (by omega), if_neg (by omega), if_neg (by omega), e]
  · rw [if_neg (by omega), if_pos h, e]
  · rw [if_neg (by omega), if_neg (by omega), if_pos hm, e]

theorem turn_alike (h : Alike s s') : Alike (turn s) (turn s') := by
  have hr := resync_alike h
  have reads : Alike (issueRead { resync s with phase := .read }) (issueRead { resync s' with phase := .read }) :=
    hr.map (f := fun t => issueRead { t with phase := .read }) (fun _ _ => rfl) le_rfl
  rw [turn_eq, turn_eq, hr.readLen, h.par]
  by_cases h4 : (resync s).readLen < 4
  · rwa [if_pos h4, if_pos h4]
  · rw [if_neg h4, if_neg h4, hr.messageLength (by omega)]
    split
    · exact hr.raise _
    · split
      · next hm =>
        have hv := hr.map (f := fun t => { t with phase := .verify }) (fun _ _ => rfl) le_rfl
        exact verify_alike hv (by simpa using h4) hm
      · exact reads

theorem takeRead_alike (a : ReadAnswer) (h : Alike s s') : Alike (takeRead a s) (takeRead a s') := by
  cases a with
  | ok arrived limit =>
    simp only [takeRead, h.pending, h.room]
    generalize (s.pending ++ arrived).take limit = bytes
    generalize (s.pending ++ arrived).drop limit = left
    split
    · refine ⟨⟨?_, fun a ha => ?_⟩, Memory.wf_writeBytes _ _ h.wf, Memory.wf_writeBytes _ _ h.wf'⟩
      · obtain ⟨m, rfl⟩ : ∃ m, s' = { s with rbuf := m } := ⟨_, h.eq⟩
        rfl
      · simp only at ha ⊢
        rw [Memory.read_writeBytes _ _ _ h.wf, Memory.read_writeBytes _ _ _ h.wf', h.readLen]
        split
        · rfl
        · exact h.read (by omega)
    · exact h.map (f := fun t => { t with pending := left }.refuse (.transportContract bytes.length s.room))
        (fun _ _ => rfl) le_rfl
  | err e timedOut =>
    have hc := h.map (f := State.callTransport (.isTimeoutError e)) (fun _ _ => rfl) le_rfl
    cases timedOut
    · exact hc.raise _
    · exact hc.raise _

theorem awaitReads_alike (as : List ReadAnswer) (h : Alike s s') : Alike (awaitReads as s) (awaitReads as s') := by
  induction as generalizing s s' with
  | nil => exact h
  | cons a as ih =>
    by_cases hp : s.phase = .read
    · have hc : Alike (takeRead a { s with reads := as }) (takeRead a { s' with reads := as }) :=
        takeRead_alike a (h.map (f := fun t => { t with reads := as }) (fun _ _ => rfl) le_rfl)
      by_cases hr : (takeRead a { s with reads := as }).phase = .resync
      · rw [awaitReads_cons_of_resync hp hr, awaitReads_cons_of_resync (h.phase.trans hp) (hc.phase.trans hr)]
        exact ih (turn_alike hc)
      · rwa [awaitReads_cons_of_ended hp hr, awaitReads_cons_of_ended (h.phase.trans hp) (by rwa [hc.phase])]
    · rwa [awaitReads_of_phase_ne_read hp, awaitReads_of_phase_ne_read (by rwa [h.phase])]

/-! ## The view

What is in view is buffered, so that the decomposition of a response and the host see no stale byte. -/

/-- A message in view lies below `READ_LEN`, and no read is in progress (10 R42; 42 R167). -/
def State.ViewBuffered (s : State) : Prop :=
  ∀ m, s.view = some m → s.phase = .idle ∧ m = s.messageLength ∧ m ≤ s.readLen

theorem viewBuffered_of_none (h : s.view = none) : s.ViewBuffered := fun m hm => by simp [h] at hm

theorem State.ViewBuffered.view_of_phase (h : s.ViewBuffered) (hp : s.phase ≠ .idle) : s.view = none := by
  rcases hv : s.view with _ | m
  · rfl
  · exact absurd (h m hv).1 hp

theorem takeRead_view (a : ReadAnswer) (s : State) : (takeRead a s).view = s.view := by
  rcases takeRead_cases a s with ⟨_, _, e, -⟩ | ⟨_, _, e, -⟩ | ⟨_, e⟩ | ⟨_, e⟩ <;> rw [e] <;> rfl

/-- Only a verification opens a view, and of a message that is buffered whole. -/
theorem turn_viewBuffered (h : s.view = none) : (turn s).ViewBuffered := by
  rcases turn_cases s with ⟨e, -⟩ | ⟨e, -⟩ | ⟨e, -, hm, -⟩ <;> rw [e]
  · exact viewBuffered_of_none h
  · exact viewBuffered_of_none h
  · rcases verify_cases { resync s with phase := .verify } with ⟨e', -⟩ | ⟨e', -⟩ <;> rw [e']
    · rintro m ⟨⟩
      exact ⟨rfl, rfl, hm⟩
    · exact viewBuffered_of_none h

theorem awaitReads_viewBuffered (as : List ReadAnswer) (h : s.ViewBuffered) : (awaitReads as s).ViewBuffered := by
  refine awaitReads_keeps (fun a as t hp ht => ?_) (fun t hp ht => ?_) as h
  · exact viewBuffered_of_none ((takeRead_view a _).trans (ht.view_of_phase (by simp [hp])))
  · exact turn_viewBuffered (ht.view_of_phase (by simp [hp]))

/-! ## The sequencer -/

theorem decompose_alike {m : Nat} (id : Byte) (k : Kind) (h : Alike s s') (hm : m = s.messageLength)
    (hl : m ≤ s.readLen) : decompose m id k s' = decompose m id k s := by
  have hlen : s.messageLength = 4 + (s.rbuf.read 3).toNat := rfl
  have hid := h.read (a := 2) (by omega)
  have hcount := h.read (a := 3) (by omega)
  rw [decompose, decompose, hid, hcount]
  by_cases h2 : (s.rbuf.read 3).toNat < 2
  · rw [if_pos h2, if_pos h2]
  · rw [if_neg h2, if_neg h2, h.par, h.read (a := 4) (by omega), h.readBytes (a := 5) (n := m - 6) (by omega)]

theorem finishRequest_alike {m : Nat} (id : Byte) (k : Kind) (h : Alike s s') (hm : m = s.messageLength)
    (hl : m ≤ s.readLen) : Alike (finishRequest m id k s) (finishRequest m id k s') := by
  have hd : Alike { s with seq := .decompose } { s' with seq := .decompose } :=
    h.map (f := fun t => { t with seq := .decompose }) (fun _ _ => rfl) le_rfl
  rw [finishRequest, finishRequest, decompose_alike id k hd hm hl]
  split
  · exact h.raise _
  · next r _ => exact h.map (f := fun t => t.deliver (.response r t.skipped)) (fun _ _ => rfl) le_rfl

theorem afterCollect_alike (h : Alike s s') (hv : s.ViewBuffered) : Alike (afterCollect s) (afterCollect s') := by
  rw [afterCollect, afterCollect, h.seq, h.phase, h.view, h.exchange]
  split
  · split
    · next hm _ =>
      obtain ⟨-, hlen, hl⟩ := hv _ hm
      exact finishRequest_alike _ _ h hlen hl
    · next m _ _ _ => exact h.map (f := fun t => t.deliver (.collected m t.skipped)) (fun _ _ => rfl) le_rfl
    · exact h
  · exact h

theorem goOnReading_alike (h : Alike s s') (hv : s.ViewBuffered) : Alike (goOnReading s) (goOnReading s') := by
  rw [goOnReading, goOnReading, h.reads]
  exact afterCollect_alike (awaitReads_alike _ h) (awaitReads_viewBuffered _ hv)

theorem beginCollect_alike (nexp : Nat) (h : Alike s s') (hv : s.view = none) :
    Alike (beginCollect nexp s) (beginCollect nexp s') :=
  goOnReading_alike
    (turn_alike (h.map (f := fun t => collectStart nexp { t with seq := .collect }) (fun _ _ => rfl) le_rfl))
    (turn_viewBuffered hv)

theorem takeWrite_alike (nexp : Nat) (h : Alike s s') (hv : s.view = none) :
    Alike (takeWrite nexp s) (takeWrite nexp s') := by
  rcases hw : s.writes with _ | ⟨_ | e, ws⟩
  · rwa [takeWrite_nil hw, takeWrite_nil (h.writes.trans hw)]
  · rw [takeWrite_ok hw, takeWrite_ok (h.writes.trans hw)]
    exact beginCollect_alike nexp (h.map (f := fun t => { t with writes := ws }) (fun _ _ => rfl) le_rfl) hv
  · rw [takeWrite_err hw, takeWrite_err (h.writes.trans hw)]
    exact h.map (f := fun t => { t with writes := ws }.raise (.writeFailed e)) (fun _ _ => rfl) le_rfl

theorem beginWrite_alike (nexp k : Nat) (h : Alike s s') (hv : s.view = none) :
    Alike (beginWrite nexp k s) (beginWrite nexp k s') :=
  takeWrite_alike nexp
    (h.map (f := fun t => { t with seq := .write }.callTransport (.writeAll (t.wbuf.readBytes 0 k)))
      (fun _ _ => rfl) le_rfl) hv

theorem takeDiscard_alike (nexp k : Nat) (h : Alike s s') (hv : s.view = none) :
    Alike (takeDiscard nexp k s) (takeDiscard nexp k s') := by
  rcases hd : s.discards with _ | ⟨_ | ⟨e, left⟩, ds⟩
  · rwa [takeDiscard_nil hd, takeDiscard_nil (h.discards.trans hd)]
  · rw [takeDiscard_ok hd, takeDiscard_ok (h.discards.trans hd)]
    exact beginWrite_alike nexp k
      (h.map (f := fun t => { t with discards := ds, pending := [] }) (fun _ _ => rfl) le_rfl) hv
  · rw [takeDiscard_err hd, takeDiscard_err (h.discards.trans hd)]
    exact h.map (f := fun t => { t with discards := ds, pending := left }.raise (.discardFailed e))
      (fun _ _ => rfl) le_rfl

theorem prewriteReset_alike (nexp k : Nat) (h : Alike s s') (hv : s.view = none) :
    Alike (prewriteReset nexp k s) (prewriteReset nexp k s') :=
  takeDiscard_alike nexp k
    (h.map (f := fun t => { t with seq := .reset, readLen := 0, used := 0 }.callTransport .discardInput)
      (fun _ _ => rfl) (Nat.zero_le _)) hv

/-- The encoder looks at the parameters and at `WBUF` only, and changes `WBUF` only. -/
theorem encodePacket_congr (id ins : Byte) (params : List Byte) (hp : s'.par = s.par) (hw : s'.wbuf = s.wbuf) :
    encodePacket id ins params s' = (encodePacket id ins params s).map fun t => { s' with wbuf := t.wbuf } := by
  simp only [encodePacket, hp, hw]
  split_ifs <;> rfl

theorem requestBody_alike (id ins : Byte) (params : List Byte) (nexp : Nat) (k : Kind) (h : Alike s s')
    (hv : s.view = none) : Alike (requestBody id ins params nexp k s) (requestBody id ins params nexp k s') := by
  have he' := encodePacket_congr id ins params h.par h.wbuf
  rcases requestBody_cases id ins params nexp k s with ⟨f, he, e⟩ | ⟨w, he, e⟩ <;> rw [he] at he'
  · rw [e, requestBody_of_error he']
    exact h.raise f
  · rw [e, requestBody_of_ok he']
    exact prewriteReset_alike nexp _ (h.map
      (f := fun t => { t with wbuf := w, seq := .encode, exchange := some (.request id k nexp (params.length + 6)) })
      (fun _ _ => rfl) le_rfl) hv

/-! ## The commands -/

theorem command_alike {body : State → State}
    (hbody : ∀ t t' : State, Alike t t' → t.view = none → Alike (body t) (body t')) (h : Alike s s') :
    Alike (s.command body) (s'.command body) := by
  by_cases hseq : s.seq = .idle
  · rw [command_of_idle hseq, command_of_idle (h.seq.trans hseq)]
    exact hbody _ _ (h.map (f := fun t => { t with view := none }) (fun _ _ => rfl) le_rfl) rfl
  · rw [command_of_busy body hseq, command_of_busy body (by rwa [h.seq])]
    exact h.refuse _

theorem request_alike (id : Byte) (x : InsName) (params : List Byte) (nexp : Nat) (k : Kind) (h : Alike s s') :
    Alike (request id x params nexp k s) (request id x params nexp k s') :=
  command_alike (fun t t' ht hv => by rw [ht.par]; exact requestBody_alike _ _ _ _ _ ht hv) h

theorem readCommand_alike (ref : RegRef) (id : Byte) (h : Alike s s') :
    Alike (readCommand ref id s) (readCommand ref id s') := by
  refine command_alike (fun t t' ht hv => ?_) h
  rw [ht.par]
  split
  · exact ht.refuse _
  · exact requestBody_alike _ _ _ _ _ ht hv

theorem writeValue_alike (r : RegDesc) (op : InsName) (id : Byte) (v : Word32) (h : Alike s s') (hv : s.view = none) :
    Alike (writeValue r op id v s) (writeValue r op id v s') := by
  rw [writeValue, writeValue, h.par]
  split
  · exact h.refuse _
  · exact h.raise _
  · exact requestBody_alike _ _ _ _ _ h hv

theorem writeCommand_alike (ref : RegRef) (id : Byte) (v : Word32) (h : Alike s s') :
    Alike (writeCommand ref id v s) (writeCommand ref id v s') := by
  refine command_alike (fun t t' ht hv => ?_) h
  rw [ht.par]
  split
  · exact ht.refuse _
  · split
    · exact writeValue_alike _ _ _ _ ht hv
    · exact ht.refuse _

theorem mwriteCommand_alike (cls : RegClass) (id : Byte) (es : List Entry) (h : Alike s s') :
    Alike (mwriteCommand cls id es s) (mwriteCommand cls id es s') := by
  refine command_alike (fun t t' ht hv => ?_) h
  rw [ht.par]
  split
  · exact ht.refuse _
  · exact requestBody_alike _ _ _ _ _ ht hv

theorem collectCommand_alike (nexp : Nat) (h : Alike s s') :
    Alike (collectCommand nexp s) (collectCommand nexp s') :=
  command_alike (fun _ _ ht hv => beginCollect_alike nexp
    (ht.map (f := fun t => { t with exchange := some (.collect nexp) }) (fun _ _ => rfl) le_rfl) hv) h

theorem encodeBody_alike (id ins : Byte) (params : List Byte) (h : Alike s s') :
    Alike (encodeBody id ins params s) (encodeBody id ins params s') := by
  rw [encodeBody, encodeBody, encodePacket_congr id ins params h.par h.wbuf]
  rcases encodePacket_cases id ins params s with ⟨-, e⟩ | ⟨-, -, e⟩ | ⟨-, -, w, e, -⟩ <;> rw [e]
  · exact h.raise _
  · exact h.raise _
  · exact h.map
      (f := fun t => { t with wbuf := w }.deliver (.encoded (params.length + 6) (w.readBytes 0 (params.length + 6))))
      (fun _ _ => rfl) le_rfl

/-- A command that only gives a result, which does not depend on `RBUF`. -/
theorem answer_alike {r : State → Result} (hr : ∀ t m, r { t with rbuf := m } = r t) (h : Alike s s') :
    Alike (s.command fun t => t.deliver (r t)) (s'.command fun t => t.deliver (r t)) :=
  command_alike (fun _ _ ht _ => ht.map (f := fun t => t.deliver (r t)) (fun t m => by rw [hr]; rfl) le_rfl) h

theorem decodeByte_alike (b : Byte) (h : Alike s s') : Alike (decodeByte b s) (decodeByte b s') :=
  answer_alike (r := fun t => .instruction (t.par.opc.decodeIns b)) (fun _ _ => rfl) h

theorem decodeName_alike (x : InsName) (h : Alike s s') : Alike (decodeName x s) (decodeName x s') := by
  rw [decodeName, decodeName, h.par]
  exact decodeByte_alike _ h

theorem setBaudBody_alike (b : Word32) (h : Alike s s') : Alike (setBaudBody b s) (setBaudBody b s') := by
  rw [setBaudBody, setBaudBody]
  split
  · exact h.refuse _
  · exact h.map (f := fun t => { t.callTransport (.setBaudRate b) with baud := b }.deliver .done) (fun _ _ => rfl) le_rfl

/-! ## The step -/

/-- A command that waits goes on alike: while it waits there is no view. -/
theorem resume_alike (h : Alike s s') (hv : s.seq = .idle ∨ s.view = none) : Alike (resume s) (resume s') := by
  rcases hv with hseq | hv
  · rwa [resume_of_idle hseq, resume_of_idle (h.seq.trans hseq)]
  · rcases resume_cases s with ⟨id, kd, nexp, k, hseq, hx⟩ | ⟨id, kd, nexp, k, hseq, hx⟩ | ⟨x, hseq, hx⟩ | hrest
    · rw [resume_of_reset hseq hx, resume_of_reset (h.seq.trans hseq) (h.exchange.trans hx)]
      exact takeDiscard_alike nexp k h hv
    · rw [resume_of_write hseq hx, resume_of_write (h.seq.trans hseq) (h.exchange.trans hx)]
      exact takeWrite_alike nexp h hv
    · rw [resume_of_collect hseq hx, resume_of_collect (h.seq.trans hseq) (h.exchange.trans hx)]
      exact goOnReading_alike h (viewBuffered_of_none hv)
    · rwa [hrest s rfl rfl, hrest s' h.seq h.exchange]

theorem receive_of_reading (bytes : List Byte) (h : s.seq = .collect ∧ s.phase = .read) :
    receive bytes s = resume { s with pending := s.pending ++ bytes, reads := .ok [] s.room :: s.reads } := if_pos h

theorem receive_alike (bytes : List Byte) (h : Alike s s') (hv : s.seq = .idle ∨ s.view = none) :
    Alike (receive bytes s) (receive bytes s') := by
  by_cases hr : s.seq = .collect ∧ s.phase = .read
  · rw [receive_of_reading bytes hr, receive_of_reading bytes (by rwa [h.seq, h.phase]), h.room]
    exact resume_alike (h.map (f := fun t => { t with pending := t.pending ++ bytes, reads := .ok [] s.room :: t.reads })
      (fun _ _ => rfl) le_rfl) hv
  · rw [receive_of_not_reading bytes hr, receive_of_not_reading bytes (by rwa [h.seq, h.phase])]
    exact h.map (f := fun t => { t with pending := t.pending ++ bytes }) (fun _ _ => rfl) le_rfl

end

/-- The instruction answers a next state from both, and the two are alike. -/
theorem exec_alike (i : Instr) {s s' : State} (h : Alike s s') (hv : s.seq = .idle ∨ s.view = none) :
    ∃ f : State → State, (∀ t, exec i t = .next (f t)) ∧ Alike (f s) (f s') := by
  cases i
  case insPing | insReadStatus | insWriteStatus | insReadConfig | insWriteConfig | insSaveConfig | insBulkComm =>
    exact ⟨_, fun _ => rfl, decodeName_alike _ h⟩
  case ping | save => exact ⟨_, fun _ => rfl, request_alike _ _ _ _ _ h⟩
  case readStatus | readConfig | readReg => exact ⟨_, fun _ => rfl, readCommand_alike _ _ h⟩
  case writeStatus1 | writeStatus2 | writeStatus4 | writeConfig1 | writeConfig2 | writeConfig4 | writeReg =>
    exact ⟨_, fun _ => rfl, writeCommand_alike _ _ _ h⟩
  case mwriteConfig | mwriteStatus => exact ⟨_, fun _ => rfl, mwriteCommand_alike _ _ _ h⟩
  case encodeRaw => exact ⟨_, fun _ => rfl, command_alike (fun _ _ ht _ => encodeBody_alike _ _ _ ht) h⟩
  case response => exact ⟨_, fun _ => rfl, receive_alike _ h hv⟩
  case collect => exact ⟨_, fun _ => rfl, collectCommand_alike _ h⟩
  case checksum d =>
    exact ⟨_, fun _ => rfl, answer_alike (r := fun _ => .byte (Sys2Proof.checksum d)) (fun _ _ => rfl) h⟩
  case ttime size =>
    exact ⟨_, fun _ => rfl, answer_alike (r := fun t => .micros (transferTime t.baud size)) (fun _ _ => rfl) h⟩
  case setBaud => exact ⟨_, fun _ => rfl, command_alike (fun _ _ ht _ => setBaudBody_alike _ ht) h⟩
  case decodeIns => exact ⟨_, fun _ => rfl, decodeByte_alike _ h⟩

/-- Two outcomes that a host cannot tell apart but by stale bytes. -/
def OutcomesAlike : Host.Outcome State Fault Refusal → Host.Outcome State Fault Refusal → Prop
  | .next t, .next t' => SameButStale t t'
  | .fault f, .fault f' => f = f'
  | .refused r, .refused r' => r = r'
  | _, _ => False

/-- The host's read of a view that is buffered gives the same bytes, or faults or is refused alike. -/
theorem readView_alike {s s' : State} (a n : Nat) (h : Alike s s') (hv : ∀ m, s.view = some m → m ≤ s.readLen) :
    OutcomesAlike (s.readView a n) (s'.readView a n) := by
  rcases hm : s.view with _ | m
  · rw [readView_of_none a n hm, readView_of_none a n (h.view.trans hm)]
    exact (h.refuse _).same
  · rcases Nat.lt_or_ge m (a + n) with hout | hin
    · rw [readView_of_outside hm hout, readView_of_outside (h.view.trans hm) hout]
      rfl
    · have hbytes := h.readBytes (hin.trans (hv m hm))
      rw [readView_of_inside hm hin, readView_of_inside (h.view.trans hm) hin, hbytes]
      exact (h.map (f := fun t => { t with result := some (.viewBytes (s.rbuf.readBytes a n)) })
        (fun _ _ => rfl) le_rfl).same

/-- A command that waits has no view (44 R231). -/
theorem State.Inv.idle_or_view_none {s : State} (h : s.Inv) : s.seq = .idle ∨ s.view = none := by
  rcases State.controlOk_iff.mp (inv_iff.mp h).2 with ⟨hseq, -⟩ | ⟨-, _, _, _, _, -, hs⟩ | ⟨-, _, _, _, _, -, hs⟩ |
    ⟨-, _, -, -, hr⟩
  · exact .inl hseq
  · exact .inr (State.sendingOk_iff.mp hs).2.1
  · exact .inr (State.sendingOk_iff.mp hs).2.1
  · exact .inr (State.readingOk_iff.mp hr).2.1

/-- What is in view is marked used, and so buffered (10 R35; 42 R168). -/
theorem State.Inv.view_le_readLen {s : State} (h : s.Inv) {m : Nat} (hm : s.view = some m) : m ≤ s.readLen := by
  have hs := (inv_iff.mp h).1
  obtain ⟨-, -, -, hused⟩ := (State.viewOk_of_some hm).mp hs.view
  exact hused.le.trans hs.cursors.1

theorem step_alike {s s' : State} (hi : s.Inv) (h : Alike s s') : OutcomesAlike (step s) (step s') := by
  have hq : ∀ rest, Alike { s with inbox := rest } { s' with inbox := rest } := fun rest =>
    h.map (f := fun t => { t with inbox := rest }) (fun _ _ => rfl) le_rfl
  rcases step_cases s with ⟨hb, e⟩ | ⟨w, rest, i, hb, hd, e⟩ | ⟨w, rest, d, hb, hd, e⟩ | ⟨a, n, rest, hb, e⟩ <;> rw [e]
  · rw [step_of_inbox_nil (h.inbox.trans hb)]
    exact (resume_alike h hi.idle_or_view_none).same
  · obtain ⟨f, hf, ha⟩ := exec_alike i (hq rest) hi.idle_or_view_none
    rw [step_of_issue (h.inbox.trans hb) (by rwa [h.par]), hf, hf]
    exact ha.same
  · rw [step_of_undecodable (h.inbox.trans hb) (by rwa [h.par])]
    rfl
  · rw [step_of_readView (h.inbox.trans hb)]
    exact readView_alike a n (hq rest) fun m hm => hi.view_le_readLen hm

/-- Settles O15: each operation looks at `RBUF` below `READ_LEN` only, and so does the host, through the view. -/
theorem staleBytesAreUnobservable : Obligations.StaleBytesAreUnobservable := by
  intro s s' hi hi' hsame
  obtain ⟨-, hwf, -⟩ := (inv_iff.mp hi).1.buffers
  obtain ⟨-, hwf', -⟩ := (inv_iff.mp hi').1.buffers
  have h := step_alike hi ⟨hsame, hwf, hwf'⟩
  cases hs : step s <;> cases hs' : step s' <;> rw [hs, hs'] at h <;> exact h

/-! ## The barrier of the pre-write reset -/

/-- With no byte buffered, two states that differ only in `RBUF` are alike. -/
theorem alike_of_readLen_zero {s s' : State} (he : s' = { s with rbuf := s'.rbuf }) (hl : s.readLen = 0)
    (hwf : s.rbuf.wf = true) (hwf' : s'.rbuf.wf = true) : Alike s s' :=
  ⟨⟨he, fun _ ha => absurd ha (by omega)⟩, hwf, hwf'⟩

/-- The pre-write reset, once its discard has taken effect, leaves of what was buffered or pending only stale bytes
(44 R235). -/
theorem prewriteReset_barrier {s : State} {ds : List DiscardAnswer} {m : Memory} (nexp k n u : Nat) (old : List Byte)
    (hd : s.discards = .ok :: ds) (hv : s.view = none) (hwf : s.rbuf.wf = true) (hm : m.wf = true) :
    Alike (prewriteReset nexp k s)
      (prewriteReset nexp k { s with rbuf := m, readLen := n, used := u, pending := old }) := by
  rw [prewriteReset, prewriteReset, takeDiscard_ok (by exact hd), takeDiscard_ok (by exact hd)]
  exact beginWrite_alike nexp k (alike_of_readLen_zero rfl rfl hwf hm) hv

theorem requestBody_barrier {s : State} {ds : List DiscardAnswer} {m : Memory} (id ins : Byte) {params : List Byte}
    (nexp : Nat) (kd : Kind) (n u : Nat) (old : List Byte) (hcap : params.length + 6 ≤ s.par.capW)
    (hlen : params.length ≤ 253) (hd : s.discards = .ok :: ds) (hv : s.view = none) (hwf : s.rbuf.wf = true)
    (hm : m.wf = true) :
    Alike (requestBody id ins params nexp kd s)
      (requestBody id ins params nexp kd { s with rbuf := m, readLen := n, used := u, pending := old }) := by
  have he' := encodePacket_congr (s := s) (s' := { s with rbuf := m, readLen := n, used := u, pending := old })
    id ins params rfl rfl
  rcases encodePacket_cases id ins params s with ⟨h, -⟩ | ⟨-, h, -⟩ | ⟨-, -, w, he, -⟩
  · omega
  · omega
  · rw [he] at he'
    rw [requestBody_of_ok he, requestBody_of_ok he']
    exact prewriteReset_barrier
      (s := { s with wbuf := w, seq := .encode, exchange := some (.request id kd nexp (params.length + 6)) })
      nexp _ n u old hd hv hwf hm

/-! ## The request commands -/

theorem readCommand_of_lookup {ref : RegRef} {r : RegDesc} (id : Byte) {s : State} (hseq : s.seq = .idle)
    (hl : s.par.lookup ref = some r) :
    readCommand ref id s =
      requestBody id (s.par.opc.byteOf r.readOp) [r.addr] (readNexp r) (.read r) { s with view := none } := by
  rw [readCommand, command_of_idle hseq]
  simp only [hl]

/-- The codec writes a value in range as its low bytes (43 R204). -/
theorem encodeValue_of_writable {r : RegDesc} {op : InsName} {v : Word32} (h : Writable r op v) :
    encodeValue r v r.width = .ok (leBytes r.width v.toNat) := by
  obtain ⟨-, -, -, hf, hu⟩ := h
  rw [encodeValue, if_neg (lt_irrefl _)]
  cases hk : r.kind with
  | u32 => exact if_neg (Nat.not_le.mpr (hu hk))
  | f32 => rw [hf hk]

theorem writeCommand_of_writable {ref : RegRef} {r : RegDesc} {op : InsName} {v : Word32} (id : Byte) {s : State}
    (hseq : s.seq = .idle) (hl : s.par.lookup ref = some r) (hr : Writable r op v) :
    writeCommand ref id v s =
      requestBody id (s.par.opc.byteOf op) (r.addr :: leBytes r.width v.toNat) ackNexp .ack { s with view := none } := by
  have hv := encodeValue_of_writable hr
  obtain ⟨ha, hop, -⟩ := hr
  rw [writeCommand, command_of_idle hseq]
  simp only [hl, ha, hop, writeValue, hv]

theorem badEntryFrom_eq_none {es : List Entry} (i : Nat) (h : ∀ e ∈ es, e.val.length = 4) :
    badEntryFrom i es = none := by
  induction es generalizing i with
  | nil => rfl
  | cons e es ih =>
    obtain ⟨he, hes⟩ := List.forall_mem_cons.mp h
    rw [badEntryFrom, if_neg (not_not_intro he), ih _ hes]

theorem entriesBytes_eq_flatMap (es : List Entry) : entriesBytes es = es.flatMap fun e => e.addr :: e.val := by
  induction es with
  | nil => rfl
  | cons e es ih => rw [entriesBytes, ih, entryBytes, List.flatMap_cons]

theorem mwriteCommand_of_entries {cls : RegClass} {es : List Entry} {params : List Byte} (id : Byte) {s : State}
    (hseq : s.seq = .idle) (h : SendsEntries es params) :
    mwriteCommand cls id es s =
      requestBody id (s.par.opc.byteOf cls.writeOp) params ackNexp .ack { s with view := none } := by
  obtain ⟨hes, rfl⟩ := h
  rw [mwriteCommand, command_of_idle hseq, badEntry, badEntryFrom_eq_none 1 hes, entriesBytes_eq_flatMap]

theorem request_of_idle (id : Byte) (x : InsName) (params : List Byte) (nexp : Nat) (k : Kind) {s : State}
    (hseq : s.seq = .idle) :
    request id x params nexp k s =
      requestBody id (s.par.opc.byteOf x) params nexp k { s with view := none } := by
  rw [request, command_of_idle hseq]

/-- From every idle state with the parameters `p`, the instruction makes this request. -/
def MakesRequest (p : Params) (i : Instr) (id ins : Byte) (params : List Byte) (nexp : Nat) (k : Kind) : Prop :=
  ∀ s : State, s.par = p → s.seq = .idle →
    exec i s = .next (requestBody id ins params nexp k { s with view := none })

theorem makesRequest_of_readCommand {p : Params} {i : Instr} {ref : RegRef} {id ins : Byte} {params : List Byte}
    (hi : ∀ s, exec i s = .next (readCommand ref id s)) (h : SendsRead p ref ins params) :
    ∃ nexp k, MakesRequest p i id ins params nexp k := by
  obtain ⟨r, hl, rfl, rfl⟩ := h
  refine ⟨readNexp r, .read r, ?_⟩
  rintro s rfl hseq
  rw [hi, readCommand_of_lookup id hseq hl]

theorem makesRequest_of_writeCommand {p : Params} {i : Instr} {ref : RegRef} {id ins : Byte} {params : List Byte}
    {v : Word32} (hi : ∀ s, exec i s = .next (writeCommand ref id v s)) (h : SendsWrite p ref v ins params) :
    ∃ nexp k, MakesRequest p i id ins params nexp k := by
  obtain ⟨r, op, hl, hr, rfl, rfl⟩ := h
  refine ⟨ackNexp, .ack, ?_⟩
  rintro s rfl hseq
  rw [hi, writeCommand_of_writable id hseq hl hr]

/-- A request command whose operands pass their checks is a request of the packet it sends (44 R244 to R248). -/
theorem makesRequest_of_sends {p : Params} {i : Instr} {id ins : Byte} {params : List Byte}
    (h : Sends p id ins params i) : ∃ nexp k, MakesRequest p i id ins params nexp k := by
  cases i
  case insPing | insReadStatus | insWriteStatus | insReadConfig | insWriteConfig | insSaveConfig | insBulkComm |
    encodeRaw | response | collect | checksum | ttime | setBaud | decodeIns => exact False.elim h
  case ping =>
    obtain ⟨rfl, rfl, rfl⟩ := h
    exact ⟨pingNexp, .ping, fun s hp hseq => hp ▸ congrArg _ (request_of_idle _ _ _ _ _ hseq)⟩
  case save =>
    obtain ⟨rfl, rfl, rfl⟩ := h
    exact ⟨ackNexp, .ack, fun s hp hseq => hp ▸ congrArg _ (request_of_idle _ _ _ _ _ hseq)⟩
  case readStatus | readConfig | readReg =>
    obtain ⟨rfl, h⟩ := h
    exact makesRequest_of_readCommand (fun _ => rfl) h
  case writeStatus1 | writeStatus2 | writeStatus4 | writeConfig1 | writeConfig2 | writeConfig4 | writeReg =>
    obtain ⟨rfl, h⟩ := h
    exact makesRequest_of_writeCommand (fun _ => rfl) h
  case mwriteConfig | mwriteStatus =>
    obtain ⟨rfl, rfl, h⟩ := h
    exact ⟨ackNexp, .ack, fun s hp hseq => hp ▸ congrArg _ (mwriteCommand_of_entries _ hseq h)⟩

/-- Settles O53: a request command comes to its pre-write reset, which drops what was buffered and pending. -/
theorem prewriteResetIsABarrier : Obligations.PrewriteResetIsABarrier := by
  intro s i id ins params ds m n u old hseq hwf hm hsends hcap hlen hd
  obtain ⟨nexp, k, hreq⟩ := makesRequest_of_sends hsends
  have h := requestBody_barrier (s := { s with view := none }) id ins nexp k n u old hcap hlen hd rfl hwf hm
  exact ⟨_, _, hreq s rfl hseq, hreq { s with rbuf := m, readLen := n, used := u, pending := old } rfl hseq, h.same⟩

end Sys2Proof.Machine
end

section
/-! SUPPORT. What single operations come to: a command that is refused, a wait, a repeated encode and a read's answer;
`ConcurrentCommandRefused`, `WaitingChangesNothing`, `EncodingTwiceIsEncodingOnce` and `ReadAnswerIsTaken`. -/

namespace Sys2Proof.Machine

open Sys2Proof.Claims

/-! ## A command while another is in progress -/

/-- Every instruction but a received packet is a command (log 19). -/
theorem exec_eq_command {i : Instr} (hi : ∀ id body, i ≠ .response id body) (s : State) :
    ∃ body, exec i s = .next (s.command body) := by
  cases i
  case response id body => exact absurd rfl (hi id body)
  all_goals exact ⟨_, rfl⟩

/-- Settles O7: every command starts with the check of `STEP`. -/
theorem concurrentCommandRefused : Obligations.ConcurrentCommandRefused := by
  intro s i hseq hi
  obtain ⟨body, e⟩ := exec_eq_command hi s
  rw [e, command_of_busy body hseq]
  rfl

/-! ## Waiting -/

theorem afterCollect_of_phase_ne_idle {s : State} (h : s.phase ≠ .idle) : afterCollect s = s := by
  rw [afterCollect, if_neg fun hc => h hc.2]

theorem goOnReading_of_no_answer {s : State} (hp : s.phase = .read) (hr : s.reads = []) : goOnReading s = s := by
  rw [goOnReading, hr, awaitReads, afterCollect_of_phase_ne_idle (by rw [hp]; decide)]

/-- With no answer to the call that a command waits for, there is nothing to go on with. -/
theorem resume_of_no_answer {s : State} (hd : s.seq = .reset → s.discards = []) (hw : s.seq = .write → s.writes = [])
    (hr : s.seq = .collect → s.phase = .read ∧ s.reads = []) : resume s = s := by
  rcases resume_cases s with ⟨id, kd, nexp, k, hseq, hx⟩ | ⟨id, kd, nexp, k, hseq, hx⟩ | ⟨x, hseq, hx⟩ | hrest
  · rw [resume_of_reset hseq hx, takeDiscard_nil (hd hseq)]
  · rw [resume_of_write hseq hx, takeWrite_nil (hw hseq)]
  · obtain ⟨hp, hr⟩ := hr hseq
    rw [resume_of_collect hseq hx, goOnReading_of_no_answer hp hr]
  · exact hrest s rfl rfl

/-- Settles O5. -/
theorem waitingChangesNothing : Obligations.WaitingChangesNothing := by
  intro s hq h
  rw [step_of_inbox_nil hq]
  rcases h with hseq | ⟨hseq, hd⟩ | ⟨hseq, hw⟩ | ⟨hseq, hp, hr⟩
  · rw [resume_of_idle hseq]
  · rw [resume_of_no_answer (fun _ => hd) (by simp [hseq]) (by simp [hseq])]
  · rw [resume_of_no_answer (by simp [hseq]) (fun _ => hw) (by simp [hseq])]
  · rw [resume_of_no_answer (by simp [hseq]) (by simp [hseq]) fun _ => ⟨hp, hr⟩]

/-! ## The encoder -/

/-- A packet that fits is encoded into `WBUF`, and nothing else changes (41 R142, R144). -/
theorem encodePacket_of_fits {s : State} (id ins : Byte) {params : List Byte} (hwf : s.wbuf.wf = true)
    (hcap : params.length + 6 ≤ s.par.capW) (hlen : params.length ≤ 253) :
    ∃ w : Memory, encodePacket id ins params s = .ok { s with wbuf := w } ∧ w.wf = true ∧
      ∀ a, w.read a = if a < params.length + 6 then (requestPacket id ins params).getD a 0 else s.wbuf.read a := by
  rcases encodePacket_cases id ins params s with ⟨h, -⟩ | ⟨-, h, -⟩ | ⟨-, -, w, e, hw, -⟩
  · omega
  · omega
  · exact ⟨w, e, hw hwf⟩

/-- The encoder succeeds only on a packet that fits (41 R143). -/
theorem fits_of_encodePacket {s t : State} {id ins : Byte} {params : List Byte}
    (h : encodePacket id ins params s = .ok t) : params.length + 6 ≤ s.par.capW ∧ params.length ≤ 253 := by
  rcases encodePacket_cases id ins params s with ⟨-, e⟩ | ⟨-, -, e⟩ | ⟨hcap, hlen, -⟩
  · cases e.symm.trans h
  · cases e.symm.trans h
  · exact ⟨hcap, hlen⟩

/-- Settles O33: the second encode writes the bytes that are there, and `WBUF` in canonical form is told by its
bytes. -/
theorem encodingTwiceIsEncodingOnce : Obligations.EncodingTwiceIsEncodingOnce := by
  intro s t id ins params hwf h
  obtain ⟨hcap, hlen⟩ := fits_of_encodePacket h
  obtain ⟨w, e, hw, hread⟩ := encodePacket_of_fits id ins hwf hcap hlen
  obtain rfl : { s with wbuf := w } = t := Except.ok.inj (e.symm.trans h)
  obtain ⟨w', e', hw', hread'⟩ := encodePacket_of_fits (s := { s with wbuf := w }) id ins hw hcap hlen
  have hsame : w' = w := Memory.ext_of_wf hw' hw fun a => by
    rw [hread', hread]
    split <;> rfl
  rw [e', hsame]

/-! ## A read's answer -/

theorem takeRead_of_fits {s : State} {arrived bytes : List Byte} {limit : Nat}
    (hb : bytes = (s.pending ++ arrived).take limit) (hroom : bytes.length ≤ s.room) :
    takeRead (.ok arrived limit) s =
      { s with
        rbuf := s.rbuf.writeBytes s.readLen bytes
        readLen := s.readLen + bytes.length
        phase := .resync
        pending := (s.pending ++ arrived).drop limit } := by
  subst hb
  exact if_pos hroom

theorem takeRead_of_overflow {s : State} {arrived bytes : List Byte} {limit : Nat}
    (hb : bytes = (s.pending ++ arrived).take limit) (hroom : s.room < bytes.length) :
    takeRead (.ok arrived limit) s =
      { s with pending := (s.pending ++ arrived).drop limit }.refuse (.transportContract bytes.length s.room) := by
  subst hb
  exact if_neg (Nat.not_le.mpr hroom)

theorem takeRead_err (e : TransportError) (timedOut : Bool) (s : State) :
    takeRead (.err e timedOut) s =
      (s.callTransport (.isTimeoutError e)).raise (if timedOut then .timeout else .readFailed e) := by
  cases timedOut <;> rfl

/-- Settles O38. -/
theorem readAnswerIsTaken : Obligations.ReadAnswerIsTaken := by
  intro s hwf
  refine ⟨fun arrived limit bytes hb hroom => ?_, fun arrived limit bytes hb hroom => ?_, fun e timedOut => ?_⟩
  · refine ⟨s.rbuf.writeBytes s.readLen bytes, takeRead_of_fits hb hroom, Memory.wf_writeBytes _ _ hwf,
      fun i hi => ?_, fun a ha => ?_⟩
    · rw [Memory.read_writeBytes _ _ _ hwf, if_pos (by omega), Nat.add_sub_cancel_left]
    · rw [Memory.read_writeBytes _ _ _ hwf, if_neg (by omega)]
  · exact takeRead_of_overflow hb hroom
  · exact takeRead_err e timedOut s

end Sys2Proof.Machine
end

section
/-! SUPPORT. The transport calls that each operation adds to those made before; `AtMostOneWriteAll`. -/

namespace Sys2Proof.Machine

open Sys2Proof.Claims

/-- The calls are the old ones and then new ones, at most `n` of them a `T.write_all`. -/
def Extends (n : Nat) (old calls : List Call) : Prop :=
  ∃ new, calls = old ++ new ∧ (new.filter isWriteAll).length ≤ n

theorem Extends.refl (n : Nat) (old : List Call) : Extends n old old := ⟨[], by simp⟩

theorem Extends.of_eq {n : Nat} {old calls : List Call} (h : calls = old) : Extends n old calls := h ▸ .refl n old

theorem Extends.trans {n k : Nat} {a b c : List Call} (h1 : Extends n a b) (h2 : Extends k b c) :
    Extends (n + k) a c := by
  obtain ⟨new1, rfl, h1⟩ := h1
  obtain ⟨new2, rfl, h2⟩ := h2
  exact ⟨new1 ++ new2, List.append_assoc .., by rw [List.filter_append, List.length_append]; omega⟩

theorem Extends.mono {n k : Nat} {old calls : List Call} (h : Extends n old calls) (hnk : n ≤ k) :
    Extends k old calls :=
  let ⟨new, e, hn⟩ := h
  ⟨new, e, hn.trans hnk⟩

theorem extends_writeAll (old : List Call) (bytes : List Byte) : Extends 1 old (old ++ [.writeAll bytes]) :=
  ⟨[.writeAll bytes], rfl, le_rfl⟩

theorem extends_call (old : List Call) {c : Call} (hc : isWriteAll c = false) : Extends 0 old (old ++ [c]) :=
  ⟨[c], rfl, by simp [hc]⟩

/-! ## The framer makes no `T.write_all` -/

theorem takeRead_extends (a : ReadAnswer) (s : State) : Extends 0 s.calls (takeRead a s).calls := by
  rcases takeRead_cases a s with ⟨_, _, e, -⟩ | ⟨_, _, e, -⟩ | ⟨e', e⟩ | ⟨e', e⟩ <;> rw [e]
  · exact .refl 0 _
  · exact .refl 0 _
  · exact extends_call _ rfl
  · exact extends_call _ rfl

@[simp] theorem verify_calls (s : State) : (verify s).calls = s.calls := by
  rcases verify_cases s with ⟨e, -⟩ | ⟨e, -⟩ <;> simp [e]

theorem turn_extends (s : State) : Extends 0 s.calls (turn s).calls := by
  rcases turn_cases s with ⟨e, -⟩ | ⟨e, -⟩ | ⟨e, -⟩ <;> rw [e]
  · exact extends_call _ rfl
  · exact .refl 0 _
  · exact .of_eq (verify_calls _)

theorem awaitReads_extends (as : List ReadAnswer) (s : State) : Extends 0 s.calls (awaitReads as s).calls :=
  awaitReads_keeps (P := fun t => Extends 0 s.calls t.calls)
    (fun a as t _ h => h.trans (takeRead_extends a { t with reads := as }))
    (fun t _ h => h.trans (turn_extends t)) as (.refl 0 _)

/-! ## The sequencer makes one, in its write step -/

@[simp] theorem finishRequest_calls (m : Nat) (id : Byte) (k : Kind) (s : State) :
    (finishRequest m id k s).calls = s.calls := by
  rw [finishRequest]
  split <;> rfl

@[simp] theorem afterCollect_calls (s : State) : (afterCollect s).calls = s.calls := by
  rw [afterCollect]
  split
  · split
    · exact finishRequest_calls _ _ _ s
    · rfl
    · rfl
  · rfl

theorem goOnReading_extends (s : State) : Extends 0 s.calls (goOnReading s).calls := by
  rw [goOnReading, afterCollect_calls]
  exact awaitReads_extends s.reads s

theorem beginCollect_extends (nexp : Nat) (s : State) : Extends 0 s.calls (beginCollect nexp s).calls :=
  (extends_call s.calls rfl).trans
    ((turn_extends (collectStart nexp { s with seq := .collect })).trans (goOnReading_extends _))

theorem takeWrite_extends (nexp : Nat) (s : State) : Extends 0 s.calls (takeWrite nexp s).calls := by
  rcases hw : s.writes with _ | ⟨_ | e, ws⟩
  · rw [takeWrite_nil hw]; exact .refl 0 _
  · rw [takeWrite_ok hw]; exact beginCollect_extends nexp { s with writes := ws }
  · rw [takeWrite_err hw]; exact .refl 0 _

theorem beginWrite_extends (nexp k : Nat) (s : State) : Extends 1 s.calls (beginWrite nexp k s).calls :=
  (extends_writeAll s.calls (s.wbuf.readBytes 0 k)).trans (k := 0) (takeWrite_extends nexp _)

theorem takeDiscard_extends (nexp k : Nat) (s : State) : Extends 1 s.calls (takeDiscard nexp k s).calls := by
  rcases hd : s.discards with _ | ⟨_ | ⟨e, left⟩, ds⟩
  · rw [takeDiscard_nil hd]; exact .refl 1 _
  · rw [takeDiscard_ok hd]; exact beginWrite_extends nexp k { s with discards := ds, pending := [] }
  · rw [takeDiscard_err hd]; exact .refl 1 _

theorem prewriteReset_extends (nexp k : Nat) (s : State) : Extends 1 s.calls (prewriteReset nexp k s).calls :=
  (extends_call s.calls rfl).trans (k := 1) (takeDiscard_extends nexp k _)

theorem requestBody_extends (id ins : Byte) (params : List Byte) (nexp : Nat) (k : Kind) (s : State) :
    Extends 1 s.calls (requestBody id ins params nexp k s).calls := by
  rcases requestBody_cases id ins params nexp k s with ⟨_, -, e⟩ | ⟨_, -, e⟩ <;> rw [e]
  · exact .refl 1 _
  · exact prewriteReset_extends _ _ _

/-! ## The instructions -/

theorem command_extends {body : State → State} (hbody : ∀ t, Extends 1 t.calls (body t).calls) (s : State) :
    Extends 1 s.calls (s.command body).calls := by
  rcases command_cases body s with ⟨-, e⟩ | ⟨-, e⟩ <;> rw [e]
  · exact hbody { s with view := none }
  · exact .refl 1 _

theorem readCommand_extends (ref : RegRef) (id : Byte) (s : State) :
    Extends 1 s.calls (readCommand ref id s).calls := by
  refine command_extends (fun t => ?_) s
  split
  · exact .refl 1 _
  · exact requestBody_extends _ _ _ _ _ t

theorem writeValue_extends (r : RegDesc) (op : InsName) (id : Byte) (v : Word32) (s : State) :
    Extends 1 s.calls (writeValue r op id v s).calls := by
  rw [writeValue]
  split
  · exact .refl 1 _
  · exact .refl 1 _
  · exact requestBody_extends _ _ _ _ _ s

theorem writeCommand_extends (ref : RegRef) (id : Byte) (v : Word32) (s : State) :
    Extends 1 s.calls (writeCommand ref id v s).calls := by
  refine command_extends (fun t => ?_) s
  split
  · exact .refl 1 _
  · split
    · exact writeValue_extends _ _ _ _ t
    · exact .refl 1 _

theorem mwriteCommand_extends (cls : RegClass) (id : Byte) (es : List Entry) (s : State) :
    Extends 1 s.calls (mwriteCommand cls id es s).calls := by
  refine command_extends (fun t => ?_) s
  split
  · exact .refl 1 _
  · exact requestBody_extends _ _ _ _ _ t

theorem request_extends (id : Byte) (x : InsName) (params : List Byte) (nexp : Nat) (k : Kind) (s : State) :
    Extends 1 s.calls (request id x params nexp k s).calls :=
  command_extends (fun t => requestBody_extends _ _ _ _ _ t) s

theorem collectCommand_extends (nexp : Nat) (s : State) : Extends 1 s.calls (collectCommand nexp s).calls :=
  command_extends (fun t => (beginCollect_extends nexp { t with exchange := some (.collect nexp) }).mono zero_le_one) s

theorem encodeBody_calls (id ins : Byte) (params : List Byte) (s : State) :
    (encodeBody id ins params s).calls = s.calls := by
  rw [encodeBody]
  rcases encodePacket_cases id ins params s with ⟨-, e⟩ | ⟨-, -, e⟩ | ⟨-, -, w, e, -⟩ <;> rw [e] <;> rfl

theorem setBaudBody_extends (b : Word32) (s : State) : Extends 1 s.calls (setBaudBody b s).calls := by
  rw [setBaudBody]
  split
  · exact .refl 1 _
  · exact (extends_call s.calls rfl).mono zero_le_one

/-- A command that only gives a result makes no call. -/
theorem answer_extends (r : State → Result) (s : State) :
    Extends 1 s.calls (s.command fun t => t.deliver (r t)).calls :=
  command_extends (body := fun t => t.deliver (r t)) (fun t => .refl 1 t.calls) s

theorem decodeByte_extends (b : Byte) (s : State) : Extends 1 s.calls (decodeByte b s).calls :=
  answer_extends (fun t => .instruction (t.par.opc.decodeIns b)) s

/-- A waiting command goes on with at most one `T.write_all`, which only one that waits at the discard has still to
make. -/
theorem resume_extends (s : State) : Extends (if s.seq = .reset then 1 else 0) s.calls (resume s).calls := by
  rcases resume_cases s with ⟨id, kd, nexp, k, hseq, hx⟩ | ⟨id, kd, nexp, k, hseq, hx⟩ | ⟨x, hseq, hx⟩ | hrest
  · rw [if_pos hseq, resume_of_reset hseq hx]
    exact takeDiscard_extends nexp k s
  · rw [if_neg (by simp [hseq]), resume_of_write hseq hx]
    exact takeWrite_extends nexp s
  · rw [if_neg (by simp [hseq]), resume_of_collect hseq hx]
    exact goOnReading_extends s
  · rw [hrest s rfl rfl]
    exact .refl _ _

theorem resume_extends_one (s : State) : Extends 1 s.calls (resume s).calls :=
  (resume_extends s).mono (by split <;> omega)

theorem receive_extends (bytes : List Byte) (s : State) : Extends 1 s.calls (receive bytes s).calls := by
  by_cases h : s.seq = .collect ∧ s.phase = .read
  · rw [receive_of_reading bytes h]
    exact resume_extends_one _
  · rw [receive_of_not_reading bytes h]
    exact .refl 1 _

theorem exec_extends {i : Instr} {s t : State} (e : exec i s = .next t) : Extends 1 s.calls t.calls := by
  cases i <;> cases e
  case insPing | insReadStatus | insWriteStatus | insReadConfig | insWriteConfig | insSaveConfig | insBulkComm |
    decodeIns => exact decodeByte_extends _ s
  case ping | save => exact request_extends _ _ _ _ _ s
  case readStatus | readConfig | readReg => exact readCommand_extends _ _ s
  case writeStatus1 | writeStatus2 | writeStatus4 | writeConfig1 | writeConfig2 | writeConfig4 | writeReg =>
    exact writeCommand_extends _ _ _ s
  case mwriteConfig | mwriteStatus => exact mwriteCommand_extends _ _ _ s
  case encodeRaw id ins params => exact command_extends (fun t => .of_eq (encodeBody_calls id ins params t)) s
  case response => exact receive_extends _ s
  case collect => exact collectCommand_extends _ s
  case checksum d => exact answer_extends (fun _ => .byte (Sys2Proof.checksum d)) s
  case ttime size => exact answer_extends (fun t => .micros (transferTime t.baud size)) s
  case setBaud => exact command_extends (setBaudBody_extends _) s

/-- Settles O14: the write step alone makes the call, and a command passes it once. -/
theorem atMostOneWriteAll : Obligations.AtMostOneWriteAll := by
  refine ⟨fun s t i e => exec_extends e, fun s t hq e => ?_⟩
  rw [step_of_inbox_nil hq] at e
  cases e
  obtain ⟨new, e, hn⟩ := resume_extends s
  refine ⟨new, e, hn.trans (by split <;> omega), fun hseq => ?_⟩
  rw [if_neg hseq] at hn
  exact List.eq_nil_of_length_eq_zero (Nat.le_zero.mp hn)

end Sys2Proof.Machine
end

section
/-! SUPPORT. A whole exchange: the packet goes out, one read brings a whole verifying message, and its decomposition is
the request's result; `MwriteExchange`. -/

namespace Sys2Proof.Machine

open Sys2Proof.Claims

/-! ## A whole message in the buffer -/

/-- The parts of a message that the verification looks at: `FF FF`, body and claimed checksum (42 R167). -/
theorem Memory.readBytes_message (m : Memory) {n : Nat} (h : 3 ≤ n) :
    m.readBytes 0 n = [m.read 0, m.read 1] ++ (m.readBytes 2 (n - 3) ++ [m.read (n - 1)]) := by
  obtain ⟨k, rfl⟩ := Nat.exists_eq_add_of_le h
  rw [show 3 + k - 3 = k by omega, show 3 + k - 1 = 2 + k by omega, show 3 + k = 2 + (k + 1) by omega,
    Memory.readBytes_add, Memory.readBytes_add]
  rfl

/-- A message in a buffer verifies if its claimed checksum is the computed one (40 R132). -/
theorem verifies_readBytes {m : Memory} {n : Nat} (h : 4 ≤ n) :
    Verifies (m.readBytes 0 n) ↔ m.read (n - 1) = checksum (m.readBytes 2 (n - 3)) := by
  rw [Verifies, Memory.length_readBytes, and_iff_right h, Memory.readBytes_message m (by omega),
    List.drop_left' (by rfl), List.dropLast_concat, ← List.append_assoc, List.getLast?_concat, Option.some_inj]
  rfl

theorem verify_of_verifies {s : State} {m : Nat} (hm : s.messageLength = m) (h : Verifies (s.rbuf.readBytes 0 m)) :
    verify s = { s with used := s.used + m, phase := .idle, view := some m } := by
  subst hm
  rcases verify_cases s with ⟨e, -⟩ | ⟨-, hne⟩
  · exact e
  · exact absurd ((verifies_readBytes (Nat.le_add_right 4 _)).mp h) hne

/-- A turn whose resync pass brings a whole verifying message to the front consumes it (42 R164, R167). -/
theorem turn_of_verifies {s : State} {m : Nat} (hm : (resync s).messageLength = m) (hl : m ≤ (resync s).readLen)
    (hcap : m ≤ s.par.capR) (hv : Verifies ((resync s).rbuf.readBytes 0 m)) :
    turn s = { resync s with used := m, phase := .idle, view := some m } := by
  have h4 : 4 ≤ m := hm ▸ Nat.le_add_right 4 _
  rw [turn_eq, if_neg (by omega), if_neg (by omega), if_pos (by omega)]
  refine (verify_of_verifies (s := { resync s with phase := .verify }) hm hv).trans ?_
  simp only [resync_used, Nat.zero_add]

/-- A resync pass over a tail without garbage moves it to the front of `RBUF` (42 R163). -/
theorem resync_of_no_garbage {s : State} (h : garbage s.tail = 0) :
    resync s =
      { s with
        rbuf := s.rbuf.writeBytes 0 s.tail
        readLen := s.readLen - s.used
        used := 0
        phase := .check } := by
  simp only [resync, h, Nat.add_zero]
  rfl

theorem garbage_of_front {l : List Byte} (h : l.take 2 = [Config.hdr, Config.hdr]) : garbage l = 0 := by
  match l, h with
  | b0 :: b1 :: bs, h =>
    obtain ⟨rfl, rfl⟩ : b0 = Config.hdr ∧ b1 = Config.hdr := by simpa using h
    exact if_pos ⟨rfl, rfl⟩

/-- A packet that begins with `FF FF`, of the length that its length byte says, and with its checksum (30 R92; 40 R132). -/
structure WholeMessage (packet : List Byte) : Prop where
  front : packet.take 2 = [Config.hdr, Config.hdr]
  length : packet.length = 4 + (packet.getD 3 0).toNat
  verifies : Verifies packet

theorem wholeMessage_responsePacket {id : Byte} {body : List Byte} (hlen : body.length < 256)
    (hv : Verifies (responsePacket id body)) : WholeMessage (responsePacket id body) := by
  refine ⟨rfl, ?_, hv⟩
  rw [length_responsePacket, show (responsePacket id body).getD 3 0 = BitVec.ofNat 8 body.length from rfl,
    BitVec.toNat_ofNat]
  omega

/-- A turn with a whole message at the front of the unconsumed bytes consumes it, without a read, and it comes into
view; the bytes after it are kept (42 R172, R173). -/
theorem turn_of_message {s : State} {packet rest : List Byte} (hwf : s.rbuf.wf = true) (hp : WholeMessage packet)
    (htail : s.tail = packet ++ rest) (hcap : packet.length ≤ s.par.capR) :
    turn s =
      { s with
        rbuf := s.rbuf.writeBytes 0 (packet ++ rest)
        readLen := packet.length + rest.length
        used := packet.length
        phase := .idle
        view := some packet.length } := by
  have h4 : 4 ≤ packet.length := hp.verifies.1
  have hrl : s.readLen - s.used = packet.length + rest.length := by
    rw [← length_tail, htail, List.length_append]
  have hfront : garbage s.tail = 0 := by
    rw [htail]
    exact garbage_of_front (by rw [List.take_append_of_le_length (by omega), hp.front])
  have hres := resync_of_no_garbage hfront
  rw [htail, hrl] at hres
  have hread : ∀ i < packet.length, (resync s).rbuf.read i = packet.getD i 0 := fun i hi => by
    rw [hres, Memory.read_writeBytes _ _ _ hwf, if_pos ⟨i.zero_le, by simp; omega⟩, Nat.sub_zero,
      List.getD_append _ _ _ _ hi]
  have hm : (resync s).messageLength = packet.length := by
    rw [State.messageLength, hread 3 (by omega), ← hp.length]
  have hbytes : (resync s).rbuf.readBytes 0 packet.length = packet :=
    Memory.readBytes_eq fun i hi => by rw [Nat.zero_add, hread i hi]
  rw [turn_of_verifies hm (by rw [hres]; exact Nat.le_add_right _ _) hcap (by rw [hbytes]; exact hp.verifies), hres]

/-- With nothing buffered, a turn issues a read of the whole of `RBUF` (42 R164, R166). -/
theorem turn_of_no_tail {s : State} (h : s.readLen = s.used) :
    turn s =
      { s with
        readLen := 0
        used := 0
        phase := .read
        calls := s.calls ++ [.read 0 s.par.capR s.dl] } := by
  have htail : s.tail = [] := List.eq_nil_of_length_eq_zero (by rw [length_tail]; omega)
  have hres := resync_of_no_garbage (s := s) (by rw [htail]; rfl)
  rw [htail, h, Nat.sub_self] at hres
  rw [turn_eq, hres]
  rfl

/-! ## The decomposition -/

theorem Memory.dropLast_readBytes (m : Memory) (a n : Nat) : (m.readBytes a (n + 1)).dropLast = m.readBytes a n := by
  rw [Memory.readBytes_add]
  exact List.dropLast_concat

/-- The data of a response is what a request of its kind makes of it (44 R238, R242, R243). -/
theorem responseData_cases (k : Kind) (id : Byte) (warning : Option Byte) (data : List Byte) (skipped : Nat) :
    (∃ f, responseData k data = .error f ∧ dataResult k id warning data skipped = .failed f skipped) ∨
    (∃ d, responseData k data = .ok d ∧
      dataResult k id warning data skipped = .response { motorId := id, warning := warning, data := d } skipped) := by
  cases k with
  | ping => exact .inr ⟨_, rfl, rfl⟩
  | ack => exact .inr ⟨_, rfl, rfl⟩
  | read r =>
    by_cases hlen : data.length = r.width
    · refine .inr ⟨_, ?_, if_pos hlen⟩
      rw [responseData, decodeValue, if_neg (not_not_intro hlen)]
      cases r.kind <;> rfl
    · refine .inl ⟨_, ?_, if_neg hlen⟩
      rw [responseData, decodeValue, if_pos hlen]

/-- The flags fail the response, or leave it with the warning that the mask picks (44 R240, R241). -/
theorem classify_cases (p : Params) (f : Byte) :
    (f &&& p.errorMask ≠ 0 ∧ classify p f = .error (.motorError f)) ∨
    (f &&& p.errorMask = 0 ∧ ∃ warning, classify p f = .ok warning ∧
      (if f &&& warningMask p ≠ 0 then some (f &&& warningMask p) else none) = warning) := by
  by_cases he : f &&& p.errorMask = 0
  · refine .inr ⟨he, _, ?_, rfl⟩
    rw [classify, if_neg (not_not_intro he)]
    split <;> rfl
  · exact .inl ⟨he, if_pos he⟩

theorem replyResult_of_short (p : Params) (id : Byte) (k : Kind) {body : List Byte} (skipped : Nat)
    (h : body.length < 2) :
    replyResult p id k id body skipped = .failed (.invalidMessage (.shortPacket body.length)) skipped := by
  match body, h with
  | [], _ | [_], _ => exact if_neg (not_not_intro rfl)

theorem replyResult_of_flags (p : Params) (id : Byte) (k : Kind) (f d : Byte) (rest : List Byte) (skipped : Nat) :
    replyResult p id k id (f :: d :: rest) skipped =
      if f &&& p.errorMask ≠ 0 then .failed (.motorError f) skipped
      else dataResult k id (if f &&& warningMask p ≠ 0 then some (f &&& warningMask p) else none) (d :: rest).dropLast
        skipped :=
  if_neg (not_not_intro rfl)

/-- The decomposition of the message in the buffer gives the result of its packet (44 R238 to R243). -/
theorem decompose_cases {s : State} {m : Nat} (hm : m = s.messageLength) (want : Byte) (k : Kind) (skipped : Nat) :
    (∃ f, decompose m want k s = .error f ∧
      replyResult s.par want k (s.rbuf.read 2) (s.rbuf.readBytes 4 (m - 4)) skipped = .failed f skipped) ∨
    (∃ r, decompose m want k s = .ok r ∧
      replyResult s.par want k (s.rbuf.read 2) (s.rbuf.readBytes 4 (m - 4)) skipped = .response r skipped) := by
  by_cases hid : s.rbuf.read 2 = want
  swap
  · exact .inl ⟨_, if_pos hid, if_pos hid⟩
  subst hid
  have hlen : m - 4 = (s.rbuf.read 3).toNat := by rw [hm, State.messageLength, Nat.add_sub_cancel_left]
  rw [decompose, if_neg (not_not_intro rfl)]
  by_cases hshort : (s.rbuf.read 3).toNat < 2
  · refine .inl ⟨_, if_pos hshort, ?_⟩
    rw [replyResult_of_short _ _ _ _ (by simpa [hlen] using hshort), Memory.length_readBytes, hlen]
  obtain ⟨n, hn⟩ : ∃ n, m = n + 6 := ⟨m - 6, by omega⟩
  have hbody : s.rbuf.readBytes 4 (m - 4) = s.rbuf.read 4 :: s.rbuf.read 5 :: s.rbuf.readBytes 6 n := by rw [hn]; rfl
  have hdata : (s.rbuf.read 5 :: s.rbuf.readBytes 6 n).dropLast = s.rbuf.readBytes 5 (m - 6) := by
    rw [hn]; exact s.rbuf.dropLast_readBytes 5 n
  rw [if_neg hshort, hbody, replyResult_of_flags, hdata]
  rcases classify_cases s.par (s.rbuf.read 4) with ⟨he, hc⟩ | ⟨he, warning, hc, hw⟩
  · exact .inl ⟨_, by rw [hc], if_pos he⟩
  rw [hc, if_neg (not_not_intro he), hw]
  rcases responseData_cases k (s.rbuf.read 2) warning (s.rbuf.readBytes 5 (m - 6)) skipped with
    ⟨f, hd, hr⟩ | ⟨d, hd, hr⟩
  · exact .inl ⟨f, by simp only [hd], hr⟩
  · exact .inr ⟨_, by simp only [hd], hr⟩

/-- A request's result is that of the packet it collected. -/
theorem finishRequest_eq {s : State} {m : Nat} (hm : m = s.messageLength) (want : Byte) (k : Kind) :
    finishRequest m want k s =
      s.deliver (replyResult s.par want k (s.rbuf.read 2) (s.rbuf.readBytes 4 (m - 4)) s.skipped) := by
  rw [finishRequest]
  rcases decompose_cases (s := { s with seq := .decompose }) hm want k s.skipped with ⟨f, hd, hr⟩ | ⟨r, hd, hr⟩
  · rw [hd, hr]; rfl
  · rw [hd, hr]

/-! ## The exchange -/

theorem afterCollect_of_request {s : State} {m : Nat} {id : Byte} {k : Kind} {nexp n : Nat} (hseq : s.seq = .collect)
    (hp : s.phase = .idle) (hv : s.view = some m) (hx : s.exchange = some (.request id k nexp n)) :
    afterCollect s = finishRequest m id k s := by
  rw [afterCollect, if_pos ⟨hseq, hp⟩, hv, hx]

theorem goOnReading_of_reads {s : State} {as : List ReadAnswer} (h : s.reads = as) :
    goOnReading s = afterCollect (awaitReads as s) := by rw [goOnReading, h]

/-- A wait for a read with nothing buffered or pending, which a whole message answers: it is consumed and comes into
view. -/
theorem awaitReads_of_message {s : State} {reply : List Byte} {limit : Nat} (rs : List ReadAnswer)
    (hphase : s.phase = .read) (hl : s.readLen = 0) (hu : s.used = 0) (hp : s.pending = []) (hwf : s.rbuf.wf = true)
    (hlimit : reply.length ≤ limit) (hcap : reply.length ≤ s.par.capR) (hm : WholeMessage reply) :
    awaitReads (.ok reply limit :: rs) s =
      { s with
        rbuf := (s.rbuf.writeBytes 0 reply).writeBytes 0 reply
        readLen := reply.length
        used := reply.length
        phase := .idle
        view := some reply.length
        pending := []
        reads := rs } := by
  have htake : takeRead (.ok reply limit) { s with reads := rs } =
      { s with
        reads := rs
        rbuf := s.rbuf.writeBytes 0 reply
        readLen := reply.length
        phase := .resync
        pending := [] } := by
    have h := takeRead_of_fits (s := { s with reads := rs }) (arrived := reply) (bytes := reply) (limit := limit)
      (by simp only [hp, List.nil_append, List.take_of_length_le hlimit]) (by rw [State.room, hl]; exact hcap)
    simpa only [hp, hl, List.nil_append, List.drop_of_length_le hlimit, Nat.zero_add] using h
  rw [awaitReads_cons_of_resync hphase (by rw [htake]), htake, turn_of_message (rest := []) _ hm _ _,
    awaitReads_of_phase_ne_read (by simp), List.append_nil]
  · rfl
  · exact Memory.wf_writeBytes _ _ hwf
  · simp only [State.tail, hu, Nat.sub_zero, List.append_nil]
    exact Memory.readBytes_writeBytes 0 reply hwf
  · exact hcap

/-- A collect with nothing buffered or pending, whose first read brings a whole message: it consumes the message, and
what follows is the end of its command. -/
theorem beginCollect_of_message (nexp : Nat) {s : State} {reply : List Byte} {limit : Nat} {rs : List ReadAnswer}
    (hl : s.readLen = 0) (hu : s.used = 0) (hp : s.pending = []) (hwf : s.rbuf.wf = true)
    (hr : s.reads = .ok reply limit :: rs) (hlimit : reply.length ≤ limit) (hcap : reply.length ≤ s.par.capR)
    (hm : WholeMessage reply) :
    beginCollect nexp s = afterCollect
      { s with
        seq := .collect
        rbuf := (s.rbuf.writeBytes 0 reply).writeBytes 0 reply
        readLen := reply.length
        used := reply.length
        skipped := 0
        dl := Config.makeDeadline (deadlineDuration s.baud nexp) s.drawn
        drawn := s.drawn + 1
        phase := .idle
        view := some reply.length
        pending := []
        reads := rs
        calls := s.calls ++ [.makeDeadline (deadlineDuration s.baud nexp)] ++
          [.read 0 s.par.capR (Config.makeDeadline (deadlineDuration s.baud nexp) s.drawn)] } := by
  rw [beginCollect, goOnReading_of_reads (as := .ok reply limit :: rs) (by rw [turn_reads]; exact hr),
    turn_of_no_tail (s := collectStart nexp { s with seq := .collect }) (hl.trans hu.symm),
    awaitReads_of_message rs (by rfl) (by rfl) (by rfl) (by exact hp) (by exact hwf) hlimit (by exact hcap) hm]
  rfl

/-- The bytes of `RBUF` after a message was stored at its front, and moved there by a resync pass. -/
theorem Memory.read_writeBytes_twice {m : Memory} (bs : List Byte) (h : m.wf = true) (a : Nat) :
    ((m.writeBytes 0 bs).writeBytes 0 bs).read a = if a < bs.length then bs.getD a 0 else m.read a := by
  rw [Memory.read_writeBytes _ _ _ (Memory.wf_writeBytes _ _ h), Memory.read_writeBytes _ _ _ h]
  simp only [Nat.zero_le, true_and, Nat.zero_add, Nat.sub_zero]
  split <;> rfl

/-- The result of a request whose collect took this packet. -/
theorem finishRequest_of_response {s : State} {id' : Byte} {body : List Byte} (hlen : body.length < 256)
    (hread : ∀ a < body.length + 4, s.rbuf.read a = (responsePacket id' body).getD a 0) (want : Byte) (k : Kind) :
    finishRequest (responsePacket id' body).length want k s =
      s.deliver (replyResult s.par want k id' body s.skipped) := by
  have h2 : s.rbuf.read 2 = id' := hread 2 (by omega)
  have h3 : s.rbuf.read 3 = BitVec.ofNat 8 body.length := hread 3 (by omega)
  have hbody : s.rbuf.readBytes 4 body.length = body := Memory.readBytes_eq fun i hi => by
    rw [hread (4 + i) (by omega), Nat.add_comm]
    rfl
  have hm : body.length + 4 = s.messageLength := by
    rw [State.messageLength, h3, BitVec.toNat_ofNat]
    omega
  rw [length_responsePacket, finishRequest_eq hm, h2, Nat.add_sub_cancel, hbody]

theorem packetOf_eq (id ins : Byte) (params : List Byte) : packetOf id ins params = requestPacket id ins params := rfl

/-- A request from its pre-write reset, over a transport that answers the discard and the write with `Ok`, and the
first read with a whole message: the message is decomposed (44 R235 to R238). -/
theorem prewriteReset_of_message {s : State} {reply : List Byte} {limit : Nat} {ds : List DiscardAnswer}
    {ws : List WriteAnswer} {rs : List ReadAnswer} {id : Byte} {k : Kind} {nexp len : Nat}
    (hx : s.exchange = some (.request id k nexp len)) (hwf : s.rbuf.wf = true) (hd : s.discards = .ok :: ds)
    (hw : s.writes = .ok :: ws) (hr : s.reads = .ok reply limit :: rs) (hlimit : reply.length ≤ limit)
    (hcap : reply.length ≤ s.par.capR) (hm : WholeMessage reply) :
    prewriteReset nexp len s = finishRequest reply.length id k
      { s with
        seq := .collect
        rbuf := (s.rbuf.writeBytes 0 reply).writeBytes 0 reply
        readLen := reply.length
        used := reply.length
        skipped := 0
        dl := Config.makeDeadline (deadlineDuration s.baud nexp) s.drawn
        drawn := s.drawn + 1
        phase := .idle
        view := some reply.length
        pending := []
        discards := ds
        writes := ws
        reads := rs
        calls := s.calls ++ [.discardInput, .writeAll (s.wbuf.readBytes 0 len),
          .makeDeadline (deadlineDuration s.baud nexp),
          .read 0 s.par.capR (Config.makeDeadline (deadlineDuration s.baud nexp) s.drawn)] } := by
  rw [prewriteReset, takeDiscard_ok (by exact hd), beginWrite, takeWrite_ok (by exact hw),
    beginCollect_of_message nexp (by rfl) (by rfl) (by rfl) (by exact hwf) (by exact hr) hlimit (by exact hcap) hm,
    afterCollect_of_request (by rfl) (by rfl) (by rfl) (by exact hx)]
  simp only [State.callTransport, List.append_assoc, List.cons_append, List.nil_append]

/-- A request over a transport that answers the discard and the write with `Ok`, and the first read with a whole
message (44 R232 to R243). -/
theorem requestBody_exchange {s : State} {body : List Byte} {limit : Nat} {ds : List DiscardAnswer}
    {ws : List WriteAnswer} {rs : List ReadAnswer} {id' : Byte} (id ins : Byte) {params : List Byte} (nexp : Nat)
    (k : Kind) (h : Ready s (responsePacket id' body) limit ds ws rs) (hcapW : params.length + 6 ≤ s.par.capW)
    (hparams : params.length ≤ 253) (hbody : body.length < 256) (hv : Verifies (responsePacket id' body)) :
    ExchangeEnds s (requestBody id ins params nexp k { s with view := none }) (packetOf id ins params) nexp
      (responsePacket id' body) (replyResult s.par id k id' body 0) ds ws rs := by
  obtain ⟨hseq, hww, hrw, hd, hw, hr, hlimit, hcapR⟩ := h
  obtain ⟨w, e, -, hwread⟩ := encodePacket_of_fits (s := { s with view := none }) id ins hww hcapW hparams
  have hsent : w.readBytes 0 (params.length + 6) = packetOf id ins params := readBytes_encoded hwread
  have hrread := Memory.read_writeBytes_twice (responsePacket id' body) hrw
  rw [requestBody_of_ok e, prewriteReset_of_message (by rfl) (by exact hrw) (by exact hd) (by exact hw) (by exact hr)
    hlimit (by exact hcapR) (wholeMessage_responsePacket hbody hv),
    finishRequest_of_response hbody fun a ha => (hrread a).trans (if_pos (by rwa [length_responsePacket]))]
  refine ⟨?_, fun a => ?_, hrread⟩
  · simp only [State.deliver, State.endCommand, hseq, hsent]
  · rw [packetOf_eq, length_requestPacket]
    exact hwread a

/-- An instruction that makes a request runs its whole exchange. -/
theorem exchanges_of_makesRequest {s : State} {i : Instr} {id ins : Byte} {params : List Byte} {nexp : Nat} {k : Kind}
    {id' : Byte} {body : List Byte} {limit : Nat} {ds : List DiscardAnswer} {ws : List WriteAnswer}
    {rs : List ReadAnswer} (hi : MakesRequest s.par i id ins params nexp k)
    (h : Ready s (responsePacket id' body) limit ds ws rs) (hcapW : params.length + 6 ≤ s.par.capW)
    (hparams : params.length ≤ 253) (hbody : body.length < 256) (hv : Verifies (responsePacket id' body)) :
    Exchanges i s (packetOf id ins params) nexp (responsePacket id' body) (replyResult s.par id k id' body 0) ds ws rs :=
  ⟨_, hi s rfl h.1, requestBody_exchange id ins nexp k h hcapW hparams hbody hv⟩

theorem makesRequest_of_mwrite {p : Params} {i : Instr} {cls : RegClass} {es : List Entry} {id : Byte}
    (hi : ∀ s, exec i s = .next (mwriteCommand cls id es s)) (h : ∀ e ∈ es, e.val.length = 4) :
    MakesRequest p i id (p.opc.byteOf cls.writeOp) (es.flatMap fun e => e.addr :: e.val) 0 .ack := by
  rintro s rfl hseq
  rw [hi, mwriteCommand_of_entries id hseq ⟨h, rfl⟩]
  rfl

/-- Settles O48: both rows are requests of the entries' packet. -/
theorem mwriteExchange : Obligations.MwriteExchange := by
  intro s id id' es body limit ds ws rs h hes hcapW hcount hbody hv
  have hlen : (es.flatMap fun e => e.addr :: e.val).length = 5 * es.length := by
    rw [← entriesBytes_eq_flatMap]
    exact Laws.PacketShape.entriesBytes_length es (by simpa using hes)
  have ends (i : Instr) (cls : RegClass) (hi : ∀ t, exec i t = .next (mwriteCommand cls id es t)) :=
    exchanges_of_makesRequest (makesRequest_of_mwrite hi hes) h (by omega) (by omega) hbody hv
  exact ⟨ends _ .config fun _ => rfl, ends _ .status fun _ => rfl⟩

end Sys2Proof.Machine
end

section
/-! SUPPORT. Each command word decodes to the instruction it was encoded from: instruction bytes, packets, operands;
`DecodeUndoesEncode`, `KnownWordsDecode` and `InstructionByteRowsAreNamed`. -/

namespace Sys2Proof

/-! ## Instruction bytes -/

/-- Distinct values in `OPC` tell the names apart (00 R9). -/
theorem Opc.byteOf_inj {o : Opc} (h : o.distinct) {x y : InsName} : o.byteOf x = o.byteOf y ↔ x = y := by
  refine ⟨?_, congrArg o.byteOf⟩
  exact List.inj_on_of_nodup_map (f := o.byteOf)
    (l := [.ping, .readStatus, .writeStatus, .readConfig, .writeConfig, .saveConfig, .bulkComm]) h
    (by cases x <;> simp) (by cases y <;> simp)

theorem Opc.decodeIns_eq (o : Opc) (b : Byte) :
    o.decodeIns b =
      if b = o.byteOf .ping then .known .ping
      else if b = o.byteOf .readStatus then .known .readStatus
      else if b = o.byteOf .writeStatus then .known .writeStatus
      else if b = o.byteOf .readConfig then .known .readConfig
      else if b = o.byteOf .writeConfig then .known .writeConfig
      else if b = o.byteOf .saveConfig then .known .saveConfig
      else if b = o.byteOf .bulkComm then .known .bulkComm
      else .unknown b := rfl

/-- The instruction decoder names the byte of a name (43 R210, R211). -/
theorem Opc.decodeIns_byteOf {o : Opc} (h : o.distinct) (x : InsName) : o.decodeIns (o.byteOf x) = .known x := by
  rw [Opc.decodeIns_eq]
  simp only [Opc.byteOf_inj h]
  cases x <;> rfl

theorem decodeInsByte_byteOf {p : Params} (h : p.opc.distinct) (x : InsName) :
    decodeInsByte p [p.opc.byteOf x] = .ok x.toInstr := by
  rw [decodeInsByte, Opc.decodeIns_byteOf h]

/-! ## Packets -/

theorem toNat_lenByte {n : Nat} (h : n ≤ 253) : (lenByte n).toNat = n + 2 := by
  rw [lenByte, BitVec.toNat_ofNat]
  omega

theorem lenOk_lenByte {n : Nat} (h : n ≤ 253) : lenOk (lenByte n) n = true := by
  simp [lenOk, toNat_lenByte h]

/-- Past its header, the word of a request row is read by its length byte, its instruction byte and its parameters; the
checksum at its end is not looked at (30 R98; log 14). -/
theorem decode_packetWord (p : Params) {f : PacketForm} (hf : f ≠ .response) (id ins : Byte) (params : List Byte) :
    decode p (packetWord f id ins params) =
      decodeRequest p f id (lenByte params.length) ins
        (params ++ [checksum ([id, lenByte params.length, ins] ++ params)]) := by
  cases f with
  | response => exact absurd rfl hf
  | ping | read | write | mwrite | save | encode => rfl

theorem decode_pingWord (p : Params) (id : Byte) :
    decode p (packetWord .ping id (p.opc.byteOf .ping) []) = .ok (.ping id) := by
  rw [decode_packetWord p (by decide)]
  simp [decodeRequest, decodeBare, Opc.byteOf, lenByte]

theorem decode_saveWord (p : Params) (id : Byte) :
    decode p (packetWord .save id (p.opc.byteOf .saveConfig) []) = .ok (.save id) := by
  rw [decode_packetWord p (by decide)]
  simp [decodeRequest, decodeBare, Opc.byteOf, lenByte]

theorem decode_readWord (p : Params) (id ins a : Byte) :
    decode p (packetWord .read id ins [a]) =
      if ins = p.opc.byteOf .readStatus then .ok (.readStatus id a)
      else if ins = p.opc.byteOf .readConfig then .ok (.readConfig id a)
      else .error .otherInstruction := by
  rw [decode_packetWord p (by decide)]
  rfl

/-- The word of a `WRITE` is read as the row of its class (30 R120). -/
theorem decode_writeWord {p : Params} (h : p.opc.distinct) (cls : RegClass) (id a : Byte) {v : List Byte}
    (hv : v.length ≤ 252) :
    decode p (packetWord .write id (p.opc.byteOf cls.writeOp) (a :: v)) = writeRow p cls id a v := by
  have hlen : (lenByte (a :: v).length).toNat = v.length + 3 := toNat_lenByte (Nat.succ_le_succ hv)
  have hne : p.opc.byteOf .writeConfig ≠ p.opc.byteOf .writeStatus := mt (Opc.byteOf_inj h).mp (by decide)
  rw [decode_packetWord p (by decide), decodeRequest, if_neg (by simp), List.dropLast_concat]
  simp only [decodeWrite]
  rw [if_neg (not_not_intro hlen)]
  cases cls with
  | status => exact if_pos rfl
  | config => exact (if_neg hne).trans (if_pos rfl)

/-- A value of a row's width is read back from its bytes. -/
theorem ofNat_fromLe_leBytes {w n : Nat} (hw : w = 8 * n) (v : BitVec w) :
    BitVec.ofNat w (fromLe (leBytes n v.toNat)) = v := by
  have hlt : v.toNat < 256 ^ n := by
    rw [show 256 = 2 ^ 8 from rfl, ← pow_mul, ← hw]
    exact v.isLt
  rw [fromLe_leBytes hlt, BitVec.ofNat_toNat, BitVec.setWidth_eq]

theorem splitEntries_entriesBytes {es : List Entry} (h : ∀ e ∈ es, e.val.length = 4) :
    splitEntries (entriesBytes es) = some es := by
  induction es with
  | nil => rfl
  | cons e es ih =>
    obtain ⟨he, hes⟩ := List.forall_mem_cons.mp h
    obtain ⟨a, v⟩ := e
    match v, he with
    | [b0, b1, b2, b3], _ => simp [entriesBytes, entryBytes, splitEntries, ih hes]

theorem entriesFitPacket_iff {es : List Entry} :
    entriesFitPacket es = true ↔ (∀ e ∈ es, e.val.length = 4) ∧ es.length ≤ 50 := by
  simp [entriesFitPacket]

theorem decode_mwriteWord (p : Params) (id ins : Byte) {es : List Entry} (h : entriesFitPacket es = true) :
    decode p (packetWord .mwrite id ins (entriesBytes es)) =
      if ins = p.opc.byteOf .writeConfig then .ok (.mwriteConfig id es)
      else if ins = p.opc.byteOf .writeStatus then .ok (.mwriteStatus id es)
      else .error .otherInstruction := by
  obtain ⟨hval, hcount⟩ := entriesFitPacket_iff.mp h
  have hlen : (entriesBytes es).length = 5 * es.length := Laws.PacketShape.entriesBytes_length es (by simpa using hval)
  rw [decode_packetWord p (by decide), decodeRequest, if_neg (by simp), List.dropLast_concat]
  simp only [decodeMwrite, lenOk_lenByte (show (entriesBytes es).length ≤ 253 by omega), splitEntries_entriesBytes hval]
  rfl

theorem decode_encodeWord (p : Params) (id ins : Byte) {params : List Byte} (h : params.length ≤ 253) :
    decode p (packetWord .encode id ins params) = .ok (.encodeRaw id ins params) := by
  rw [decode_packetWord p (by decide)]
  simp [decodeRequest, lenOk_lenByte h]

theorem decode_responseWord (p : Params) (id : Byte) {body : List Byte} (h : body.length < 256) :
    decode p { form := .packet .response, bytes := responsePacket id body } = .ok (.response id body) := by
  have hlen : (BitVec.ofNat 8 body.length).toNat = body.length := by
    rw [BitVec.toNat_ofNat]
    omega
  exact if_pos hlen

/-! ## Operands -/

/-- The entries of an operand word are read back, each by its count (log 14). -/
theorem splitCounted_countedEntries {es : List Entry} {fuel : Nat} (h : ∀ e ∈ es, e.val.length < 256)
    (hfuel : (countedEntries es).length ≤ fuel) : splitCounted fuel (countedEntries es) = some es := by
  induction es generalizing fuel with
  | nil => cases fuel <;> rfl
  | cons e es ih =>
    obtain ⟨he, hes⟩ := List.forall_mem_cons.mp h
    have hcount : (BitVec.ofNat 8 e.val.length).toNat = e.val.length := by
      rw [BitVec.toNat_ofNat]
      omega
    simp only [countedEntries, countedEntry, List.cons_append, List.length_cons, List.length_append] at hfuel ⊢
    obtain ⟨fuel, rfl⟩ := Nat.exists_eq_add_of_le' (show 1 ≤ fuel by omega)
    have hrest := ih hes (show (countedEntries es).length ≤ fuel by omega)
    rw [splitCounted, hcount, if_neg (by simp), List.drop_left, List.take_left, hrest]
    rfl

/-! ## Every instruction -/

theorem entriesOk_iff {es : List Entry} : entriesOk es = true ↔ ∀ e ∈ es, e.val.length < 256 := by
  simp [entriesOk]

/-- An `MWRITE`'s word is its packet where its entries fit one, and its operands otherwise (log 14). -/
theorem decode_encode_mwrite {p : Params} (h : p.opc.distinct) (id : Byte) {es : List Entry}
    (hes : entriesOk es = true) :
    decode p (encode p (.mwriteConfig id es)) = .ok (.mwriteConfig id es) ∧
    decode p (encode p (.mwriteStatus id es)) = .ok (.mwriteStatus id es) := by
  have hne : p.opc.byteOf .writeStatus ≠ p.opc.byteOf .writeConfig := mt (Opc.byteOf_inj h).mp (by decide)
  by_cases hfit : entriesFitPacket es = true
  · rw [encode, encode, if_pos hfit, if_pos hfit, decode_mwriteWord p id _ hfit, decode_mwriteWord p id _ hfit]
    exact ⟨if_pos rfl, (if_neg hne).trans (if_pos rfl)⟩
  · have hsplit := splitCounted_countedEntries (entriesOk_iff.mp hes) le_rfl
    simp only [encode, if_neg hfit, decode, decodeOperands, hsplit, and_self]

/-- Settles O1, by the layout of each instruction's word. -/
theorem decodeUndoesEncode : Obligations.DecodeUndoesEncode := by
  intro p i hd hw
  have hne : p.opc.byteOf .readConfig ≠ p.opc.byteOf .readStatus := mt (Opc.byteOf_inj hd).mp (by decide)
  cases i
  case insPing => exact decodeInsByte_byteOf hd .ping
  case insReadStatus => exact decodeInsByte_byteOf hd .readStatus
  case insWriteStatus => exact decodeInsByte_byteOf hd .writeStatus
  case insReadConfig => exact decodeInsByte_byteOf hd .readConfig
  case insWriteConfig => exact decodeInsByte_byteOf hd .writeConfig
  case insSaveConfig => exact decodeInsByte_byteOf hd .saveConfig
  case insBulkComm => exact decodeInsByte_byteOf hd .bulkComm
  case ping id => exact decode_pingWord p id
  case save id => exact decode_saveWord p id
  case readStatus id a => exact (decode_readWord p id _ a).trans (if_pos rfl)
  case readConfig id a => exact (decode_readWord p id _ a).trans ((if_neg hne).trans (if_pos rfl))
  case writeStatus1 id a v | writeStatus2 id a v | writeStatus4 id a v =>
    simp only [Instr.wellFormed] at hw
    refine (decode_writeWord hd .status id a (by simp)).trans ?_
    simp [writeRow, hw, ofNat_fromLe_leBytes]
  case writeConfig1 id a v | writeConfig2 id a v | writeConfig4 id a v =>
    simp only [Instr.wellFormed] at hw
    refine (decode_writeWord hd .config id a (by simp)).trans ?_
    simp [writeRow, hw, ofNat_fromLe_leBytes]
  case mwriteConfig id es => exact (decode_encode_mwrite hd id hw).1
  case mwriteStatus id es => exact (decode_encode_mwrite hd id hw).2
  case encodeRaw id ins params =>
    rw [encode]
    split
    · next h => exact decode_encodeWord p id ins h
    · rfl
  case response id body => exact decode_responseWord p id (by simpa [Instr.wellFormed, responseOk] using hw)
  case collect n => exact congrArg (Except.ok ∘ Instr.collect) (fromLe_natBytes n)
  case ttime n => exact congrArg (Except.ok ∘ Instr.ttime) (fromLe_natBytes n)
  case setBaud b => exact congrArg (Except.ok ∘ Instr.setBaud) (ofNat_fromLe_leBytes (n := 4) rfl b)
  case writeReg r id v => exact congrArg (Except.ok ∘ Instr.writeReg r id) (ofNat_fromLe_leBytes (n := 4) rfl v)
  case checksum | decodeIns | readReg => rfl

/-- Settles O3: each word is the one its instruction is encoded to, with its checksum. -/
theorem knownWordsDecode : Obligations.KnownWordsDecode := by
  have ofEncode {i : Instr} {w : CommandWord} (hi : i.wellFormed Params.atReset = true)
      (hw : encode Params.atReset i = w) : decode Params.atReset w = .ok i :=
    hw ▸ decodeUndoesEncode Params.atReset i (by decide) hi
  exact ⟨ofEncode rfl (by decide), ofEncode rfl (by decide), ofEncode rfl (by decide), ofEncode rfl (by decide),
    ofEncode rfl (by decide), ofEncode rfl (by decide)⟩

end Sys2Proof

namespace Sys2Proof.Machine

open Sys2Proof.Claims

/-! ## The rows `INS.x` -/

/-- A command in an idle state that only gives a result (44 R231; 10 R40). -/
theorem deliver_of_idle {s : State} (h : s.seq = .idle) (r : Result) :
    { s with view := none }.deliver r = answered s r := by
  simp only [State.deliver, State.endCommand, answered, h]

/-- The instruction decoder's run on the byte of a name gives the name (43 R210, R211). -/
theorem decodeName_of_idle {s : State} (h : s.seq = .idle) (hd : s.par.opc.distinct) (x : InsName) :
    decodeName x s = answered s (.instruction (.known x)) := by
  rw [decodeName, decodeByte, command_of_idle h, Opc.decodeIns_byteOf hd, deliver_of_idle h]

/-- Settles O23. -/
theorem instructionByteRowsAreNamed : Obligations.InstructionByteRowsAreNamed := by
  intro s h hd
  have row (x : InsName) :=
    congrArg (Host.Outcome.next (φ := Fault) (ρ := Refusal)) (decodeName_of_idle h hd x)
  exact ⟨row .ping, row .readStatus, row .writeStatus, row .readConfig, row .writeConfig, row .saveConfig,
    row .bulkComm⟩

end Sys2Proof.Machine
end

section
/-! SUPPORT. The request commands from their operands to the packet they send: whole exchanges, failed sends, the
pseudo-instructions, and a reply that arrives; `ReadExchange`, `WriteExchange`, `EncodeFailureMakesNoCall`,
`DiscardAndWriteFailures`, `PseudoInstructionsExpand` and `ArrivingReplyEndsExchange`. -/

namespace Sys2Proof.Machine

open Sys2Proof.Claims

/-! ## Reads and writes -/

/-- A `READ` of a register of the table is a request of its address, for its width and a flag byte (44 R245). -/
theorem makesRequest_of_lookup {p : Params} {i : Instr} {ref : RegRef} {id : Byte} {r : RegDesc}
    (hi : ∀ s, exec i s = .next (readCommand ref id s)) (hl : p.lookup ref = some r) :
    MakesRequest p i id (p.opc.byteOf r.readOp) [r.addr] (r.width + 1) (.read r) := by
  rintro s rfl hseq
  rw [hi, readCommand_of_lookup id hseq hl]
  rfl

/-- A `WRITE` of a value in range is a request of the address and the value, for an empty reply (44 R246). -/
theorem makesRequest_of_writable {p : Params} {i : Instr} {ref : RegRef} {id : Byte} {r : RegDesc} {op : InsName}
    {v : Word32} (hi : ∀ s, exec i s = .next (writeCommand ref id v s)) (hl : p.lookup ref = some r)
    (hr : Writable r op v) :
    MakesRequest p i id (p.opc.byteOf op) (r.addr :: leBytes r.width v.toNat) 0 .ack := by
  rintro s rfl hseq
  rw [hi, writeCommand_of_writable id hseq hl hr]
  rfl

/-- Settles O46: both rows and the pseudo-instruction are requests of the register's address. -/
theorem readExchange : Obligations.ReadExchange := by
  intro s id id' r body limit ds ws rs h hcapW hbody hv
  have ends {i : Instr} {ref : RegRef} (hi : ∀ t, exec i t = .next (readCommand ref id t))
      (hl : s.par.lookup ref = some r) :=
    exchanges_of_makesRequest (makesRequest_of_lookup hi hl) h hcapW (by simp) hbody hv
  exact ⟨fun _ => ends fun _ => rfl, fun _ => ends fun _ => rfl, fun _ => ends fun _ => rfl⟩

/-- Settles O47: every row and the pseudo-instruction are requests of the register's address and the value, which a
narrow row extends to 32 bits. -/
theorem writeExchange : Obligations.WriteExchange := by
  intro s id id' r op body limit ds ws rs h hcapW hbody hv ends
  have run {i : Instr} {ref : RegRef} {v : Word32} {n : Nat} (hi : ∀ t, exec i t = .next (writeCommand ref id v t))
      (hn : v.toNat = n) (hl : s.par.lookup ref = some r) (hr : Writable r op v) : ends i n := by
    have ⟨_, _, hwidth, _⟩ := hr
    subst hn
    exact exchanges_of_makesRequest (makesRequest_of_writable hi hl hr) h (by simp; omega) (by simp; omega) hbody hv
  have narrow {w : Nat} (hw : w ≤ 32) (v : BitVec w) : (v.setWidth 32).toNat = v.toNat :=
    BitVec.toNat_setWidth_of_le hw
  exact ⟨fun _ v hl _ => run (fun _ => rfl) (narrow (by decide) v) hl,
    fun _ v hl _ => run (fun _ => rfl) (narrow (by decide) v) hl, fun _ v hl _ => run (fun _ => rfl) rfl hl,
    fun _ v hl _ => run (fun _ => rfl) (narrow (by decide) v) hl,
    fun _ v hl _ => run (fun _ => rfl) (narrow (by decide) v) hl, fun _ v hl _ => run (fun _ => rfl) rfl hl,
    fun _ v hl => run (fun _ => rfl) rfl hl⟩

/-! ## Failures before the reply -/

theorem raise_of_idle {s : State} (h : s.seq = .idle) (f : Failure) :
    { s with view := none }.raise f = answered s (.failed f s.skipped) := deliver_of_idle h _

/-- The encoder checks the capacity of `WBUF` first (41 R143). -/
theorem encodePacket_of_small {s : State} (id ins : Byte) {params : List Byte} (h : s.par.capW < params.length + 6) :
    encodePacket id ins params s = .error (.bufferTooSmall (params.length + 6) s.par.capW .encode) := if_pos h

/-- The encoder checks the length byte next (41 R143). -/
theorem encodePacket_of_long {s : State} (id ins : Byte) {params : List Byte} (hcap : params.length + 6 ≤ s.par.capW)
    (h : 253 < params.length) : encodePacket id ins params s = .error (.lengthOverflow params.length) := by
  have hlen : 255 < params.length + 2 := by omega
  exact (if_neg (Nat.not_lt.mpr hcap)).trans (if_pos hlen)

/-- Settles O51: a request starts with its encode. -/
theorem encodeFailureMakesNoCall : Obligations.EncodeFailureMakesNoCall := by
  intro s i id ins params hseq hsends
  obtain ⟨nexp, k, hreq⟩ := makesRequest_of_sends hsends
  have fails {f : Failure} (he : encodePacket id ins params { s with view := none } = .error f) :
      exec i s = .next (answered s (.failed f s.skipped)) := by
    rw [hreq s rfl hseq, requestBody_of_error he, raise_of_idle hseq]
  exact ⟨fun hcap => fails (encodePacket_of_small id ins hcap),
    fun hcap hlen => fails (encodePacket_of_long id ins hcap hlen)⟩

/-- The pre-write reset drops the cursors before its discard fails (44 R235). -/
theorem prewriteReset_err {nexp k : Nat} {s : State} {e : TransportError} {left : List Byte} {ds : List DiscardAnswer}
    (h : s.discards = .err e left :: ds) :
    prewriteReset nexp k s =
      { s with
        readLen := 0
        used := 0
        pending := left
        discards := ds
        calls := s.calls ++ [Call.discardInput] }.raise (.discardFailed e) := by
  rw [prewriteReset, takeDiscard_err (by exact h)]
  rfl

/-- After a discard with `Ok` the packet goes out in one call, from an empty buffer and line (44 R235, R236). -/
theorem prewriteReset_ok {nexp k : Nat} {s : State} {ds : List DiscardAnswer} (h : s.discards = .ok :: ds) :
    prewriteReset nexp k s = takeWrite nexp
      { s with
        seq := .write
        readLen := 0
        used := 0
        pending := []
        discards := ds
        calls := s.calls ++ [.discardInput, .writeAll (s.wbuf.readBytes 0 k)] } := by
  rw [prewriteReset, takeDiscard_ok (by exact h), beginWrite]
  simp only [State.callTransport, List.append_assoc, List.cons_append, List.nil_append]

/-- Settles O52: the encode leaves the packet in `WBUF`, and the call that fails ends the request. -/
theorem discardAndWriteFailures : Obligations.DiscardAndWriteFailures := by
  intro s i id ins params e hseq hwf hsends hcap hlen
  obtain ⟨nexp, k, hreq⟩ := makesRequest_of_sends hsends
  obtain ⟨w, he, -, hread⟩ := encodePacket_of_fits (s := { s with view := none }) id ins hwf hcap hlen
  have hsent : w.readBytes 0 (params.length + 6) = packetOf id ins params := readBytes_encoded hread
  refine ⟨w, hread, fun left ds hd => ?_, fun ds ws hd hw => ?_⟩
  · rw [hreq s rfl hseq, requestBody_of_ok he, prewriteReset_err (by exact hd)]
    simp only [State.raise, State.deliver, State.endCommand, answered, hseq]
  · rw [hreq s rfl hseq, requestBody_of_ok he, prewriteReset_ok (by exact hd), takeWrite_err (by exact hw)]
    simp only [State.raise, State.deliver, State.endCommand, answered, hseq, hsent]

/-! ## The pseudo-instructions -/

/-- A command depends on its body only where the block is idle, with the view ended. -/
theorem command_congr {body body' : State → State} {s : State}
    (h : body { s with view := none } = body' { s with view := none }) : s.command body = s.command body' := by
  by_cases hseq : s.seq = .idle
  · rw [command_of_idle hseq, command_of_idle hseq, h]
  · rw [command_of_busy body hseq, command_of_busy body' hseq]

theorem readCommand_congr {ref ref' : RegRef} {r : RegDesc} (id : Byte) {s : State} (h : s.par.lookup ref = some r)
    (h' : s.par.lookup ref' = some r) : readCommand ref id s = readCommand ref' id s :=
  command_congr (by simp only [h, h'])

theorem writeCommand_congr {ref ref' : RegRef} {r : RegDesc} (id : Byte) (v : Word32) {s : State}
    (h : s.par.lookup ref = some r) (h' : s.par.lookup ref' = some r) :
    writeCommand ref id v s = writeCommand ref' id v s :=
  command_congr (by simp only [h, h'])

theorem setWidth_setWidth_of_lt {v : Word32} {n : Nat} (h : v.toNat < 2 ^ n) : (v.setWidth n).setWidth 32 = v := by
  apply BitVec.eq_of_toNat_eq
  rw [BitVec.toNat_setWidth, BitVec.toNat_setWidth, Nat.mod_eq_of_lt h, Nat.mod_eq_of_lt v.isLt]

/-- Settles O55: both references find the same descriptor, and a value in a row's range is the row's operand. -/
theorem pseudoInstructionsExpand : Obligations.PseudoInstructionsExpand := by
  intro s id name v r hname hloc
  have read := readCommand_congr id hname hloc
  have write {n : Nat} (h : v.toNat < 2 ^ n) : writeCommand (.named name) id v s =
      writeCommand (.located r.cls r.addr) id ((v.setWidth n).setWidth 32) s := by
    rw [setWidth_setWidth_of_lt h, writeCommand_congr id v hname hloc]
  have write4 := writeCommand_congr id v hname hloc
  refine ⟨fun hcls => ?_, fun hcls => ?_⟩
  all_goals
    simp only [hcls] at read write write4
    exact ⟨congrArg _ read, fun _ h => congrArg _ (write h), fun _ h => congrArg _ (write h),
      fun _ => congrArg _ write4⟩

/-! ## A reply that arrives -/

/-- A read whose bytes are already pending returns what a read with the same bytes in its answer does (20 R77). -/
theorem awaitReads_of_pending {s : State} (bytes : List Byte) (limit : Nat) (as rs : List ReadAnswer)
    (hp : s.phase = .read) :
    awaitReads (.ok [] limit :: rs) { s with pending := s.pending ++ bytes, reads := as } =
      awaitReads (.ok bytes limit :: rs) s := by
  have htake : takeRead (.ok [] limit) { s with pending := s.pending ++ bytes, reads := rs } =
      takeRead (.ok bytes limit) { s with reads := rs } := by
    simp only [takeRead, List.append_nil]
    rfl
  simp only [awaitReads, if_pos hp, htake]

/-- Bytes that reach a collect answer its read, as far as there is room for them (log 19). -/
theorem receive_of_collecting {s : State} {x : Exchange} (bytes : List Byte) (hseq : s.seq = .collect)
    (hp : s.phase = .read) (hx : s.exchange = some x) :
    receive bytes s = afterCollect (awaitReads (.ok bytes s.room :: s.reads) s) := by
  rw [receive_of_reading bytes ⟨hseq, hp⟩, resume_of_collect (by exact hseq) (by exact hx), goOnReading_of_reads rfl,
    awaitReads_of_pending bytes s.room _ s.reads hp]

/-- Settles O57: the packet answers the read in progress, and is the whole message that the collect takes. -/
theorem arrivingReplyEndsExchange : Obligations.ArrivingReplyEndsExchange := by
  intro s id id' k nexp len body hseq hp hx hwf hl hu hpend hbody hcap hv
  have hlen := length_responsePacket id' body
  have hrread := Memory.read_writeBytes_twice (responsePacket id' body) hwf
  have hroom : (responsePacket id' body).length ≤ s.room := by
    rw [State.room, hl, hlen]
    exact hcap
  have hread := awaitReads_of_message s.reads hp hl hu hpend hwf hroom (by rw [hlen]; exact hcap)
    (wholeMessage_responsePacket hbody hv)
  rw [hlen] at hrread
  have hend : receive (responsePacket id' body) s =
      { s with
        rbuf := (s.rbuf.writeBytes 0 (responsePacket id' body)).writeBytes 0 (responsePacket id' body)
        readLen := body.length + 4
        used := body.length + 4
        phase := .idle
        seq := .idle
        view := some (body.length + 4)
        exchange := none
        result := some (replyResult s.par id k id' body s.skipped) } := by
    rw [receive_of_collecting _ hseq hp hx, hread,
      afterCollect_of_request (by exact hseq) (by rfl) (by rfl) (by exact hx),
      finishRequest_of_response hbody fun a ha => (hrread a).trans (if_pos ha)]
    simp only [State.deliver, State.endCommand, hlen, hpend]
  exact ⟨_, congrArg Host.Outcome.next hend, rfl, hrread⟩

end Sys2Proof.Machine
end

section
/-! SUPPORT. A request past its write is a collect under another name: what a `COLLECT` in its place comes to, then
decomposed; `RequestIsCollectThenDecomposition`. -/

namespace Sys2Proof.Machine

open Sys2Proof.Claims

/-! ## The command in progress -/

/-- The state in which the command in progress, if there is one, is `x`. -/
def inProgressAs (x : Exchange) (s : State) : State := { s with exchange := s.exchange.map fun _ => x }

section
variable (x : Exchange) (s : State)

@[simp] theorem inProgressAs_phase : (inProgressAs x s).phase = s.phase := rfl

/-! The framer does not look at the command in progress. -/

theorem resync_inProgressAs : resync (inProgressAs x s) = inProgressAs x (resync s) := rfl

theorem check_inProgressAs : check (inProgressAs x s) = inProgressAs x (check s) := by
  simp only [check, apply_ite (inProgressAs x)]
  rfl

theorem verify_inProgressAs : verify (inProgressAs x s) = inProgressAs x (verify s) := by
  simp only [verify, apply_ite (inProgressAs x)]
  rfl

theorem turn_inProgressAs : turn (inProgressAs x s) = inProgressAs x (turn s) := by
  simp only [turn, resync_inProgressAs, check_inProgressAs, inProgressAs_phase]
  split
  · exact verify_inProgressAs x _
  · rfl
  · rfl

theorem takeRead_inProgressAs (a : ReadAnswer) : takeRead a (inProgressAs x s) = inProgressAs x (takeRead a s) := by
  cases a with
  | ok arrived limit =>
    simp only [takeRead, apply_ite (inProgressAs x)]
    rfl
  | err e timedOut => cases timedOut <;> rfl

theorem awaitReads_inProgressAs (as : List ReadAnswer) :
    awaitReads as (inProgressAs x s) = inProgressAs x (awaitReads as s) := by
  induction as generalizing s with
  | nil => rfl
  | cons a as ih =>
    have htake : takeRead a { inProgressAs x s with reads := as } =
        inProgressAs x (takeRead a { s with reads := as }) :=
      takeRead_inProgressAs x { s with reads := as } a
    by_cases hp : s.phase = .read
    · have hp' : (inProgressAs x s).phase = .read := hp
      by_cases hr : (takeRead a { s with reads := as }).phase = .resync
      · rw [awaitReads_cons_of_resync hp hr, awaitReads_cons_of_resync hp' (by rw [htake]; exact hr), htake,
          turn_inProgressAs, ih]
      · rw [awaitReads_cons_of_ended hp hr, awaitReads_cons_of_ended hp' (by rw [htake]; exact hr), htake]
    · rw [awaitReads_of_phase_ne_read hp, awaitReads_of_phase_ne_read (s := inProgressAs x s) hp]

end

/-! ## What a collect comes to -/

/-- The collect of the command `x` goes on, has taken a message, or has ended its command with a failure or a refusal
(42 R162, R170). -/
inductive CollectOutcome (x : Exchange) (t : State) : Prop where
  | runs (hseq : t.seq = .collect) (hx : t.exchange = some x) (hp : t.phase ≠ .idle)
  | took (hseq : t.seq = .collect) (hx : t.exchange = some x) (hp : t.phase = .idle)
      (hv : t.view = some t.messageLength)
  | ended (hseq : t.seq = .idle) (hx : t.exchange = none) (hp : t.phase = .idle)
      (hr : ∀ m n, t.result ≠ some (.collected m n))

theorem collectOutcome_raise (x : Exchange) (f : Failure) (t : State) : CollectOutcome x (t.raise f) :=
  .ended rfl rfl rfl fun _ _ => by simp [State.raise]

theorem collectOutcome_refuse (x : Exchange) (r : RefusalInfo) (t : State) : CollectOutcome x (t.refuse r) :=
  .ended rfl rfl rfl fun _ _ => by simp [State.refuse]

theorem collectOutcome_takeRead {x : Exchange} {t : State} (a : ReadAnswer) (hseq : t.seq = .collect)
    (hx : t.exchange = some x) : CollectOutcome x (takeRead a t) := by
  rcases takeRead_cases a t with ⟨_, _, e, -⟩ | ⟨_, _, e, -⟩ | ⟨_, e⟩ | ⟨_, e⟩ <;> rw [e]
  · exact .runs hseq hx (by simp)
  · exact collectOutcome_refuse x _ _
  · exact collectOutcome_raise x _ _
  · exact collectOutcome_raise x _ _

theorem collectOutcome_turn {x : Exchange} {t : State} (hseq : t.seq = .collect) (hx : t.exchange = some x) :
    CollectOutcome x (turn t) := by
  rcases turn_cases t with ⟨e, -⟩ | ⟨e, -⟩ | ⟨e, -⟩ <;> rw [e]
  · exact .runs hseq hx (by simp)
  · exact collectOutcome_raise x _ _
  · rcases verify_cases { resync t with phase := .verify } with ⟨e', -⟩ | ⟨e', -⟩ <;> rw [e']
    · exact .took hseq hx rfl rfl
    · exact collectOutcome_raise x _ _

theorem collectOutcome_awaitReads {x : Exchange} {t : State} (as : List ReadAnswer) (h : CollectOutcome x t) :
    CollectOutcome x (awaitReads as t) := by
  have running {t : State} (hp : t.phase ≠ .idle) (h : CollectOutcome x t) :
      t.seq = .collect ∧ t.exchange = some x := by
    cases h with
    | runs hseq hx _ => exact ⟨hseq, hx⟩
    | took _ _ hi _ => exact absurd hi hp
    | ended _ _ hi _ => exact absurd hi hp
  refine awaitReads_keeps (fun a as t hp ht => ?_) (fun t hp ht => ?_) as h
  · obtain ⟨hseq, hx⟩ := running (by simp [hp]) ht
    exact collectOutcome_takeRead a hseq hx
  · obtain ⟨hseq, hx⟩ := running (by simp [hp]) ht
    exact collectOutcome_turn hseq hx

/-! ## A request in the place of a `COLLECT` -/

theorem afterCollect_of_collect {s : State} {m nexp : Nat} (hseq : s.seq = .collect) (hp : s.phase = .idle)
    (hv : s.view = some m) (hx : s.exchange = some (.collect nexp)) :
    afterCollect s = s.deliver (.collected m s.skipped) := by
  rw [afterCollect, if_pos ⟨hseq, hp⟩, hv, hx]

theorem inPlaceOfCollect_of_ended (id : Byte) (k : Kind) (nexp len : Nat) {u : State} (hx : u.exchange = none)
    (hr : ∀ m n, u.result ≠ some (.collected m n)) : inPlaceOfCollect id k nexp len u = u := by
  rw [inPlaceOfCollect, hx]
  split
  · next h => cases h
  · next h => exact absurd h (hr _ _)
  · rfl

/-- The end of a request's collect is that of a `COLLECT`'s, decomposed (44 R238). -/
theorem afterCollect_inProgressAs {t : State} {c : Nat} (id : Byte) (k : Kind) (nexp len : Nat)
    (h : CollectOutcome (.collect c) t) :
    afterCollect (inProgressAs (.request id k nexp len) t) = inPlaceOfCollect id k nexp len (afterCollect t) := by
  cases h with
  | runs hseq hx hp =>
    rw [afterCollect_of_phase_ne_idle hp, afterCollect_of_phase_ne_idle (by exact hp), inPlaceOfCollect, hx,
      inProgressAs, hx]
    rfl
  | took hseq hx hp hv =>
    have hx' : (inProgressAs (.request id k nexp len) t).exchange = some (.request id k nexp len) := by
      rw [inProgressAs, hx]
      rfl
    rw [afterCollect_of_collect hseq hp hv hx, afterCollect_of_request (by exact hseq) (by exact hp) (by exact hv) hx',
      finishRequest_eq (by rfl)]
    rfl
  | ended hseq hx hp hr =>
    have hsame : inProgressAs (.request id k nexp len) t = t := by
      have hnone : (t.exchange.map fun _ => Exchange.request id k nexp len) = t.exchange := by rw [hx]; rfl
      rw [inProgressAs, hnone]
    have hafter : afterCollect t = t := by rw [afterCollect, if_neg (by simp [hseq])]
    rw [hsame, hafter, inPlaceOfCollect_of_ended id k nexp len hx hr]

/-- A request's collect comes to what a `COLLECT` in its place comes to, decomposed (44 R237, R238). -/
theorem beginCollect_inProgressAs {s : State} {c : Nat} (id : Byte) (k : Kind) (nexp len d : Nat)
    (hx : s.exchange = some (.collect c)) :
    beginCollect d (inProgressAs (.request id k nexp len) s) = inPlaceOfCollect id k nexp len (beginCollect d s) := by
  have hstart : collectStart d { inProgressAs (.request id k nexp len) s with seq := .collect } =
      inProgressAs (.request id k nexp len) (collectStart d { s with seq := .collect }) := rfl
  have hout := collectOutcome_turn (t := collectStart d { s with seq := .collect }) rfl hx
  rw [beginCollect, beginCollect, goOnReading, goOnReading, hstart, turn_inProgressAs,
    ← afterCollect_inProgressAs id k nexp len (collectOutcome_awaitReads _ hout), ← awaitReads_inProgressAs]
  rfl

theorem exec_collect_of_idle (nexp : Nat) {s : State} (h : s.seq = .idle) :
    exec (.collect nexp) s = .next (beginCollect nexp { s with view := none, exchange := some (.collect nexp) }) :=
  congrArg Host.Outcome.next (command_of_idle h)

/-- The request that each request command makes: its packet, how many response parameters it expects, and how it
decomposes them (44 R244 to R248; 45 R283). -/
theorem makesRequest_of_expects {p : Params} {i : Instr} {id ins : Byte} {params : List Byte} {nexp : Nat} {k : Kind}
    (hs : Sends p id ins params i) (he : Expects p nexp k i) : MakesRequest p i id ins params nexp k := by
  cases i
  case insPing | insReadStatus | insWriteStatus | insReadConfig | insWriteConfig | insSaveConfig | insBulkComm |
    encodeRaw | response | collect | checksum | ttime | setBaud | decodeIns => exact False.elim hs
  case ping | save =>
    obtain ⟨rfl, rfl, rfl⟩ := hs
    obtain ⟨rfl, rfl⟩ := he
    exact fun s hp hseq => hp ▸ congrArg _ (request_of_idle _ _ _ _ _ hseq)
  case readStatus | readConfig | readReg =>
    obtain ⟨rfl, r, hl, rfl, rfl⟩ := hs
    obtain ⟨r', hl', rfl, rfl⟩ := he
    obtain rfl : r = r' := Option.some.inj (hl.symm.trans hl')
    exact makesRequest_of_lookup (fun _ => rfl) hl
  case writeStatus1 | writeStatus2 | writeStatus4 | writeConfig1 | writeConfig2 | writeConfig4 | writeReg =>
    obtain ⟨rfl, r, op, hl, hr, rfl, rfl⟩ := hs
    obtain ⟨rfl, rfl⟩ := he
    exact makesRequest_of_writable (fun _ => rfl) hl hr
  case mwriteConfig =>
    obtain ⟨rfl, rfl, hes, rfl⟩ := hs
    obtain ⟨rfl, rfl⟩ := he
    exact makesRequest_of_mwrite (cls := .config) (fun _ => rfl) hes
  case mwriteStatus =>
    obtain ⟨rfl, rfl, hes, rfl⟩ := hs
    obtain ⟨rfl, rfl⟩ := he
    exact makesRequest_of_mwrite (cls := .status) (fun _ => rfl) hes

/-- Settles O50: past its write a request begins a collect that differs from a `COLLECT`'s in the command in progress
alone. -/
theorem requestIsCollectThenDecomposition : Obligations.RequestIsCollectThenDecomposition := by
  intro s i id ins params nexp k ds ws hseq hwf hs he hcap hlen hd hw
  obtain ⟨w, henc, -, hread⟩ := encodePacket_of_fits (s := { s with view := none }) id ins hwf hcap hlen
  have hsent : w.readBytes 0 (params.length + 6) = packetOf id ins params := readBytes_encoded hread
  refine ⟨w, _, hread, exec_collect_of_idle nexp (by exact hseq), ?_⟩
  rw [makesRequest_of_expects hs he s rfl hseq, requestBody_of_ok henc, prewriteReset_ok (by exact hd),
    takeWrite_ok (by exact hw), ← beginCollect_inProgressAs _ _ _ _ _ rfl]
  simp only [hsent]
  rfl

end Sys2Proof.Machine
end

section
/-! SUPPORT. The checksum as a sum over the covered bytes, and its command; `ChecksumLaws` and
`ChecksumCommandAnswers`. -/

namespace Sys2Proof

/-- The model's sum is the library's (40 R130). -/
theorem sumBytes_eq_sum (d : List Byte) : sumBytes d = (d.map BitVec.toNat).sum := by
  induction d with
  | nil => rfl
  | cons b bs ih => rw [sumBytes_cons, ih, List.map_cons, List.sum_cons]

/-- The checksum completes the sum of the bytes it covers to `0xFF` (40 R133). -/
theorem sumBytes_add_checksum (d : List Byte) : (sumBytes d + (checksum d).toNat) % 256 = 255 := by
  rw [toNat_checksum]
  omega

/-- Reordering the covered bytes leaves their sum as it is (40 R133). -/
theorem sumBytes_perm {d e : List Byte} (h : d.Perm e) : sumBytes d = sumBytes e := by
  rw [sumBytes_eq_sum, sumBytes_eq_sum, (h.map BitVec.toNat).sum_eq]

end Sys2Proof

namespace Sys2Proof.Machine

open Sys2Proof.Claims

/-- A verifying packet ends with its covered bytes and their checksum (40 R132). -/
theorem drop_two_of_verifies {packet : List Byte} (h : Verifies packet) :
    packet.drop 2 = (packet.drop 2).dropLast ++ [checksum (packet.drop 2).dropLast] := by
  obtain ⟨hlen, hlast⟩ := h
  have hend : (packet.drop 2).getLast? = some (checksum (packet.drop 2).dropLast) := by
    rw [List.getLast?_drop, if_neg (by omega), hlast, checksum]
  exact (List.dropLast_append_getLast? _ hend).symm

/-- Settles O20: the sum of the bytes with their checksum is told by the sum of the bytes, which no reordering changes. -/
theorem checksumLaws : Obligations.ChecksumLaws := by
  refine ⟨fun d => ?value, fun d => ?completes, fun packet h => ?packet, fun d e h => ?order⟩
  case value => rw [toNat_checksum, sumBytes_eq_sum]
  case completes => rw [← sumBytes_eq_sum, sumBytes_add_checksum]
  case packet =>
    rw [← sumBytes_eq_sum, drop_two_of_verifies h, sumBytes_append, sumBytes_cons, sumBytes_nil, Nat.add_zero,
      sumBytes_add_checksum]
  case order => rw [checksum, checksum, sumBytes_perm h]

/-- Settles O21. -/
theorem checksumCommandAnswers : Obligations.ChecksumCommandAnswers := by
  intro s d h
  have hrun : (s.command fun t => t.deliver (.byte (checksum d))) = answered s (.byte (checksum d)) := by
    rw [command_of_idle h, deliver_of_idle h]
  exact congrArg Host.Outcome.next hrun

end Sys2Proof.Machine
end

section
/-! SUPPORT. The `ENCODE` command, and a `COLLECT` that takes the packet it built; `EncodeThenCollectRecoversPacket`,
`EncodeCommandBuildsPacket` and `EncodeCommandFailures`. -/

namespace Sys2Proof.Machine

open Sys2Proof.Claims

/-! ## `ENCODE` -/

theorem exec_encodeRaw_of_idle (id ins : Byte) (params : List Byte) {s : State} (h : s.seq = .idle) :
    exec (.encodeRaw id ins params) s = .next (encodeBody id ins params { s with view := none }) :=
  congrArg Host.Outcome.next (command_of_idle h)

theorem encodeBody_of_error {s : State} {id ins : Byte} {params : List Byte} {f : Failure}
    (h : encodePacket id ins params s = .error f) : encodeBody id ins params s = s.raise f := by
  rw [encodeBody, h]

theorem encodeBody_of_ok {s t : State} {id ins : Byte} {params : List Byte}
    (h : encodePacket id ins params s = .ok t) :
    encodeBody id ins params s =
      t.deliver (.encoded (params.length + 6) (t.wbuf.readBytes 0 (params.length + 6))) := by
  rw [encodeBody, h]

/-- Settles O31: the encoder writes the packet, and the command gives back what stands at the front of `WBUF`. -/
theorem encodeCommandBuildsPacket : Obligations.EncodeCommandBuildsPacket := by
  intro s id ins params hseq hwf hcap hlen
  obtain ⟨w, e, hw, hread⟩ := encodePacket_of_fits (s := { s with view := none }) id ins hwf hcap hlen
  have hpacket : w.readBytes 0 (params.length + 6) = packetOf id ins params := readBytes_encoded hread
  refine ⟨w, ?_, hw, hread⟩
  rw [exec_encodeRaw_of_idle id ins params hseq, encodeBody_of_ok e, hpacket]
  exact congrArg (fun t => Host.Outcome.next { t with wbuf := w }) (deliver_of_idle hseq _)

/-- Settles O32: a failed encode ends the command with nothing written. -/
theorem encodeCommandFailures : Obligations.EncodeCommandFailures := by
  intro s id ins params hseq
  have fails {f : Failure} (he : encodePacket id ins params { s with view := none } = .error f) :
      exec (.encodeRaw id ins params) s = .next (answered s (.failed f s.skipped)) := by
    rw [exec_encodeRaw_of_idle id ins params hseq, encodeBody_of_error he, raise_of_idle hseq]
  exact ⟨fun hcap => fails (encodePacket_of_small id ins hcap),
    fun hcap hlen => fails (encodePacket_of_long id ins hcap hlen)⟩

/-! ## The packet as a message -/

/-- A request packet ends with the checksum of what lies between the prefix and it (40 R132). -/
theorem verifies_requestPacket (id ins : Byte) (params : List Byte) : Verifies (requestPacket id ins params) := by
  have hcovered : ((requestPacket id ins params).drop 2).dropLast = [id, lenByte params.length, ins] ++ params :=
    List.dropLast_concat
  refine ⟨by rw [length_requestPacket]; omega, ?_⟩
  rw [hcovered]
  exact List.getLast?_concat

/-- What the encoder builds is a message to the framer (41 R146). -/
theorem wholeMessage_requestPacket (id ins : Byte) {params : List Byte} (h : params.length ≤ 253) :
    WholeMessage (requestPacket id ins params) := by
  obtain ⟨hfront, hlength⟩ := Laws.PacketShape.requestPacket_shaped id ins params h
  exact ⟨hfront, hlength, verifies_requestPacket id ins params⟩

/-- A `COLLECT` with nothing buffered or pending, whose first read brings a whole message, returns that message as its
view (42 R177). -/
theorem exec_collect_of_message (nexp : Nat) {s : State} {packet : List Byte} {limit : Nat} {rs : List ReadAnswer}
    (hseq : s.seq = .idle) (hl : s.readLen = 0) (hu : s.used = 0) (hp : s.pending = []) (hwf : s.rbuf.wf = true)
    (hr : s.reads = .ok packet limit :: rs) (hlimit : packet.length ≤ limit) (hcap : packet.length ≤ s.par.capR)
    (hm : WholeMessage packet) :
    ∃ u, exec (.collect nexp) s = .next u ∧ u.result = some (.collected packet.length 0) ∧
      u.view = some packet.length ∧ u.rbuf.readBytes 0 packet.length = packet := by
  rw [exec_collect_of_idle nexp hseq,
    beginCollect_of_message nexp (by exact hl) (by exact hu) (by exact hp) (by exact hwf) (by exact hr) hlimit
      (by exact hcap) hm,
    afterCollect_of_collect (by rfl) (by rfl) (by rfl) (by rfl)]
  exact ⟨_, rfl, rfl, rfl, Memory.readBytes_writeBytes 0 packet (Memory.wf_writeBytes 0 packet hwf)⟩

/-- Settles O34: the front of `WBUF` after the `ENCODE` is a whole message, which the `COLLECT` takes. -/
theorem encodeThenCollectRecoversPacket : Obligations.EncodeThenCollectRecoversPacket := by
  intro s t id ins params nexp rs hseq hww hrw hl hu hp hcapW hlen hcapR henc
  obtain ⟨w, e, -, hread⟩ := encodeCommandBuildsPacket s id ins params hseq hww hcapW hlen
  obtain rfl := Host.Outcome.next.inj (e.symm.trans henc)
  have hsent : w.readBytes 0 (params.length + 6) = packetOf id ins params := readBytes_encoded hread
  have hplen : (packetOf id ins params).length = params.length + 6 := length_requestPacket id ins params
  simp only [hsent]
  rw [← hplen] at hcapR ⊢
  obtain ⟨u, hexec, hresult, hview, hrecovered⟩ := exec_collect_of_message nexp (packet := packetOf id ins params)
    (s := { answered s (.encoded (packetOf id ins params).length (packetOf id ins params)) with
      wbuf := w
      reads := .ok (packetOf id ins params) (packetOf id ins params).length :: rs })
    hseq hl hu hp hrw rfl le_rfl hcapR (wholeMessage_requestPacket id ins hlen)
  exact ⟨u, hexec, hresult, hview, hrecovered, hrecovered⟩

end Sys2Proof.Machine
end

section
/-! SUPPORT. The micro-steps of a collect, one at a time: its start, the resync pass, the check and the verification;
`CollectStartMakesOneDeadline`, `ResyncPassFindsFirstPrefix`, `CheckDecidesByLength` and `VerifyConsumesMessage`. -/

namespace Sys2Proof.Machine

open Sys2Proof.Claims

/-! ## The start -/

theorem deadlineDuration_of_baud {baud : Word32} (nexp : Nat) (h : baud ≠ 0) :
    deadlineDuration baud nexp = ((nexp + 6) * 10 * 1000000 + baud.toNat - 1) / baud.toNat + 1000 := by
  rw [deadlineDuration, transferTime, if_neg h]
  rfl

/-- Settles O26. -/
theorem collectStartMakesOneDeadline : Obligations.CollectStartMakesOneDeadline := by
  intro s nexp h
  rw [← deadlineDuration_of_baud nexp h]
  rfl

/-! ## The check -/

theorem check_of_short {s : State} (h : s.readLen < 4) : check s = { s with phase := .read } := if_pos h

theorem check_of_oversized {s : State} (h4 : 4 ≤ s.readLen) (hcap : s.par.capR < s.messageLength) :
    check s = s.raise (.bufferTooSmall s.messageLength s.par.capR .receive) := by
  rw [check, if_neg (Nat.not_lt.mpr h4), if_pos hcap]

theorem check_of_whole {s : State} (h4 : 4 ≤ s.readLen) (hcap : s.messageLength ≤ s.par.capR)
    (hm : s.messageLength ≤ s.readLen) : check s = { s with phase := .verify } := by
  rw [check, if_neg (Nat.not_lt.mpr h4), if_neg (Nat.not_lt.mpr hcap), if_pos hm]

theorem check_of_part {s : State} (h4 : 4 ≤ s.readLen) (hcap : s.messageLength ≤ s.par.capR)
    (hm : s.readLen < s.messageLength) : check s = { s with phase := .read } := by
  rw [check, if_neg (Nat.not_lt.mpr h4), if_neg (Nat.not_lt.mpr hcap), if_neg (Nat.not_le.mpr hm)]

/-- Settles O36. -/
theorem checkDecidesByLength : Obligations.CheckDecidesByLength := fun _ =>
  ⟨check_of_short, check_of_oversized, check_of_whole, check_of_part⟩

/-! ## The verification -/

/-- Settles O37: both outcomes consume the message, and the checksum tells them apart. -/
theorem verifyConsumesMessage : Obligations.VerifyConsumesMessage := by
  rintro s m rfl
  rcases verify_cases s with ⟨e, hsum⟩ | ⟨e, hsum⟩
  · exact ⟨fun _ => e, fun c hc hne => absurd (hsum.trans hc.symm) hne⟩
  · exact ⟨fun h => absurd h hsum, by rintro c rfl -; exact e⟩

/-! ## The resync pass -/

/-- No prefix starts in the garbage (42 R163). -/
theorem garbage_before_prefix {l : List Byte} {j : Nat} (h : j < garbage l) :
    ¬ (l[j]? = some Config.hdr ∧ l[j + 1]? = some Config.hdr) := by
  induction l using garbage.induct generalizing j with
  | case1 | case2 => simp [garbage] at h
  | case3 b hb => simp
  | case4 b0 b1 bs hb => simp [garbage, hb] at h
  | case5 b0 b1 bs hb ih =>
    rw [garbage, if_neg hb] at h
    cases j with
    | zero => simpa using hb
    | succ j => exact ih (by omega)

/-- Bytes that are all garbage do not end in `FF` (42 R163). -/
theorem getLast?_ne_of_all_garbage {l : List Byte} (h : garbage l = l.length) : l.getLast? ≠ some Config.hdr := by
  induction l using garbage.induct with
  | case1 => simp
  | case2 => simp [garbage] at h
  | case3 b hb => simpa using hb
  | case4 b0 b1 bs hb => simp [garbage, hb] at h
  | case5 b0 b1 bs hb ih =>
    rw [garbage, if_neg hb, Nat.add_comm, List.length_cons, Nat.add_right_cancel_iff] at h
    rw [List.getLast?_cons_cons]
    exact ih h

theorem getElem?_tail {s : State} {j : Nat} (h : s.used + j < s.readLen) :
    s.tail[j]? = some (s.rbuf.read (s.used + j)) := by
  rw [State.tail, List.getElem?_eq_getElem (by rw [Memory.length_readBytes]; omega), Memory.getElem_readBytes]

theorem getElem?_tail_drop_garbage {s : State} {j : Nat} (h : s.used + garbage s.tail + j < s.readLen) :
    (s.tail.drop (garbage s.tail))[j]? = some (s.rbuf.read (s.used + garbage s.tail + j)) := by
  rw [List.getElem?_drop, getElem?_tail (by omega), Nat.add_assoc]

/-- The bytes after a resync pass: those from the front on, moved to offset 0, and above them what was there. -/
theorem resync_read {s : State} (hwf : s.rbuf.wf = true) (a : Nat) :
    (resync s).rbuf.read a =
      if a < s.readLen - (s.used + garbage s.tail) then s.rbuf.read (s.used + garbage s.tail + a)
      else s.rbuf.read a := by
  rw [resync_rbuf, Memory.read_writeBytes _ _ _ hwf, Memory.length_readBytes]
  simp only [Nat.zero_le, true_and, Nat.zero_add, Nat.sub_zero]
  split
  · next ha => exact Memory.getD_readBytes _ _ _ _ ha
  · rfl

/-- Settles O35: the new front lies after the garbage of the unconsumed bytes. -/
theorem resyncPassFindsFirstPrefix : Obligations.ResyncPassFindsFirstPrefix := by
  intro s hwf hu
  obtain ⟨hfirst, hsecond⟩ := drop_garbage_front s.tail
  refine ⟨s.used + garbage s.tail, Nat.le_add_right _ _, front_le hu, ?noEarlier, ?isPrefix, ?loneLast, ?noneLeft,
    ?state, resync_read hwf⟩
  case noEarlier =>
    rintro i hi hif ⟨hlen, h0, h1⟩
    obtain ⟨j, rfl⟩ := Nat.exists_eq_add_of_le hi
    refine garbage_before_prefix (l := s.tail) (j := j) (by omega) ⟨?_, ?_⟩
    · rw [getElem?_tail (by omega), h0]; rfl
    · rw [getElem?_tail (by omega), ← Nat.add_assoc, h1]; rfl
  case isPrefix =>
    intro h
    exact ⟨hfirst _ (getElem?_tail_drop_garbage (by omega)), hsecond _ (getElem?_tail_drop_garbage h)⟩
  case loneLast =>
    intro h
    exact hfirst _ (getElem?_tail_drop_garbage (by omega))
  case noneLeft =>
    intro hf hlt hlast
    refine getLast?_ne_of_all_garbage (l := s.tail) (by rw [length_tail]; omega) ?_
    rw [List.getLast?_eq_getElem?, length_tail, getElem?_tail (by omega),
      show s.used + (s.readLen - s.used - 1) = s.readLen - 1 by omega, hlast]
    rfl
  case state =>
    rw [Nat.add_sub_cancel_left]
    rfl

end Sys2Proof.Machine
end

section
/-! SUPPORT. A collect that finds what it needs at the front of the unconsumed bytes, or nothing new at all;
`CollectTakesQueuedMessage`, `ZeroByteReadAsksAgain` and `ReceiveCapacityFailureIsSticky`. -/

namespace Sys2Proof.Machine

open Sys2Proof.Claims

/-! ## A resync pass with nothing to move -/

/-- Writing back the bytes that are there changes nothing. -/
theorem Memory.writeBytes_readBytes {m : Memory} (a n : Nat) (h : m.wf = true) :
    m.writeBytes a (m.readBytes a n) = m := by
  refine Memory.ext_of_wf (Memory.wf_writeBytes a _ h) h fun c => ?_
  rw [Memory.read_writeBytes a _ c h, Memory.length_readBytes]
  split
  · next hc => rw [Memory.getD_readBytes m a n _ (by omega), Nat.add_sub_cancel' hc.1]
  · rfl

/-- Bytes that begin with `FF FF`, or are a part of it, hold no garbage (42 R163). -/
theorem garbage_eq_zero {l : List Byte} (h0 : ∀ b ∈ l[0]?, b = Config.hdr) (h1 : ∀ b ∈ l[1]?, b = Config.hdr) :
    garbage l = 0 := by
  match l, h0, h1 with
  | [], _, _ => rfl
  | [b], h0, _ => exact if_pos (h0 b rfl)
  | b0 :: b1 :: bs, h0, h1 => exact if_pos ⟨h0 b0 rfl, h1 b1 rfl⟩

/-- With no byte consumed and the prefix, or a part of it, at the front, a resync pass only moves `PHASE`. -/
theorem resync_of_frontOk {s : State} (hwf : s.rbuf.wf = true) (hu : s.used = 0) (hf : s.frontOk = true) :
    resync s = { s with phase := .check } := by
  obtain ⟨hfirst, hsecond⟩ := State.frontOk_iff.mp hf
  have front {j : Nat} (hread : j < s.readLen → s.rbuf.read j = Config.hdr) : ∀ b ∈ s.tail[j]?, b = Config.hdr := by
    intro b hb
    obtain ⟨hlen, -⟩ := List.getElem?_eq_some_iff.mp hb
    rw [length_tail] at hlen
    rw [getElem?_tail (by omega), hu, Nat.zero_add] at hb
    exact (Option.some.inj hb).symm.trans (hread (by omega))
  have hg : garbage s.tail = 0 := garbage_eq_zero (front hfirst) (front hsecond)
  have hbytes : s.rbuf.writeBytes 0 s.tail = s.rbuf := by
    rw [State.tail, hu]
    exact Memory.writeBytes_readBytes 0 _ hwf
  rw [resync_of_no_garbage hg, hbytes, hu]
  rfl

/-! ## The turns of a collect -/

theorem turn_of_oversized {s : State} (h4 : 4 ≤ (resync s).readLen) (hcap : s.par.capR < (resync s).messageLength) :
    turn s = (resync s).raise (.bufferTooSmall (resync s).messageLength s.par.capR .receive) := by
  rw [turn_eq, if_neg (by omega), if_pos hcap]

/-- A turn that finds less than a message asks for more bytes (42 R164). -/
theorem turn_of_part {s : State}
    (h : (resync s).readLen < 4 ∨
      ((resync s).readLen < (resync s).messageLength ∧ (resync s).messageLength ≤ s.par.capR)) :
    turn s = issueRead { resync s with phase := .read } := by
  by_cases h4 : (resync s).readLen < 4
  · rw [turn_eq, if_pos h4]
  · rw [turn_eq, if_neg h4, if_neg (by omega), if_neg (by omega)]

/-- A `COLLECT` that is about to make its first resync pass (42 R161, R177). -/
def collectBegun (nexp : Nat) (s : State) : State :=
  collectStart nexp { s with view := none, exchange := some (.collect nexp), seq := .collect }

@[simp] theorem collectBegun_par (nexp : Nat) (s : State) : (collectBegun nexp s).par = s.par := rfl
@[simp] theorem collectBegun_pending (nexp : Nat) (s : State) : (collectBegun nexp s).pending = s.pending := rfl
@[simp] theorem collectBegun_reads (nexp : Nat) (s : State) : (collectBegun nexp s).reads = s.reads := rfl

theorem exec_collect_eq (nexp : Nat) {s : State} (h : s.seq = .idle) :
    exec (.collect nexp) s = .next (goOnReading (turn (collectBegun nexp s))) := exec_collect_of_idle nexp h

theorem goOnReading_of_phase_ne_read {s : State} (h : s.phase ≠ .read) : goOnReading s = afterCollect s := by
  rw [goOnReading, awaitReads_of_phase_ne_read h]

theorem afterCollect_of_seq_ne_collect {s : State} (h : s.seq ≠ .collect) : afterCollect s = s := by
  rw [afterCollect, if_neg fun hc => h hc.1]

/-- Settles O39: the first turn takes the message, and no read is issued. -/
theorem collectTakesQueuedMessage : Obligations.CollectTakesQueuedMessage := by
  intro s nexp packet rest hseq hwf hu hl htail hfront hlen hv
  have hcap : packet.length ≤ s.par.capR := by
    have := congrArg List.length htail
    rw [Memory.length_readBytes, List.length_append] at this
    omega
  have hturn := turn_of_message (s := collectBegun nexp s) hwf ⟨hfront, hlen, hv⟩ htail hcap
  have hend : exec (.collect nexp) s = .next ((turn (collectBegun nexp s)).deliver (.collected packet.length 0)) := by
    rw [exec_collect_eq nexp hseq, hturn, goOnReading_of_phase_ne_read (by simp),
      afterCollect_of_collect (by rfl) (by rfl) (by rfl) (by rfl)]
    rfl
  have hrbuf : ((turn (collectBegun nexp s)).deliver (.collected packet.length 0)).rbuf =
      s.rbuf.writeBytes 0 (packet ++ rest) := by
    rw [hturn]
    rfl
  refine ⟨_, hend, ?_, ?_, fun a ha => ?_⟩
  · rw [hturn]
    simp only [State.deliver, State.endCommand, collectBegun, collectStart, State.callTransport, hseq]
  · rw [hrbuf, ← List.length_append]
    exact Memory.readBytes_writeBytes 0 _ hwf
  · rw [hrbuf, Memory.read_writeBytes 0 _ a hwf, if_neg (by rw [List.length_append]; omega)]

/-- Settles O44: the first turn finds the header in place and raises the failure at once. -/
theorem receiveCapacityFailureIsSticky : Obligations.ReceiveCapacityFailureIsSticky := by
  intro s nexp hseq hwf hu h4 h0 h1 hcap
  have hres := resync_of_frontOk (s := collectBegun nexp s) hwf hu
    (State.frontOk_iff.mpr ⟨fun _ => h0, fun _ => h1⟩)
  have hturn := turn_of_oversized (s := collectBegun nexp s) (by rw [hres]; exact h4) (by rw [hres]; exact hcap)
  rw [exec_collect_eq nexp hseq, hturn, goOnReading_of_phase_ne_read (by simp),
    afterCollect_of_seq_ne_collect (by simp), hres]
  simp only [State.raise, State.deliver, State.endCommand, collectBegun, collectStart, State.callTransport, hseq,
    State.messageLength]

/-- Settles O41: the resync pass finds the bytes as the last one left them, and so asks for the same read. -/
theorem zeroByteReadAsksAgain : Obligations.ZeroByteReadAsksAgain := by
  intro s limit hinv hq hseq hpend hreads
  obtain ⟨hs, hk⟩ := inv_iff.mp hinv
  obtain ⟨-, hwf, -⟩ := hs.buffers
  obtain ⟨x, hx, hp, hreading⟩ : ∃ x, s.exchange = some x ∧ s.phase = .read ∧ s.readingOk = true := by
    simpa [State.controlOk_iff, hseq] using hk
  obtain ⟨hu, -, hfront, -, hpart⟩ := State.readingOk_iff.mp hreading
  have htake : takeRead (.ok [] limit) { s with reads := [] } = { s with reads := [], phase := .resync } := by
    rw [takeRead_of_fits (bytes := []) (by simp [hpend]) (Nat.zero_le _)]
    simp only [hpend, Memory.writeBytes, List.length_nil, Nat.add_zero, List.append_nil, List.drop_nil]
  have hres := resync_of_frontOk (s := { s with reads := [], phase := .resync }) hwf hu hfront
  have hturn := turn_of_part (s := { s with reads := [], phase := .resync }) (by rw [hres]; exact hpart)
  rw [step_of_inbox_nil hq, resume_of_collect hseq hx, goOnReading_of_reads hreads,
    awaitReads_cons_of_resync hp (by rw [htake]), htake, hturn, hres, awaitReads,
    afterCollect_of_phase_ne_idle (by simp)]
  simp only [issueRead, State.callTransport, State.room, hp]

end Sys2Proof.Machine
end

section
/-! SUPPORT. What a collect has buffered and skipped, as a function of all the bytes it was given;
`CollectFailureStates` and `CollectSkipsExactlyTheGarbage`. -/

namespace Sys2Proof.Machine

open Sys2Proof.Claims

/-! ## The garbage of a stream -/

theorem garbage_cons_of_ne {b : Byte} (h : b ≠ Config.hdr) (l : List Byte) : garbage (b :: l) = 1 + garbage l := by
  cases l with
  | nil => simp [garbage, h]
  | cons b1 bs => rw [garbage, if_neg fun hb => h hb.1]

/-- Garbage counted pass by pass is the garbage of the whole stream (42 R163, R176). -/
theorem garbage_append (l r : List Byte) :
    garbage (l ++ r) = garbage l + garbage (l.drop (garbage l) ++ r) := by
  induction l using garbage.induct with
  | case1 => simp [garbage]
  | case2 => simp [garbage]
  | case3 b hb => simp [garbage, hb, garbage_cons_of_ne hb]
  | case4 b0 b1 bs hb => simp [garbage, hb]
  | case5 b0 b1 bs hb ih =>
    rw [List.cons_append, List.cons_append, garbage, if_neg hb, ← List.cons_append, ih, garbage, if_neg hb,
      Nat.add_comm 1 (garbage (b1 :: bs)), List.drop_succ_cons]
    omega

/-- What is left of a stream after its garbage, when the stream goes on. -/
theorem drop_garbage_append (l r : List Byte) :
    (l.drop (garbage l) ++ r).drop (garbage (l.drop (garbage l) ++ r)) = (l ++ r).drop (garbage (l ++ r)) := by
  rw [garbage_append l r, ← List.drop_drop, List.drop_append_of_le_length (garbage_le_length l)]

/-! ## The buffer of a collect -/

/-- Of all the bytes of a collect so far, a resync pass has counted the garbage and left the rest at the front of `RBUF`
(42 R163, R170). -/
structure State.Holds (s : State) (all : List Byte) : Prop where
  wf : s.rbuf.wf = true
  skipped : s.skipped = garbage all
  bytes : s.rbuf.readBytes 0 s.readLen = all.drop (garbage all)

theorem State.Holds.readLen {s : State} {all : List Byte} (h : s.Holds all) : s.readLen = all.length - garbage all := by
  simpa using congrArg List.length h.bytes

theorem State.Holds.read {s : State} {all : List Byte} (h : s.Holds all) {i : Nat} (hi : i < s.readLen) :
    s.rbuf.read i = (all.drop (garbage all)).getD i 0 := by
  rw [← h.bytes, Memory.getD_readBytes _ _ _ _ hi, Nat.zero_add]

theorem resync_bytes {s : State} (hwf : s.rbuf.wf = true) :
    (resync s).rbuf.readBytes 0 (resync s).readLen = s.tail.drop (garbage s.tail) := by
  refine List.ext_getElem? fun i => ?_
  by_cases hi : i < (resync s).readLen
  · rw [List.getElem?_eq_getElem (by simpa using hi), Memory.getElem_readBytes, Nat.zero_add, read_resync hwf hi]
  · rw [resync_readLen] at hi
    rw [List.getElem?_eq_none (by simpa using hi), List.getElem?_eq_none (by simp; omega)]

/-- A resync pass holds the whole stream, if the passes before it have left its end unconsumed. -/
theorem resync_holds {s : State} {all : List Byte} (hwf : s.rbuf.wf = true)
    (hs : s.skipped + garbage s.tail = garbage all)
    (hb : s.tail.drop (garbage s.tail) = all.drop (garbage all)) : (resync s).Holds all :=
  ⟨Memory.wf_writeBytes _ _ hwf, hs, (resync_bytes hwf).trans hb⟩

/-- A collect that waits for a read, with all its bytes so far held (42 R164, R166). -/
structure State.Reading (s : State) (all : List Byte) : Prop where
  phase : s.phase = .read
  used : s.used = 0
  view : s.view = none
  exchange : s.exchange ≠ none
  holds : s.Holds all

/-- The state in which a read has returned bytes that fit (42 R166). -/
def afterRead (bytes left : List Byte) (s : State) : State :=
  { s with
    rbuf := s.rbuf.writeBytes s.readLen bytes
    readLen := s.readLen + bytes.length
    phase := .resync
    pending := left }

theorem tail_afterRead {s : State} (bytes left : List Byte) (hwf : s.rbuf.wf = true) (hu : s.used = 0) :
    (afterRead bytes left s).tail = s.rbuf.readBytes 0 s.readLen ++ bytes := by
  have hold : (s.rbuf.writeBytes s.readLen bytes).readBytes 0 s.readLen = s.rbuf.readBytes 0 s.readLen :=
    Memory.readBytes_congr fun i hi => by rw [Memory.read_writeBytes _ _ _ hwf, if_neg (by omega)]
  simp only [afterRead, State.tail, hu, Nat.sub_zero]
  rw [Memory.readBytes_add, hold, Nat.zero_add, Memory.readBytes_writeBytes _ _ hwf]

/-- The resync pass after a read holds the stream with the bytes that the read returned. -/
theorem resync_afterRead_holds {s : State} {all : List Byte} (bytes left : List Byte) (h : s.Holds all)
    (hu : s.used = 0) : (resync (afterRead bytes left s)).Holds (all ++ bytes) := by
  have htail : (afterRead bytes left s).tail = all.drop (garbage all) ++ bytes := by
    rw [tail_afterRead bytes left h.wf hu, h.bytes]
  refine resync_holds (Memory.wf_writeBytes _ _ h.wf) ?_ ?_
  · rw [htail, garbage_append all bytes, ← h.skipped]
    rfl
  · rw [htail, drop_garbage_append]

/-- The first resync pass of a `COLLECT` holds the unconsumed bytes. -/
theorem resync_collectBegun_holds (nexp : Nat) {s : State} (hwf : s.rbuf.wf = true) :
    (resync (collectBegun nexp s)).Holds s.tail :=
  resync_holds hwf (Nat.zero_add _) rfl

/-! ## How a collect fails -/

/-- The failures of a collect, and `USED` after each (42 R165, R166, R169, R170). -/
def FailureLeaves (cap : Nat) (f : Failure) (t : State) : Prop :=
  (∃ n, f = .bufferTooSmall n cap .receive ∧ t.used = 0 ∧ n = 4 + (t.rbuf.read 3).toNat) ∨
    (f = .timeout ∧ t.used = 0) ∨ (∃ e, f = .readFailed e ∧ t.used = 0) ∨
    (∃ claimed computed, f = .invalidChecksum claimed computed ∧ t.used = 4 + (t.rbuf.read 3).toNat)

/-- A collect that has failed, with all its bytes held (42 R170). -/
structure State.Failed (t : State) (cap : Nat) (all : List Byte) (f : Failure) : Prop where
  seq : t.seq = .idle
  phase : t.phase = .idle
  view : t.view = none
  result : t.result = some (.failed f t.skipped)
  holds : t.Holds all
  leaves : FailureLeaves cap f t

/-- Where the micro-steps after a resync pass leave a collect that holds all its bytes. -/
inductive CollectStage (cap : Nat) (all : List Byte) (t : State) : Prop where
  | reading (h : t.Reading all)
  | took (hp : t.phase = .idle) (hx : t.exchange ≠ none)
  | failed (f : Failure) (h : t.Failed cap all f)

theorem CollectStage.reading_of_phase {cap : Nat} {all : List Byte} {t : State} (h : CollectStage cap all t)
    (hp : t.phase = .read) : t.Reading all := by
  cases h with
  | reading h => exact h
  | took hi _ => exact absurd (hp.symm.trans hi) (by decide)
  | failed f h => exact absurd (hp.symm.trans h.phase) (by decide)

theorem State.Failed.of_result {cap k : Nat} {all : List Byte} {t : State} {f g : Failure} (h : t.Failed cap all g)
    (hr : t.result = some (.failed f k)) : t.Failed cap all f ∧ k = t.skipped := by
  obtain ⟨rfl, rfl⟩ : g = f ∧ t.skipped = k := by simpa [h.result] using hr
  exact ⟨h, rfl⟩

/-- A collect whose command has ended with this failure has failed with it. -/
theorem CollectStage.failed_of_result {cap k : Nat} {all : List Byte} {t : State} {f : Failure}
    (h : CollectStage cap all t) (hx : t.exchange = none) (hr : t.result = some (.failed f k)) :
    t.Failed cap all f ∧ k = t.skipped := by
  cases h with
  | reading h => exact absurd hx h.exchange
  | took _ hx' => exact absurd hx hx'
  | failed g h => exact h.of_result hr

theorem turn_stage {s : State} {all : List Byte} (hv : s.view = none) (hx : s.exchange ≠ none)
    (h : (resync s).Holds all) : CollectStage s.par.capR all (turn s) := by
  have held {t : State} (hr : t.rbuf = (resync s).rbuf) (hl : t.readLen = (resync s).readLen)
      (hk : t.skipped = (resync s).skipped) : t.Holds all :=
    ⟨by rw [hr]; exact h.wf, by rw [hk]; exact h.skipped, by rw [hr, hl]; exact h.bytes⟩
  rcases turn_cases s with ⟨e, -⟩ | ⟨e, -⟩ | ⟨e, -⟩
  · rw [e]
    exact .reading ⟨rfl, rfl, hv, hx, held rfl rfl rfl⟩
  · rw [e]
    exact .failed _ ⟨rfl, rfl, hv, rfl, held rfl rfl rfl, .inl ⟨_, rfl, rfl, rfl⟩⟩
  · rcases verify_cases { resync s with phase := .verify } with ⟨e', -⟩ | ⟨e', -⟩ <;> rw [e, e']
    · exact .took rfl hx
    · exact .failed _ ⟨rfl, rfl, hv, rfl, held rfl rfl rfl, .inr (.inr (.inr ⟨_, _, rfl, Nat.zero_add _⟩))⟩

theorem State.Reading.withReads {s : State} {all : List Byte} (h : s.Reading all) (as : List ReadAnswer) :
    State.Reading { s with reads := as } all :=
  ⟨h.phase, h.used, h.view, h.exchange, ⟨h.holds.wf, h.holds.skipped, h.holds.bytes⟩⟩

/-- A read whose bytes fit is followed by a turn (42 R160, R166). -/
theorem awaitReads_cons_of_fits {s : State} {arrived bytes left : List Byte} {limit : Nat} (as : List ReadAnswer)
    (hp : s.phase = .read) (hb : (s.pending ++ arrived).take limit = bytes)
    (hleft : (s.pending ++ arrived).drop limit = left) (hroom : bytes.length ≤ s.room) :
    awaitReads (.ok arrived limit :: as) s = awaitReads as (turn (afterRead bytes left { s with reads := as })) := by
  subst hleft
  have htake : takeRead (.ok arrived limit) { s with reads := as } =
      afterRead bytes ((s.pending ++ arrived).drop limit) { s with reads := as } :=
    takeRead_of_fits (s := { s with reads := as }) hb.symm hroom
  rw [awaitReads_cons_of_resync hp (by rw [htake]; rfl), htake]

/-- The turn after a read holds the bytes that the read returned. -/
theorem turn_afterRead_stage {s : State} {all : List Byte} (bytes left : List Byte) (h : s.Reading all) :
    CollectStage s.par.capR (all ++ bytes) (turn (afterRead bytes left s)) :=
  turn_stage (s := afterRead bytes left s) h.view h.exchange (resync_afterRead_holds bytes left h.holds h.used)

/-- A read's error ends the collect with what it held before (42 R166, R170). -/
theorem takeRead_err_failed {s : State} {all : List Byte} (cap : Nat) (e : TransportError) (timedOut : Bool)
    (h : s.Reading all) : ∃ f, (takeRead (.err e timedOut) s).Failed cap all f := by
  rw [takeRead_err]
  refine ⟨_, rfl, rfl, h.view, rfl, ⟨h.holds.wf, h.holds.skipped, h.holds.bytes⟩, ?_⟩
  cases timedOut
  · exact .inr (.inr (.inl ⟨e, rfl, h.used⟩))
  · exact .inr (.inl ⟨rfl, h.used⟩)

@[simp] theorem turn_par (s : State) : (turn s).par = s.par :=
  (stable_of_par_baud fun p _ => p = s.par).turn s rfl

@[simp] theorem turn_pending (s : State) : (turn s).pending = s.pending := by
  rcases turn_cases s with ⟨e, -⟩ | ⟨e, -⟩ | ⟨e, -⟩ <;> rw [e]
  · rfl
  · rfl
  · rcases verify_cases { resync s with phase := .verify } with ⟨e', -⟩ | ⟨e', -⟩ <;> rw [e'] <;> rfl

/-- The loop of a collect that ends in a failure: it has used some of the answers, and holds the bytes it had and those
that they returned (42 R170). -/
theorem awaitReads_failed {as : List ReadAnswer} {s : State} {cap : Nat} {old : List Byte} {f : Failure} {k : Nat}
    (hcap : s.par.capR = cap) (h : CollectStage cap old s) (hreads : s.reads = as)
    (hx : (awaitReads as s).exchange = none) (hr : (awaitReads as s).result = some (.failed f k)) :
    ∃ answers, as = answers ++ (awaitReads as s).reads ∧
      (awaitReads as s).Failed cap (old ++ received s.pending answers) f ∧ k = (awaitReads as s).skipped := by
  induction as generalizing s old with
  | nil => exact ⟨[], hreads.symm, by rw [received, List.append_nil]; exact h.failed_of_result hx hr⟩
  | cons a as ih =>
    by_cases hp : s.phase = .read
    swap
    · rw [awaitReads_of_phase_ne_read hp] at hx hr ⊢
      exact ⟨[], hreads.symm, by rw [received, List.append_nil]; exact h.failed_of_result hx hr⟩
    have hwait := (h.reading_of_phase hp).withReads as
    cases a with
    | err e timedOut =>
      obtain ⟨g, hg⟩ := takeRead_err_failed cap e timedOut hwait
      rw [awaitReads_cons_of_ended hp (by simp [hg.phase])] at hr ⊢
      exact ⟨[.err e timedOut], by simp, by rw [received, received, List.append_nil]; exact hg.of_result hr⟩
    | ok arrived limit =>
      generalize hb : (s.pending ++ arrived).take limit = bytes
      generalize hleft : (s.pending ++ arrived).drop limit = left
      rcases Nat.lt_or_ge s.room bytes.length with hroom | hroom
      · have hover := takeRead_of_overflow (s := { s with reads := as }) hb.symm hroom
        rw [awaitReads_cons_of_ended hp (by simp [hover]), hover] at hr
        simp at hr
      · have hstage := turn_afterRead_stage bytes left hwait
        rw [awaitReads_cons_of_fits as hp hb hleft hroom] at hx hr ⊢
        obtain ⟨answers, has, hend⟩ := ih (by rw [turn_par]; exact hcap) (hcap ▸ hstage) (by rw [turn_reads]; rfl) hx hr
        refine ⟨.ok arrived limit :: answers, congrArg _ has, ?_⟩
        rw [received, hb, hleft, ← List.append_assoc]
        rwa [turn_pending] at hend

theorem afterCollect_of_failed {t : State} {nexp k : Nat} {f : Failure} (h : CollectOutcome (.collect nexp) t)
    (hr : (afterCollect t).result = some (.failed f k)) : afterCollect t = t := by
  cases h with
  | runs _ _ hp => exact afterCollect_of_phase_ne_idle hp
  | took hseq hx' hp hv =>
    rw [afterCollect_of_collect hseq hp hv hx'] at hr
    simp at hr
  | ended hseq _ _ _ => exact afterCollect_of_seq_ne_collect (by simp [hseq])

/-- Settles O42: the first turn holds the unconsumed bytes, each read adds the bytes it returned, and a failure leaves
them held. -/
theorem collectFailureStates : Obligations.CollectFailureStates := by
  intro s t nexp k f hinv hseq hexec hr hx
  obtain ⟨-, hwf, -⟩ := (inv_iff.mp hinv).1.buffers
  obtain rfl := Host.Outcome.next.inj ((exec_collect_eq nexp hseq).symm.trans hexec)
  have hout : CollectOutcome (.collect nexp) (turn (collectBegun nexp s)) := collectOutcome_turn rfl rfl
  have hreads : (turn (collectBegun nexp s)).reads = s.reads := turn_reads _
  rw [goOnReading_of_reads hreads] at hr hx ⊢
  have hsame := afterCollect_of_failed (collectOutcome_awaitReads _ hout) hr
  rw [hsame] at hr hx ⊢
  obtain ⟨answers, has, hend, hk⟩ := awaitReads_failed (by rw [turn_par])
    (turn_stage (s := collectBegun nexp s) rfl (by simp [collectBegun]) (resync_collectBegun_holds nexp hwf)) hreads
    hx hr
  rw [turn_pending, collectBegun_pending] at hend
  exact ⟨hend.seq, hend.phase, hend.view, hk,
    ⟨answers, _, has, rfl, hend.holds.skipped, hend.holds.readLen, hend.holds.bytes⟩,
    hend.leaves⟩

/-! ## A packet after garbage -/

/-- Garbage that a collect skips whole: no `FF FF` in it and no `FF` at its end (42 R176). -/
structure Skippable (junk : List Byte) : Prop where
  noPrefix : ∀ i : Nat, ¬ (junk[i]? = some Config.hdr ∧ junk[i + 1]? = some Config.hdr)
  noLast : junk.getLast? ≠ some Config.hdr

/-- Of bytes without a prefix, at most a trailing lone `FF` is no garbage. -/
theorem length_drop_garbage_le_one {l : List Byte}
    (h : ∀ i : Nat, ¬ (l[i]? = some Config.hdr ∧ l[i + 1]? = some Config.hdr)) : (l.drop (garbage l)).length ≤ 1 := by
  by_contra hlen
  rw [List.length_drop] at hlen
  obtain ⟨h0, h1⟩ := drop_garbage_front l
  simp only [List.getElem?_drop, Nat.add_zero] at h0 h1
  refine h (garbage l) ⟨?_, ?_⟩
  · rw [List.getElem?_eq_getElem (by omega)] at h0 ⊢
    rw [h0 _ rfl]
  · rw [List.getElem?_eq_getElem (by omega)] at h1 ⊢
    rw [h1 _ rfl]

theorem Skippable.garbage_eq {junk : List Byte} (h : Skippable junk) : garbage junk = junk.length := by
  have hle := garbage_le_length junk
  have hone := length_drop_garbage_le_one h.noPrefix
  rw [List.length_drop] at hone
  by_contra hne
  obtain ⟨h0, -⟩ := drop_garbage_front junk
  refine h.noLast ?_
  rw [List.getElem?_drop, show garbage junk + 0 = junk.length - 1 by omega,
    List.getElem?_eq_getElem (by omega)] at h0
  rw [List.getLast?_eq_getElem?, List.getElem?_eq_getElem (by omega), h0 _ rfl]

theorem Skippable.garbage_append {junk : List Byte} (h : Skippable junk) (l : List Byte) :
    garbage (junk ++ l) = junk.length + garbage l := by
  rw [Machine.garbage_append, h.garbage_eq, List.drop_length, List.nil_append]

theorem garbage_of_part {packet l : List Byte} (hp : WholeMessage packet) (h : l <+: packet) : garbage l = 0 := by
  obtain ⟨r, rfl⟩ := h
  have hfront := garbage_of_front hp.front
  rw [Machine.garbage_append] at hfront
  omega

/-- While a message after garbage is not complete, what is left of it after its garbage is a lone byte at most, or a
part of the message. -/
theorem drop_garbage_of_part {junk packet all : List Byte} (hj : Skippable junk) (hp : WholeMessage packet)
    (h : all <+: junk ++ packet) (hne : all ≠ junk ++ packet) :
    (all.drop (garbage all)).length ≤ 1 ∨
      (all.drop (garbage all) <+: packet ∧ (all.drop (garbage all)).length < packet.length) := by
  rcases List.prefix_or_prefix_of_prefix h (List.prefix_append junk packet) with ⟨r, rfl⟩ | ⟨part, rfl⟩
  · refine .inl (length_drop_garbage_le_one fun i ⟨h0, h1⟩ => hj.noPrefix i ⟨?_, ?_⟩)
    · exact List.getElem?_append_left (List.getElem?_eq_some_iff.mp h0).1 ▸ h0
    · exact List.getElem?_append_left (List.getElem?_eq_some_iff.mp h1).1 ▸ h1
  · have hpart : part <+: packet := (List.prefix_append_right_inj junk).mp h
    rw [hj.garbage_append, garbage_of_part hp hpart, Nat.add_zero, List.drop_left]
    refine .inr ⟨hpart, lt_of_le_of_ne hpart.length_le fun hlen => hne ?_⟩
    rw [hpart.eq_of_length hlen]

section
variable {s : State} {junk packet all : List Byte}

/-- A turn that has heard a part of garbage and a message asks for more. -/
theorem turn_of_heard_part (hj : Skippable junk) (hp : WholeMessage packet) (hcap : packet.length ≤ s.par.capR)
    (h : all <+: junk ++ packet) (hne : all ≠ junk ++ packet) (hh : (resync s).Holds all) :
    turn s = issueRead { resync s with phase := .read } := by
  have hlen : (resync s).readLen = (all.drop (garbage all)).length := by rw [hh.readLen, List.length_drop]
  rcases drop_garbage_of_part hj hp h hne with hone | ⟨hpart, hlt⟩
  · exact turn_of_part (.inl (by omega))
  · rcases Nat.lt_or_ge (resync s).readLen 4 with h4 | h4
    · exact turn_of_part (.inl h4)
    · have hm : (resync s).messageLength = packet.length := by
        obtain ⟨later, rfl⟩ := hpart
        rw [State.messageLength, hh.read (by omega), hp.length, List.getD_append _ _ _ _ (by omega)]
      exact turn_of_part (.inr (by omega))

/-- What is held of garbage and a whole message (42 R176). -/
theorem State.Holds.message (hj : Skippable junk) (hp : WholeMessage packet) (h : s.Holds (junk ++ packet)) :
    s.skipped = junk.length ∧ s.readLen = packet.length ∧ s.rbuf.readBytes 0 packet.length = packet := by
  have hg : garbage (junk ++ packet) = junk.length := by
    rw [hj.garbage_append, garbage_of_front hp.front, Nat.add_zero]
  have hlen : s.readLen = packet.length := by rw [h.readLen, hg, List.length_append, Nat.add_sub_cancel_left]
  have hbytes := h.bytes
  rw [hlen, hg, List.drop_left] at hbytes
  exact ⟨h.skipped.trans hg, hlen, hbytes⟩

/-- A turn that has heard garbage and a whole message takes the message. -/
theorem turn_of_heard_whole (hj : Skippable junk) (hp : WholeMessage packet) (hcap : packet.length ≤ s.par.capR)
    (hh : (resync s).Holds (junk ++ packet)) :
    turn s = { resync s with used := packet.length, phase := .idle, view := some packet.length } := by
  obtain ⟨-, hlen, hbytes⟩ := hh.message hj hp
  have h4 : 4 ≤ packet.length := hp.verifies.1
  have h3 := Memory.getD_readBytes (resync s).rbuf 0 packet.length 3 (by omega)
  rw [hbytes, Nat.zero_add] at h3
  have hm : (resync s).messageLength = packet.length := by rw [State.messageLength, ← h3, ← hp.length]
  exact turn_of_verifies hm hlen.ge hcap (by rw [hbytes]; exact hp.verifies)

end

/-- A collect that has taken a message at the end of the stream `all`, its command `x` not ended yet. -/
structure State.Took (t : State) (x : Exchange) (m : Nat) (all : List Byte) : Prop where
  seq : t.seq = .collect
  phase : t.phase = .idle
  exchange : t.exchange = some x
  view : t.view = some m
  holds : t.Holds all

/-- The loop of a collect over reads that bring, in any chunks, the rest of garbage and a message (42 R176). -/
theorem awaitReads_of_chunks {s : State} {junk packet all : List Byte} {chunks : List (List Byte)} {x : Exchange}
    (rs : List ReadAnswer) (hj : Skippable junk) (hp : WholeMessage packet) (hcap : packet.length ≤ s.par.capR)
    (h : s.Reading all) (hseq : s.seq = .collect) (hx : s.exchange = some x) (hpend : s.pending = [])
    (hall : all ++ chunks.flatten = junk ++ packet) (hne : all ≠ junk ++ packet)
    (hfit : ∀ before c later, chunks = before ++ c :: later →
      c.length + ((all ++ before.flatten).drop (garbage (all ++ before.flatten))).length ≤ s.par.capR) :
    (awaitReads (chunks.map (fun c => .ok c c.length) ++ rs) s).Took x packet.length (junk ++ packet) := by
  induction chunks generalizing s all with
  | nil => exact absurd (by simpa using hall) hne
  | cons c chunks ih =>
    have hroom : c.length ≤ s.room := by
      have := hfit [] c chunks rfl
      rw [List.flatten_nil, List.append_nil, List.length_drop, ← h.holds.readLen] at this
      rw [State.room]
      omega
    rw [List.map_cons, List.cons_append, awaitReads_cons_of_fits (left := []) _ h.phase
      (by simp [hpend]) (by simp [hpend]) hroom]
    have hh := resync_afterRead_holds c [] (h.withReads (chunks.map (fun c => .ok c c.length) ++ rs)).holds h.used
    rw [List.flatten_cons, ← List.append_assoc] at hall
    by_cases hwhole : all ++ c = junk ++ packet
    · have hturn := turn_of_heard_whole hj hp (by exact hcap) (hwhole ▸ hh)
      rw [awaitReads_of_phase_ne_read (by simp [hturn]), hturn]
      exact ⟨hseq, rfl, hx, rfl, hwhole ▸ ⟨hh.wf, hh.skipped, hh.bytes⟩⟩
    · have hturn := turn_of_heard_part hj hp (by exact hcap) ⟨_, hall⟩ hwhole hh
      rw [hturn]
      refine ih hcap ⟨rfl, rfl, h.view, by simp [afterRead, hx], ⟨hh.wf, hh.skipped, hh.bytes⟩⟩ hseq hx rfl hall
        hwhole fun before c' later e => ?_
      have := hfit (c :: before) c' later (by rw [e, List.cons_append])
      rwa [List.flatten_cons, ← List.append_assoc] at this

/-- Settles O40: each read leaves the garbage so far counted and a part of the packet in front, until the packet is
whole. -/
theorem collectSkipsExactlyTheGarbage : Obligations.CollectSkipsExactlyTheGarbage := by
  intro s nexp junk id body chunks rs hseq hwf hl hu hpend hall hreads hpair hlast hlen hv hcap hfit
  have hj : Skippable junk := ⟨hpair, hlast⟩
  have hp := wholeMessage_responsePacket hlen hv
  have hturn := turn_of_no_tail (s := collectBegun nexp s) (hl.trans hu.symm)
  have hreading : (turn (collectBegun nexp s)).Reading [] := by
    rw [hturn]
    exact ⟨rfl, rfl, rfl, by simp [collectBegun], hwf, rfl, rfl⟩
  have htook := awaitReads_of_chunks (x := .collect nexp) rs hj hp (by simpa using hcap) hreading (by rw [hturn]; rfl)
    (by rw [hturn]; rfl) (by rw [turn_pending, collectBegun_pending, hpend]) hall (by simp [responsePacket])
    (by rw [turn_par]; exact hfit)
  obtain ⟨hskipped, -, hbytes⟩ := htook.holds.message hj hp
  rw [length_responsePacket] at htook hbytes
  refine ⟨_, exec_collect_eq nexp hseq, ?_⟩
  rw [goOnReading_of_reads (by rw [turn_reads, collectBegun_reads, hreads]),
    afterCollect_of_collect htook.seq htook.phase htook.view htook.exchange]
  exact ⟨by rw [State.deliver_result, hskipped], hskipped, htook.view, hbytes⟩

end Sys2Proof.Machine
end

section
/-! SUPPORT. How a command can begin, and that none waits for a transport that has answered every call;
`CommandsEndOnceReadsFail`. -/

namespace Sys2Proof.Machine

open Sys2Proof.Claims

/-! ## How a command begins -/

/-- What a command comes to from its start `s`: it ends at once, it is a request, or it is a collect (44 R231, R232;
42 R177). -/
inductive CommandOutcome (s t : State) : Prop where
  | ended (h : t.seq = .idle)
  | request (id ins : Byte) (params : List Byte) (nexp : Nat) (k : Kind) (h : t = requestBody id ins params nexp k s)
  | collect (nexp : Nat) (h : t = beginCollect nexp { s with exchange := some (.collect nexp) })

theorem readCommand_outcome (ref : RegRef) (id : Byte) {s : State} (h : s.seq = .idle) :
    CommandOutcome { s with view := none } (readCommand ref id s) := by
  rw [readCommand, command_of_idle h]
  split
  · exact .ended rfl
  · exact .request _ _ _ _ _ rfl

theorem writeValue_outcome (r : RegDesc) (op : InsName) (id : Byte) (v : Word32) (s : State) :
    CommandOutcome s (writeValue r op id v s) := by
  rw [writeValue]
  split
  · exact .ended rfl
  · exact .ended rfl
  · exact .request _ _ _ _ _ rfl

theorem writeCommand_outcome (ref : RegRef) (id : Byte) (v : Word32) {s : State} (h : s.seq = .idle) :
    CommandOutcome { s with view := none } (writeCommand ref id v s) := by
  rw [writeCommand, command_of_idle h]
  split
  · exact .ended rfl
  · split
    · exact writeValue_outcome _ _ _ _ _
    · exact .ended rfl

theorem mwriteCommand_outcome (cls : RegClass) (id : Byte) (es : List Entry) {s : State} (h : s.seq = .idle) :
    CommandOutcome { s with view := none } (mwriteCommand cls id es s) := by
  rw [mwriteCommand, command_of_idle h]
  split
  · exact .ended rfl
  · exact .request _ _ _ _ _ rfl

theorem encodeBody_seq (id ins : Byte) (params : List Byte) (s : State) : (encodeBody id ins params s).seq = .idle := by
  rw [encodeBody]
  split <;> rfl

theorem setBaudBody_seq (b : Word32) (s : State) : (setBaudBody b s).seq = .idle := by
  rw [setBaudBody]
  split <;> rfl

/-- Every instruction of an idle block ends at once, is a request, or is a collect; an arrival leaves the block idle. -/
theorem exec_outcome {i : Instr} {s t : State} (h : s.seq = .idle) (e : exec i s = .next t) :
    CommandOutcome { s with view := none } t := by
  have answers (r : State → Result) : CommandOutcome { s with view := none } (s.command fun u => u.deliver (r u)) :=
    .ended (by rw [command_of_idle h]; rfl)
  cases i <;> cases e
  case insPing | insReadStatus | insWriteStatus | insReadConfig | insWriteConfig | insSaveConfig | insBulkComm |
    decodeIns => exact answers fun u => .instruction (u.par.opc.decodeIns _)
  case checksum d => exact answers fun _ => .byte (Sys2Proof.checksum d)
  case ttime size => exact answers fun u => .micros (transferTime u.baud size)
  case ping | save => exact .request _ _ _ _ _ (request_of_idle _ _ _ _ _ h)
  case readStatus | readConfig | readReg => exact readCommand_outcome _ _ h
  case writeStatus1 | writeStatus2 | writeStatus4 | writeConfig1 | writeConfig2 | writeConfig4 | writeReg =>
    exact writeCommand_outcome _ _ _ h
  case mwriteConfig | mwriteStatus => exact mwriteCommand_outcome _ _ _ h
  case encodeRaw => exact .ended (by rw [command_of_idle h, encodeBody_seq])
  case setBaud => exact .ended (by rw [command_of_idle h, setBaudBody_seq])
  case collect nexp => exact .collect nexp (command_of_idle h)
  case response => exact .ended (by rw [receive_of_not_reading _ (by simp [h]), h])

/-! ## A transport that answers every call -/

/-- A collect to which some read is answered with an error does not wait for one (42 R162). -/
theorem awaitReads_phase_ne_read {as : List ReadAnswer} (s : State)
    (h : ∃ e timedOut, ReadAnswer.err e timedOut ∈ as) : (awaitReads as s).phase ≠ .read := by
  induction as generalizing s with
  | nil => simp at h
  | cons a as ih =>
    by_cases hp : s.phase = .read
    swap
    · rwa [awaitReads_of_phase_ne_read hp]
    rcases takeRead_phase a { s with reads := as } with hr | hi
    · rw [awaitReads_cons_of_resync hp hr]
      refine ih _ ?_
      obtain ⟨e, timedOut, hmem⟩ := h
      rcases List.mem_cons.mp hmem with rfl | hmem
      · rw [takeRead_err] at hr
        simp at hr
      · exact ⟨e, timedOut, hmem⟩
    · rw [awaitReads_cons_of_ended hp (by simp [hi])]
      simp [hi]

/-- The command has ended, or is in a collect that waits for no read. -/
def State.Unblocked (t : State) : Prop := t.seq = .idle ∨ (t.seq = .collect ∧ t.phase ≠ .read)

/-- Under the invariant only an idle block waits for nothing. -/
theorem State.Unblocked.idle {t : State} (h : t.Unblocked) (hinv : t.Inv) :
    t.seq = .idle ∧ t.phase = .idle ∧ t.exchange = none := by
  rcases State.controlOk_iff.mp (inv_iff.mp hinv).2 with ⟨hseq, hx, hp⟩ | ⟨hseq, -⟩ | ⟨hseq, -⟩ | ⟨hseq, -, -, hp, -⟩
  · exact ⟨hseq, hp, hx⟩
  · simp [State.Unblocked, hseq] at h
  · simp [State.Unblocked, hseq] at h
  · simp [State.Unblocked, hseq, hp] at h

/-- The transport has answered the discard and the write, and some read with an error. -/
structure State.Answered (s : State) : Prop where
  discards : s.discards ≠ []
  writes : s.writes ≠ []
  reads : ∃ e timedOut, ReadAnswer.err e timedOut ∈ s.reads

theorem beginCollect_unblocked (nexp : Nat) {s : State} {x : Exchange} (hx : s.exchange = some x)
    (h : ∃ e timedOut, ReadAnswer.err e timedOut ∈ s.reads) : (beginCollect nexp s).Unblocked := by
  have hreads : (turn (collectStart nexp { s with seq := .collect })).reads = s.reads := turn_reads _
  have hruns : CollectRuns s.inbox x (turn (collectStart nexp { s with seq := .collect })) := turn_runs rfl rfl hx
  rw [beginCollect, goOnReading_of_reads hreads]
  generalize turn (collectStart nexp { s with seq := .collect }) = t at hruns
  obtain ⟨-, hend⟩ := awaitReads_runs s.reads hruns
  rcases afterCollect_cases (awaitReads s.reads t) with e | ⟨hseq, -⟩
  · rw [e]
    exact hend.imp And.left fun hc => ⟨hc.1, awaitReads_phase_ne_read t h⟩
  · exact .inl hseq

theorem takeWrite_unblocked (nexp : Nat) {s : State} {x : Exchange} (hx : s.exchange = some x) (h : s.writes ≠ [])
    (hr : ∃ e timedOut, ReadAnswer.err e timedOut ∈ s.reads) : (takeWrite nexp s).Unblocked := by
  rcases hw : s.writes with _ | ⟨_ | e, ws⟩
  · exact absurd hw h
  · rw [takeWrite_ok hw]
    exact beginCollect_unblocked nexp hx hr
  · rw [takeWrite_err hw]
    exact .inl rfl

theorem prewriteReset_unblocked (nexp k : Nat) {s : State} {x : Exchange} (hx : s.exchange = some x)
    (h : s.Answered) : (prewriteReset nexp k s).Unblocked := by
  rcases hd : s.discards with _ | ⟨_ | ⟨e, left⟩, ds⟩
  · exact absurd hd h.discards
  · rw [prewriteReset_ok hd]
    exact takeWrite_unblocked nexp hx h.writes h.reads
  · rw [prewriteReset_err hd]
    exact .inl rfl

theorem requestBody_unblocked (id ins : Byte) (params : List Byte) (nexp : Nat) (k : Kind) {s : State}
    (h : s.Answered) : (requestBody id ins params nexp k s).Unblocked := by
  rcases requestBody_cases id ins params nexp k s with ⟨f, -, e⟩ | ⟨w, -, e⟩ <;> rw [e]
  · exact .inl rfl
  · exact prewriteReset_unblocked nexp _ rfl ⟨h.discards, h.writes, h.reads⟩

/-- Settles O43: each call is answered, the loop of the collect ends at the error, and under the invariant a block that
waits for nothing is idle. -/
theorem commandsEndOnceReadsFail : Obligations.CommandsEndOnceReadsFail := by
  intro s t i hinv hseq hd hw hr hexec
  refine State.Unblocked.idle ?_ (exec_inv hexec hinv)
  cases exec_outcome hseq hexec with
  | ended h => exact .inl h
  | request id ins params nexp k h => exact h ▸ requestBody_unblocked id ins params nexp k ⟨hd, hw, hr⟩
  | collect nexp h => exact h ▸ beginCollect_unblocked nexp rfl hr

end Sys2Proof.Machine
end

section
/-! SUPPORT. The instruction decoder as the inverse of the encoder, and its command; `InstructionDecoderInvertsEncoder`
and `DecodeInsCommandAnswers`. -/

namespace Sys2Proof

/-- The instruction decoder answers `Unknown` for a byte of no name (43 R210). -/
theorem Opc.decodeIns_of_forall_ne {o : Opc} {b : Byte} (h : ∀ x, o.byteOf x ≠ b) : o.decodeIns b = .unknown b := by
  have hne (x : InsName) : b ≠ o.byteOf x := (h x).symm
  rw [Opc.decodeIns_eq]
  simp only [hne, if_false]

/-- A byte is named only if it is the byte of that name (43 R210, R211). -/
theorem Opc.byteOf_of_decodeIns {o : Opc} (h : o.distinct) {b : Byte} {x : InsName} (hx : o.decodeIns b = .known x) :
    o.byteOf x = b := by
  by_cases hb : ∃ y, o.byteOf y = b
  · obtain ⟨y, rfl⟩ := hb
    rw [Opc.decodeIns_byteOf h] at hx
    cases hx
    rfl
  · rw [Opc.decodeIns_of_forall_ne (not_exists.mp hb)] at hx
    cases hx

/-- Settles O2. -/
theorem instructionDecoderInvertsEncoder : Obligations.InstructionDecoderInvertsEncoder := fun _ h =>
  ⟨⟨rfl, rfl, rfl, rfl, rfl, rfl, rfl⟩, Opc.decodeIns_byteOf h, fun _ _ => Opc.byteOf_of_decodeIns h,
    fun _ => Opc.decodeIns_of_forall_ne⟩

end Sys2Proof

namespace Sys2Proof.Machine

open Sys2Proof.Claims

/-- Settles O22. -/
theorem decodeInsCommandAnswers : Obligations.DecodeInsCommandAnswers := by
  intro s b h
  have hrun : decodeByte b s = answered s (.instruction (s.par.opc.decodeIns b)) := by
    rw [decodeByte, command_of_idle h, deliver_of_idle h]
  exact congrArg Host.Outcome.next hrun

end Sys2Proof.Machine
end

section
/-! SUPPORT. The register table: what its checks say of it, and what a reference finds in it; `RegisterTableChecks` and
`LookupFindsTheDescriptor`. -/

namespace Sys2Proof

open Sys2Proof.Claims

/-! ## The checks -/

/-- The checks of 43 R201 on a descriptor by itself. -/
def RegDesc.Sound (d : RegDesc) : Prop :=
  d.readOp = d.cls.readOp ∧
    (d.access = .rw → d.writeOp = some d.cls.writeOp) ∧ (d.access = .ro → d.writeOp = none) ∧
    (d.width = 1 ∨ d.width = 2 ∨ d.width = 4) ∧ (d.kind = .f32 → d.width = 4)

/-- No two descriptors share both class and address (43 R201). -/
def RegDesc.Apart (d e : RegDesc) : Prop := ¬ (d.cls = e.cls ∧ d.addr = e.addr)

theorem RegDesc.writeOpOk_iff (d : RegDesc) :
    d.writeOpOk = true ↔
      (d.access = .rw → d.writeOp = some d.cls.writeOp) ∧ (d.access = .ro → d.writeOp = none) := by
  rw [RegDesc.writeOpOk]
  cases d.access <;> simp

/-- A check that fails is answered at once, so no answer means that each passed in turn: the descriptor is sound by
itself and apart from those before it. -/
theorem RegDesc.failedCheck_eq_none_iff (earlier : List RegDesc) (d : RegDesc) :
    d.failedCheck earlier = none ↔ d.Sound ∧ ∀ e ∈ earlier, e.Apart d := by
  simp only [RegDesc.failedCheck, RegDesc.Sound, RegDesc.Apart, ite_eq_iff, reduceCtorEq, and_false, and_true, false_or]
  simp [RegDesc.writeOpOk_iff, and_assoc, or_iff_not_imp_left]

theorem checkRegsAfter_eq_none_iff (earlier regs : List RegDesc) :
    checkRegsAfter earlier regs = none ↔
      (∀ d ∈ regs, d.Sound) ∧ (∀ e ∈ earlier, ∀ d ∈ regs, e.Apart d) ∧ regs.Pairwise RegDesc.Apart := by
  induction regs generalizing earlier with
  | nil => simp [checkRegsAfter]
  | cons d ds ih =>
    have hcons : checkRegsAfter earlier (d :: ds) = none ↔
        d.failedCheck earlier = none ∧ checkRegsAfter (earlier ++ [d]) ds = none := by
      rw [checkRegsAfter]
      cases d.failedCheck earlier <;> simp
    rw [hcons, ih, RegDesc.failedCheck_eq_none_iff]
    simp only [List.forall_mem_cons, List.forall_mem_append, List.pairwise_cons, forall₂_and]
    tauto

/-- Settles O18. -/
theorem registerTableChecks : Obligations.RegisterTableChecks := by
  intro regs
  have hstart : (∀ e ∈ ([] : List RegDesc), ∀ d ∈ regs, e.Apart d) ↔ True := by simp
  rw [checkRegs, checkRegsAfter_eq_none_iff, hstart, true_and]
  rfl

/-! ## The lookup -/

@[simp] theorem RegRef.matches_named (name : RegName) (d : RegDesc) :
    (RegRef.named name).matches d = true ↔ d.name = name := beq_iff_eq

@[simp] theorem RegRef.matches_located (cls : RegClass) (a : Byte) (d : RegDesc) :
    (RegRef.located cls a).matches d = true ↔ d.cls = cls ∧ d.addr = a := by simp [RegRef.matches]

theorem Params.lookup_eq_none_iff (p : Params) (ref : RegRef) :
    p.lookup ref = none ↔ ∀ d ∈ p.regs, ¬ ref.matches d = true := List.find?_eq_none

theorem Params.of_lookup {p : Params} {ref : RegRef} {d : RegDesc} (h : p.lookup ref = some d) :
    d ∈ p.regs ∧ ref.matches d = true := ⟨List.mem_of_find?_eq_some h, List.find?_some h⟩

/-- A descriptor that alone answers to a reference is found. -/
theorem Params.lookup_of_unique {p : Params} {ref : RegRef} {d : RegDesc} (hd : d ∈ p.regs)
    (hm : ref.matches d = true) (hu : ∀ e ∈ p.regs, ref.matches e = true → e = d) : p.lookup ref = some d := by
  cases he : p.lookup ref with
  | none => exact absurd hm ((p.lookup_eq_none_iff ref).mp he d hd)
  | some e =>
    obtain ⟨hmem, hmatch⟩ := Params.of_lookup he
    rw [hu e hmem hmatch]

theorem Params.lookup_of_onlyMatch {p : Params} {ref : RegRef} {d : RegDesc} (h : OnlyMatch p ref d) :
    p.lookup ref = some d := by
  obtain ⟨hd, h⟩ := h
  cases ref with
  | named name =>
    obtain ⟨hm, hu⟩ := h
    exact Params.lookup_of_unique hd (by simpa using hm) (by simpa using hu)
  | located cls a =>
    obtain ⟨hm, hu⟩ := h
    exact Params.lookup_of_unique hd (by simpa using hm) (by simpa using hu)

/-- In a table that passes its checks a class and an address belong to one descriptor (43 R201). -/
theorem eq_of_checkRegs {regs : List RegDesc} (h : checkRegs regs = none) {d e : RegDesc} (hd : d ∈ regs)
    (he : e ∈ regs) (hcls : e.cls = d.cls) (haddr : e.addr = d.addr) : e = d := by
  obtain ⟨-, -, hpair⟩ := (checkRegsAfter_eq_none_iff [] regs).mp h
  have hsymm : Std.Symm RegDesc.Apart := ⟨fun _ _ hn ⟨hcls, haddr⟩ => hn ⟨hcls.symm, haddr.symm⟩⟩
  by_contra hne
  exact hpair.forall he hd hne ⟨hcls, haddr⟩

/-- Settles O19. -/
theorem lookupFindsTheDescriptor : Obligations.LookupFindsTheDescriptor := by
  intro p
  refine ⟨fun name => ?_, fun cls a => ?_, fun name d h => ?_, fun cls a d h => ?_, fun ref d => ?_,
    fun h d hd => ?_⟩
  · simp only [Params.lookup_eq_none_iff, RegRef.matches_named, ne_eq]
  · simp only [Params.lookup_eq_none_iff, RegRef.matches_located]
  · simpa using Params.of_lookup h
  · simpa using Params.of_lookup h
  · exact Params.lookup_of_onlyMatch
  · exact Params.lookup_of_onlyMatch ⟨hd, ⟨rfl, rfl⟩, fun _ he => eq_of_checkRegs h hd he⟩

end Sys2Proof
end

section
/-! SUPPORT. The register value codec, case by case, and its byte order; `CodecEncodesAndDecodes` and
`CodecRoundTrip`. -/

namespace Sys2Proof

/-! ## The byte order -/

theorem toNat_getD_leBytes {n v i : Nat} (h : i < n) : ((leBytes n v).getD i 0).toNat = v / 256 ^ i % 256 := by
  induction i generalizing n v with
  | zero =>
    cases n with
    | zero => omega
    | succ n => simp [leBytes]
  | succ i ih =>
    cases n with
    | zero => omega
    | succ n => rw [leBytes, List.getD_cons_succ, ih (by omega), Nat.div_div_eq_div_mul, ← Nat.pow_succ']

theorem fromLe_eq_sum (bs : List Byte) :
    fromLe bs = ((List.range bs.length).map fun i => (bs.getD i 0).toNat * 256 ^ i).sum := by
  induction bs with
  | nil => rfl
  | cons b bs ih =>
    have hshift (i : Nat) : 256 * ((bs.getD i 0).toNat * 256 ^ i) = (bs.getD i 0).toNat * 256 ^ (i + 1) := by ring
    rw [fromLe, ih, List.length_cons, List.range_succ_eq_map, List.map_cons, List.map_map, List.sum_cons,
      ← List.sum_map_mul_left]
    simp only [hshift, Function.comp_def, Nat.succ_eq_add_one, List.getD_cons_zero, List.getD_cons_succ,
      pow_zero, mul_one]

theorem ofNat_fromLe_leBytes_of_lt {v : Word32} {n : Nat} (h : v.toNat < 2 ^ (8 * n)) :
    BitVec.ofNat 32 (fromLe (leBytes n v.toNat)) = v := by
  rw [pow_mul] at h
  rw [fromLe_leBytes h, BitVec.ofNat_toNat, BitVec.setWidth_eq]

end Sys2Proof

namespace Sys2Proof.Machine

/-! ## The encoder of values -/

section
variable {r : RegDesc} {v : Word32} {n : Nat}

theorem encodeValue_of_short (h : n < r.width) :
    encodeValue r v n = .error (.failure (.bufferTooSmall r.width n .registerEncode)) := if_pos h

theorem encodeValue_of_outOfRange (hn : r.width ≤ n) (hk : r.kind = .u32) (hv : 2 ^ (8 * r.width) ≤ v.toNat) :
    encodeValue r v n = .error (.refusal (.valueOutOfRange r.name v.toNat)) := by
  rw [encodeValue, if_neg (Nat.not_lt.mpr hn), hk]
  exact if_pos hv

theorem encodeValue_u32 (hn : r.width ≤ n) (hk : r.kind = .u32) (hv : v.toNat < 2 ^ (8 * r.width)) :
    encodeValue r v n = .ok (leBytes r.width v.toNat) := by
  rw [encodeValue, if_neg (Nat.not_lt.mpr hn), hk]
  exact if_neg (Nat.not_le.mpr hv)

theorem encodeValue_f32 (hn : r.width ≤ n) (hk : r.kind = .f32) : encodeValue r v n = .ok (leBytes 4 v.toNat) := by
  rw [encodeValue, if_neg (Nat.not_lt.mpr hn), hk]

/-- A `U32` register takes a value exactly when its width holds it (43 R204). -/
theorem encodeValue_u32_eq_ok_iff {bs : List Byte} (hk : r.kind = .u32) :
    encodeValue r v r.width = .ok bs ↔ v.toNat < 2 ^ (8 * r.width) ∧ leBytes r.width v.toNat = bs := by
  rcases Nat.lt_or_ge v.toNat (2 ^ (8 * r.width)) with hv | hv
  · simp [encodeValue_u32 le_rfl hk hv, hv]
  · simp [encodeValue_of_outOfRange le_rfl hk hv, Nat.not_lt.mpr hv]

end

/-! ## The decoder of values -/

section
variable {r : RegDesc} {bs : List Byte}

theorem decodeValue_of_length_ne (h : bs.length ≠ r.width) :
    decodeValue r bs = .error (.invalidParameterCount r.width bs.length) := if_pos h

theorem decodeValue_u32 (h : bs.length = r.width) (hk : r.kind = .u32) :
    decodeValue r bs = .ok (.u32 (BitVec.ofNat 32 (fromLe bs))) := by
  rw [decodeValue, if_neg (not_not_intro h), hk]

theorem decodeValue_f32 (h : bs.length = r.width) (hk : r.kind = .f32) :
    decodeValue r bs = .ok (.f32 (BitVec.ofNat 32 (fromLe bs))) := by
  rw [decodeValue, if_neg (not_not_intro h), hk]

end

/-- Settles O29. -/
theorem codecEncodesAndDecodes : Obligations.CodecEncodesAndDecodes :=
  ⟨fun n v => ⟨length_leBytes n v, fun _ => toNat_getD_leBytes⟩, fromLe_eq_sum, fun _ _ _ _ =>
    ⟨encodeValue_of_short, encodeValue_of_outOfRange, encodeValue_u32, encodeValue_f32, decodeValue_of_length_ne,
      decodeValue_u32, decodeValue_f32⟩⟩

/-! ## The round trip -/

section
variable {r : RegDesc} {v : Word32} {bs : List Byte}

theorem decodeValue_encodeValue_u32 (hk : r.kind = .u32) (h : encodeValue r v r.width = .ok bs) :
    decodeValue r bs = .ok (.u32 v) := by
  obtain ⟨hv, rfl⟩ := (encodeValue_u32_eq_ok_iff hk).mp h
  rw [decodeValue_u32 (length_leBytes _ _) hk, ofNat_fromLe_leBytes_of_lt hv]

theorem decodeValue_encodeValue_f32 (hk : r.kind = .f32) (hw : r.width = 4) (h : encodeValue r v r.width = .ok bs) :
    decodeValue r bs = .ok (.f32 v) := by
  rw [encodeValue_f32 le_rfl hk] at h
  cases h
  rw [decodeValue_f32 ((length_leBytes _ _).trans hw.symm) hk, ofNat_fromLe_leBytes (w := 32) (n := 4) rfl]

end

/-- Settles O28. -/
theorem codecRoundTrip : Obligations.CodecRoundTrip := by
  intro r v _ hf
  refine ⟨fun bs h => ?_, fun hk => ?_, fun hk => ⟨_, encodeValue_f32 le_rfl hk⟩⟩
  · cases hk : r.kind with
    | u32 => exact decodeValue_encodeValue_u32 hk h
    | f32 => exact decodeValue_encodeValue_f32 hk (hf hk) h
  · rw [Nat.le_sub_one_iff_lt (Nat.two_pow_pos _)]
    simp [encodeValue_u32_eq_ok_iff hk]

end Sys2Proof.Machine
end

section
/-! SUPPORT. What the request commands do with operands they refuse; `OperandRefusals`. -/

namespace Sys2Proof.Machine

open Sys2Proof.Claims

/-- A command in an idle state that is refused (44 R231; 60 R305). -/
theorem refuse_of_idle {s : State} (h : s.seq = .idle) (r : RefusalInfo) :
    { s with view := none }.refuse r = turnedAway s r := by
  rw [State.refuse, deliver_of_idle h, turnedAway]

section
variable {s : State} {ref : RegRef} {r : RegDesc} (hseq : s.seq = .idle)
include hseq

theorem readCommand_of_unknown (id : Byte) (hl : s.par.lookup ref = none) :
    readCommand ref id s = turnedAway s (.unknownRegister ref) := by
  rw [readCommand, command_of_idle hseq]
  simp only [hl, refuse_of_idle hseq]

theorem writeCommand_of_unknown (id : Byte) (v : Word32) (hl : s.par.lookup ref = none) :
    writeCommand ref id v s = turnedAway s (.unknownRegister ref) := by
  rw [writeCommand, command_of_idle hseq]
  simp only [hl, refuse_of_idle hseq]

theorem writeCommand_of_readOnly (id : Byte) (v : Word32) (hl : s.par.lookup ref = some r) (hr : r.access = .ro) :
    writeCommand ref id v s = turnedAway s (.notWritable r.name) := by
  rw [writeCommand, command_of_idle hseq]
  simp only [hl, hr, refuse_of_idle hseq]

theorem writeCommand_of_outOfRange {op : InsName} {v : Word32} (id : Byte) (hl : s.par.lookup ref = some r)
    (hr : r.access = .rw) (hop : r.writeOp = some op) (hk : r.kind = .u32) (hv : 2 ^ (8 * r.width) ≤ v.toNat) :
    writeCommand ref id v s = turnedAway s (.valueOutOfRange r.name v.toNat) := by
  rw [writeCommand, command_of_idle hseq]
  simp only [hl, hr, hop, writeValue, encodeValue_of_outOfRange le_rfl hk hv, refuse_of_idle hseq]

theorem mwriteCommand_of_badEntry {es : List Entry} {i : Nat} (cls : RegClass) (id : Byte)
    (h : badEntry es = some i) : mwriteCommand cls id es s = turnedAway s (.badEntry i) := by
  rw [mwriteCommand, command_of_idle hseq]
  simp only [h, refuse_of_idle hseq]

end

/-- The first entry that is not 4 bytes long is found, however many good ones come before it. -/
theorem badEntryFrom_append (i : Nat) {good : List Entry} {bad : Entry} (es : List Entry)
    (hgood : ∀ e ∈ good, e.val.length = 4) (hbad : bad.val.length ≠ 4) :
    badEntryFrom i (good ++ bad :: es) = some (good.length + i) := by
  induction good generalizing i with
  | nil => rw [List.nil_append, badEntryFrom, if_pos hbad, List.length_nil, Nat.zero_add]
  | cons e good ih =>
    obtain ⟨he, hgood⟩ := List.forall_mem_cons.mp hgood
    rw [List.cons_append, badEntryFrom, if_neg (not_not_intro he), ih _ hgood, List.length_cons, Nat.add_right_comm,
      Nat.add_assoc]

/-- Settles O54: each row and each pseudo-instruction is the command of its reference, and a narrow row extends its
value to 32 bits. -/
theorem operandRefusals : Obligations.OperandRefusals := by
  intro s id a name v1 v2 v hseq
  obtain ⟨hnamed, hlocated, -, -, honly, -⟩ := lookupFindsTheDescriptor s.par
  have hv1 : (v1.setWidth 32).toNat = v1.toNat := BitVec.toNat_setWidth_of_le (by decide)
  have hv2 : (v2.setWidth 32).toNat = v2.toNat := BitVec.toNat_setWidth_of_le (by decide)
  have noRead {i : Instr} {ref : RegRef} (hi : exec i s = .next (readCommand ref id s))
      (hl : s.par.lookup ref = none) : exec i s = .next (turnedAway s (.unknownRegister ref)) := by
    rw [hi, readCommand_of_unknown hseq id hl]
  have noWrite {i : Instr} {ref : RegRef} {u : Word32} (hi : exec i s = .next (writeCommand ref id u s))
      (hl : s.par.lookup ref = none) : exec i s = .next (turnedAway s (.unknownRegister ref)) := by
    rw [hi, writeCommand_of_unknown hseq id u hl]
  have readOnly {i : Instr} {ref : RegRef} {r : RegDesc} {u : Word32}
      (hi : exec i s = .next (writeCommand ref id u s)) (hr : r.access = .ro) (hm : OnlyMatch s.par ref r) :
      exec i s = .next (turnedAway s (.notWritable r.name)) := by
    rw [hi, writeCommand_of_readOnly hseq id u (honly ref r hm) hr]
  have wrongLength {i : Instr} {cls : RegClass} {good es : List Entry} {bad : Entry}
      (hi : exec i s = .next (mwriteCommand cls id (good ++ bad :: es) s)) (hgood : ∀ e ∈ good, e.val.length = 4)
      (hbad : bad.val.length ≠ 4) : exec i s = .next (turnedAway s (.badEntry (good.length + 1))) := by
    rw [hi, mwriteCommand_of_badEntry hseq cls id (badEntryFrom_append 1 es hgood hbad)]
  simp only [List.forall_mem_cons, List.not_mem_nil, false_implies, implies_true, and_true]
  refine ⟨fun h => ?name, fun h => ?status, fun h => ?config, fun r hr => ?readOnly, fun r op hr hop hk => ?range,
    fun good bad es hgood hbad => ⟨wrongLength rfl hgood hbad, wrongLength rfl hgood hbad⟩⟩
  case name =>
    have hl := (hnamed name).mpr h
    exact ⟨noRead rfl hl, noWrite rfl hl⟩
  case status | config =>
    have hl := (hlocated _ a).mpr h
    exact ⟨noRead rfl hl, noWrite rfl hl, noWrite rfl hl, noWrite rfl hl⟩
  case readOnly =>
    exact ⟨readOnly rfl hr, fun hm => ⟨readOnly rfl hr hm, readOnly rfl hr hm, readOnly rfl hr hm⟩,
      fun hm => ⟨readOnly rfl hr hm, readOnly rfl hr hm, readOnly rfl hr hm⟩⟩
  case range =>
    have tooWide {i : Instr} {ref : RegRef} {u : Word32} {n : Nat}
        (hi : exec i s = .next (writeCommand ref id u s)) (hn : u.toNat = n) (hm : OnlyMatch s.par ref r)
        (hv : 2 ^ (8 * r.width) ≤ n) : exec i s = .next (turnedAway s (.valueOutOfRange r.name n)) := by
      subst hn
      rw [hi, writeCommand_of_outOfRange hseq id (honly ref r hm) hr hop hk hv]
    exact ⟨tooWide rfl rfl, fun hm => ⟨tooWide rfl hv1 hm, tooWide rfl hv2 hm, tooWide rfl rfl hm⟩,
      fun hm => ⟨tooWide rfl hv1 hm, tooWide rfl hv2 hm, tooWide rfl rfl hm⟩⟩

end Sys2Proof.Machine
end

section
/-! SUPPORT. The bus operations that need no operand checks of their own: how the flag byte of a reply is classified,
`PING`, `SAVE` and `SETBAUD`; `FlagClassification`, `PingExchange`, `SaveExchange` and `SetBaudSetsBaudOrRefusesZero`. -/

namespace Sys2Proof.Machine

open Sys2Proof.Claims

/-! ## The masks -/

theorem bit_eq_twoPow (i : Fin 8) : bit i = BitVec.twoPow 8 i :=
  BitVec.eq_of_toNat_eq (by rw [bit, BitVec.toNat_ofNat, BitVec.toNat_twoPow])

theorem toNat_bit (i : Fin 8) : (bit i).toNat = 2 ^ i.val := by
  rw [bit_eq_twoPow, BitVec.toNat_twoPow_of_lt i.isLt]

theorem getLsbD_bit (i j : Fin 8) : (bit i).getLsbD j = decide (j = i) := by
  simp [bit_eq_twoPow, Fin.ext_iff, eq_comm]

/-- `WARNING_MASK` has the bits of communication and overheat (00 R9). -/
theorem getLsbD_warningMask (p : Params) (j : Fin 8) :
    (warningMask p).getLsbD j = decide (j = p.flagBit.communication ∨ j = p.flagBit.overheat) := by
  rw [warningMask, BitVec.getLsbD_or, getLsbD_bit, getLsbD_bit, Bool.decide_or]

/-- The default `ERROR_MASK` has all the other bits (00 R9; 92 D5). -/
theorem getLsbD_defaultErrorMask (p : Params) (j : Fin 8) :
    (defaultErrorMask p).getLsbD j = decide (j ≠ p.flagBit.communication ∧ j ≠ p.flagBit.overheat) := by
  rw [defaultErrorMask, BitVec.getLsbD_not, getLsbD_warningMask]
  simp

/-- A byte with no bit of the default `ERROR_MASK` lies inside `WARNING_MASK` (44 R241). -/
theorem and_warningMask_of_default {p : Params} {f : Byte} (h : f &&& defaultErrorMask p = 0) :
    f &&& warningMask p = f :=
  calc f &&& warningMask p
    _ = (f &&& warningMask p) ||| (f &&& defaultErrorMask p) := by rw [h]; exact BitVec.or_zero.symm
    _ = f &&& (warningMask p ||| ~~~warningMask p) := BitVec.and_or_distrib_left.symm
    _ = f := by rw [BitVec.or_not_self, BitVec.and_allOnes]

/-! ## The classification -/

theorem classify_of_error {p : Params} {f : Byte} (h : f &&& p.errorMask ≠ 0) :
    classify p f = .error (.motorError f) := if_pos h

theorem classify_of_warning {p : Params} {f : Byte} (he : f &&& p.errorMask = 0) (hw : f &&& warningMask p ≠ 0) :
    classify p f = .ok (some (f &&& warningMask p)) := (if_neg (not_not_intro he)).trans (if_pos hw)

theorem classify_of_clear {p : Params} {f : Byte} (he : f &&& p.errorMask = 0) (hw : f &&& warningMask p = 0) :
    classify p f = .ok none := (if_neg (not_not_intro he)).trans (if_neg (not_not_intro hw))

/-- Settles O27: under the default `ERROR_MASK` what the error mask leaves of a byte is what the warning mask picks. -/
theorem flagClassification : Obligations.FlagClassification := by
  refine ⟨toNat_bit, fun p j => ⟨getLsbD_warningMask p j, getLsbD_defaultErrorMask p j⟩,
    fun _ _ => ⟨classify_of_error, classify_of_warning, classify_of_clear⟩, fun p f hmask he => ?_⟩
  have hw : f &&& warningMask p = f := and_warningMask_of_default (hmask ▸ he)
  by_cases hf : f = 0
  · rw [if_pos hf, classify_of_clear he (hw.trans hf)]
  · rw [if_neg hf, classify_of_warning he (hw.symm ▸ hf), hw]

/-! ## `PING` and `SAVE` -/

theorem makesRequest_ping (p : Params) (id : Byte) : MakesRequest p (.ping id) id p.opc.ping [] 4 .ping :=
  makesRequest_of_expects ⟨rfl, rfl, rfl⟩ ⟨rfl, rfl⟩

theorem makesRequest_save (p : Params) (id : Byte) : MakesRequest p (.save id) id p.opc.saveConfig [] 0 .ack :=
  makesRequest_of_expects ⟨rfl, rfl, rfl⟩ ⟨rfl, rfl⟩

/-- Settles O45: `PING` is a request without parameters, for four response parameters. -/
theorem pingExchange : Obligations.PingExchange := by
  intro s id id' body limit ds ws rs h hcapW hbody hv
  exact exchanges_of_makesRequest (makesRequest_ping s.par id) h hcapW (by decide) hbody hv

/-- Settles O49: `SAVE` is a request without parameters, for an empty reply. -/
theorem saveExchange : Obligations.SaveExchange := by
  intro s id id' body limit ds ws rs h hcapW hbody hv
  exact exchanges_of_makesRequest (makesRequest_save s.par id) h hcapW (by decide) hbody hv

/-! ## `SETBAUD` -/

theorem exec_setBaud_of_idle (b : Word32) {s : State} (h : s.seq = .idle) :
    exec (.setBaud b) s = .next (setBaudBody b { s with view := none }) :=
  congrArg Host.Outcome.next (command_of_idle h)

theorem setBaudBody_zero (s : State) : setBaudBody 0 s = s.refuse .zeroBaud := if_pos rfl

theorem setBaudBody_of_ne_zero {b : Word32} (s : State) (h : b ≠ 0) :
    setBaudBody b s = { s.callTransport (.setBaudRate b) with baud := b }.deliver .done := if_neg h

/-- Settles O25: the command has ended the view when it checks the rate. -/
theorem setBaudSetsBaudOrRefusesZero : Obligations.SetBaudSetsBaudOrRefusesZero := by
  intro s b hseq
  rw [exec_setBaud_of_idle b hseq]
  refine ⟨fun hb => ?set, ?zero⟩
  case set =>
    rw [setBaudBody_of_ne_zero _ hb]
    simp only [State.callTransport, State.deliver, State.endCommand, answered, hseq]
  case zero =>
    rintro rfl
    rw [setBaudBody_zero, refuse_of_idle hseq]

end Sys2Proof.Machine
end

section
/-! SUPPORT. The transfer time as a rounded-up quotient, and the `TTIME` command; `TtimeIsLeastSufficientTime`. -/

namespace Sys2Proof.Machine

open Sys2Proof.Claims

section
variable {baud : Word32} (h : baud ≠ 0)
include h

theorem transferTime_of_baud (size : Nat) :
    transferTime baud size = (size * 10 * 1000000 + baud.toNat - 1) / baud.toNat := if_neg h

/-- A time suffices for the bytes exactly when it is not below the transfer time: the quotient of 45 R281 is the
library's ceiling. -/
theorem transferTime_le_iff (size u : Nat) :
    transferTime baud size ≤ u ↔ size * 10 * 1000000 ≤ u * baud.toNat := by
  have hpos : 0 < baud.toNat := Nat.pos_of_ne_zero (BitVec.toNat_ne.mp h)
  rw [transferTime_of_baud h, ← Nat.ceilDiv_eq_add_pred_div, ceilDiv_le_iff_le_mul hpos, Nat.mul_comm u]

end

theorem exec_ttime_of_idle (size : Nat) {s : State} (h : s.seq = .idle) :
    exec (.ttime size) s = .next (answered s (.micros (transferTime s.baud size))) :=
  congrArg Host.Outcome.next ((command_of_idle h).trans (deliver_of_idle h _))

/-- Settles O24: that the times which suffice are those from the transfer time on gives both that it suffices and that
no smaller one does. -/
theorem ttimeIsLeastSufficientTime : Obligations.TtimeIsLeastSufficientTime := by
  intro s size hseq hbaud
  refine ⟨transferTime s.baud size, exec_ttime_of_idle size hseq, transferTime_of_baud hbaud size, ?enough,
    fun u hu => ?least⟩
  case enough => exact (transferTime_le_iff hbaud size _).mp le_rfl
  case least => exact (lt_iff_lt_of_le_iff_le (transferTime_le_iff hbaud size u)).mp hu

end Sys2Proof.Machine
end

section
/-! SUPPORT. The kept refusal flag and the table of failures; `RefusalFlagIsKept` and `FailureCodesAndKinds`. -/

namespace Sys2Proof.Machine

open Sys2Proof.Claims

/-- Of the updates of a state, only a refusal touches the flag, and it sets it (60 R305). -/
theorem stable_refusal : Stable fun t => t.refusal = true where
  deliver t r h := (t.deliver_refusal r).trans h
  refuse t r _ := t.refuse_refusal r
  call t c h := (t.callTransport_refusal c).trans h
  control _ _ _ _ _ h := h
  cursors _ _ _ h := h
  wbuf _ _ h := h
  rbuf _ _ h := h
  transport _ _ _ _ _ h := h
  collect _ _ _ _ h := h
  result _ _ h := h
  inbox _ _ h := h

/-- Settles O11: every step is made of updates that keep a set flag, that of `BAUD` among them. -/
theorem refusalFlagIsKept : Obligations.RefusalFlagIsKept := fun _ _ e h =>
  stable_refusal.step (fun _ _ hflag => hflag) e h

/-- Settles O30, row by row of the table of 60 R300: neither the code nor the kind looks at a failure's info. -/
theorem failureCodesAndKinds : Obligations.FailureCodesAndKinds := by
  refine ⟨fun _ _ _ => ?bufferTooSmall, fun _ => ?lengthOverflow, fun _ => ?discardFailed, fun _ => ?writeFailed,
    fun _ => ?readFailed, ?timeout, fun _ _ => ?invalidChecksum, fun _ _ => ?invalidPacketId,
    fun _ _ => ?invalidParameterCount, fun _ => ?invalidMessage, fun _ => ?motorError⟩
  case bufferTooSmall | lengthOverflow => exact ⟨rfl, rfl⟩
  case discardFailed | writeFailed | readFailed | timeout => exact ⟨rfl, rfl⟩
  case invalidChecksum | invalidPacketId | invalidParameterCount | invalidMessage => exact ⟨rfl, rfl⟩
  case motorError => exact ⟨rfl, rfl⟩

end Sys2Proof.Machine
end

section
/-! SUPPORT. Construction, an equation for each of its three outcomes; `ConstructionFollowsItsChecks`. -/

namespace Sys2Proof.Machine

variable {p : Params}

theorem construct_of_failed_check {r : RegName} {c : DescCheck} (h : checkRegs p.regs = some (r, c)) (b : Word32) :
    construct p b = .error (.illFormedDescriptor r c) := by rw [construct, h]

theorem construct_of_zero_baud (h : checkRegs p.regs = none) : construct p 0 = .error .zeroBaud := by
  rw [construct, h]
  exact if_pos rfl

theorem construct_of_checks_pass (h : checkRegs p.regs = none) {b : Word32} (hb : b ≠ 0) :
    construct p b = .ok { State.reset with par := p, baud := b } := by
  rw [construct, h]
  exact if_neg hb

/-- Settles O17: a constructed block differs from `State.reset` in its parameters and `BAUD` alone, so the values of
10 R46 are its values as well. -/
theorem constructionFollowsItsChecks : Obligations.ConstructionFollowsItsChecks := by
  intro p b
  refine ⟨fun r c h => ?illFormed, fun h hb => ?zeroBaud, fun h hb => ?built⟩
  case illFormed => exact construct_of_failed_check h b
  case zeroBaud =>
    subst hb
    exact construct_of_zero_baud h
  case built =>
    obtain ⟨hwbuf0, hwbuf1, hreadLen, hused, hskipped, hphase, hseq, hview, -⟩ := resetValues
    exact ⟨_, construct_of_checks_pass h hb, rfl, rfl, hwbuf0, hwbuf1, hreadLen, hused, hskipped, hphase, hseq, hview,
      rfl⟩

end Sys2Proof.Machine
end
